-- ==== Sys2Proof/Word.lean ====
section
/-! DEFINITION. The word types of the block, at the widths spec/00_scope.md rule R8 fixes
(VALW = 32, IDXW = 32, CMDW = 100, RSPW = 36) and rules R67 and R68 of spec/30_encoding.md. -/

namespace Sys2Proof

/-- A value, index, length or count operand: 32 bits, unsigned (R8, R63, R91). -/
abbrev Word := BitVec 32

/-- One byte of the byte view of the live buffer (R46). -/
abbrev Byte := BitVec 8

/-- A command word, 100 bits (R62). -/
abbrev CmdWord := BitVec 100

/-- A response word, 36 bits: status in [35:32], data in [31:0] (R69). -/
abbrev RspWord := BitVec 36

/-- An output beat, 33 bits: dout_last in bit 32, dout_data in [31:0] (R68). -/
abbrev DoutBeat := BitVec 33

end Sys2Proof
end

