-- ==== Sys2Proof/Syntax.lean ====
section
/-! DEFINITION. The commands of PUA-1 as syntax: one constructor per row of
spec/opcode_table.json (R64, R66). An operand field a command does not use is ignored (R65) and is
therefore no argument of its constructor. -/

namespace Sys2Proof

/-- One command as the sequencer executes it. The operand names are those of R64. -/
inductive Instr where
  /-- 0x1 NEW: `length` = A (R101). -/
  | new (length : Word)
  /-- 0x2 FILLED: `length` = A, `value` = V (R102). -/
  | filled (length value : Word)
  /-- 0x3 FROM: `count` = A; the elements follow as beats on DIN (R103, R104). -/
  | fromBeats (count : Word)
  /-- 0x4 GET: `index` = A (R110). -/
  | get (index : Word)
  /-- 0x5 SET: `index` = A, `value` = V (R111). -/
  | set (index value : Word)
  /-- 0x6 SETR: `start` = A, `stop` = B, `value` = V (R112). -/
  | setr (start stop value : Word)
  /-- 0x7 ITER (R120, R121). -/
  | iter
  /-- 0x8 MASK (R122). -/
  | mask
  /-- 0x9 LEN (R123). -/
  | len
  /-- 0x0, reserved (R66, R150). -/
  | reserved0
  /-- 0xA, reserved (R66, R150). -/
  | reservedA
  /-- 0xB, reserved (R66, R150). -/
  | reservedB
  /-- 0xC, reserved (R66, R150). -/
  | reservedC
  /-- 0xD, reserved (R66, R150). -/
  | reservedD
  /-- 0xE, reserved (R66, R150). -/
  | reservedE
  /-- 0xF, reserved (R66, R150). -/
  | reservedF
  deriving DecidableEq, Repr

end Sys2Proof
end

