-- ==== Sys2Proof/WellFormed.lean ====
section
/-! DEFINITION. Well-formedness. Every operand of an `Instr` is a 32-bit word, so no operand can be
out of range (R63, R152, 93 S4); what is left to check on an instruction is that it names a command
at all (R66). A line of assembler text (R72, R73) has unbounded numbers, and there the check is that
each fits its 32-bit field. -/

namespace Sys2Proof

/-- The instruction names one of the nine commands of PUA-1 (R64), not a reserved opcode (R66). -/
def Instr.wellFormed : Instr → Bool
  | .new _ => true
  | .filled _ _ => true
  | .fromBeats _ => true
  | .get _ => true
  | .set _ _ => true
  | .setr _ _ _ => true
  | .iter => true
  | .mask => true
  | .len => true
  | .reserved0 => false
  | .reservedA => false
  | .reservedB => false
  | .reservedC => false
  | .reservedD => false
  | .reservedE => false
  | .reservedF => false

/-- One line of assembler text, operands still unbounded numbers (R72), with the one
pseudo-instruction `FROM [v0, ...]` (R73) and the beat lines `DIN value` that follow a FROM. -/
inductive AsmLine where
  | new (length : Nat)
  | filled (length value : Nat)
  | fromCount (count : Nat)
  | fromList (values : List Nat)
  | din (value : Nat)
  | get (index : Nat)
  | set (index value : Nat)
  | setr (start stop value : Nat)
  | iter
  | mask
  | len
  deriving DecidableEq, Repr

/-- A number that fits a 32-bit operand field or beat (R63, R67). -/
def fitsWord (n : Nat) : Bool := decide (n < 2 ^ 32)

/-- Every operand of the line fits its field, and so does the count `FROM [..]` stands for. -/
def AsmLine.wellFormed : AsmLine → Bool
  | .new n => fitsWord n
  | .filled n v => fitsWord n && fitsWord v
  | .fromCount n => fitsWord n
  | .fromList vs => fitsWord vs.length && vs.all fitsWord
  | .din v => fitsWord v
  | .get i => fitsWord i
  | .set i v => fitsWord i && fitsWord v
  | .setr s e v => fitsWord s && fitsWord e && fitsWord v
  | .iter => true
  | .mask => true
  | .len => true

end Sys2Proof
end

