-- ==== Sys2Proof/Decode.lean ====
section
/-! DEFINITION. The command word `{op[99:96], A[95:64], B[63:32], V[31:0]}` (R62): its fields, the
decoder (R64, R65, R66; total, since every opcode has a row), the encoder (R72), and the host's view
of the decoder on a table row's bits. -/

namespace Sys2Proof

/-- Bits [99:96], the opcode (R62). -/
def opField (w : CmdWord) : BitVec 4 := w.extractLsb' 96 4

/-- Bits [95:64], operand A (R62, R63). -/
def aField (w : CmdWord) : Word := w.extractLsb' 64 32

/-- Bits [63:32], operand B (R62, R63). -/
def bField (w : CmdWord) : Word := w.extractLsb' 32 32

/-- Bits [31:0], operand V (R62, R63). -/
def vField (w : CmdWord) : Word := w.extractLsb' 0 32

/-- The command a word carries: `op` alone decides which (R62, R64), the operands it uses are taken
from their fields as they stand (R63), all other bits are ignored (R65). -/
def decode (w : CmdWord) : Instr :=
  match (opField w).toNat with
  | 0x0 => .reserved0
  | 0x1 => .new (aField w)
  | 0x2 => .filled (aField w) (vField w)
  | 0x3 => .fromBeats (aField w)
  | 0x4 => .get (aField w)
  | 0x5 => .set (aField w) (vField w)
  | 0x6 => .setr (aField w) (bField w) (vField w)
  | 0x7 => .iter
  | 0x8 => .mask
  | 0x9 => .len
  | 0xA => .reservedA
  | 0xB => .reservedB
  | 0xC => .reservedC
  | 0xD => .reservedD
  | 0xE => .reservedE
  | _ => .reservedF

/-- Why a number is no command word. -/
inductive DecodeError where
  /-- The number needs more than the 100 bits of the one command format (R62, R71). -/
  | widerThanCommandWord
  deriving DecidableEq, Repr

/-- Decode a number given as bits: refused by name when it has a bit above bit 99 (R62, R71). -/
def decodeBits (w : Nat) : Except DecodeError Instr :=
  if w < 2 ^ 100 then .ok (decode (BitVec.ofNat 100 w)) else .error .widerThanCommandWord

/-- `{op, A, B, V}` (R62). -/
def assembleFields (op : BitVec 4) (a b v : Word) : CmdWord := op ++ a ++ b ++ v

/-- The opcode of a command (R64) or reserved row (R66). -/
def Instr.opcode : Instr → BitVec 4
  | .reserved0 => 0x0
  | .new _ => 0x1
  | .filled _ _ => 0x2
  | .fromBeats _ => 0x3
  | .get _ => 0x4
  | .set _ _ => 0x5
  | .setr _ _ _ => 0x6
  | .iter => 0x7
  | .mask => 0x8
  | .len => 0x9
  | .reservedA => 0xA
  | .reservedB => 0xB
  | .reservedC => 0xC
  | .reservedD => 0xD
  | .reservedE => 0xE
  | .reservedF => 0xF

/-- The word of an instruction, operands in the fields R64 names, every unused field 0 (R72). -/
def encode (i : Instr) : CmdWord :=
  match i with
  | .new n => assembleFields i.opcode n 0 0
  | .filled n v => assembleFields i.opcode n 0 v
  | .fromBeats n => assembleFields i.opcode n 0 0
  | .get k => assembleFields i.opcode k 0 0
  | .set k v => assembleFields i.opcode k 0 v
  | .setr a b v => assembleFields i.opcode a b v
  | .iter => assembleFields i.opcode 0 0 0
  | .mask => assembleFields i.opcode 0 0 0
  | .len => assembleFields i.opcode 0 0 0
  | .reserved0 => assembleFields i.opcode 0 0 0
  | .reservedA => assembleFields i.opcode 0 0 0
  | .reservedB => assembleFields i.opcode 0 0 0
  | .reservedC => assembleFields i.opcode 0 0 0
  | .reservedD => assembleFields i.opcode 0 0 0
  | .reservedE => assembleFields i.opcode 0 0 0
  | .reservedF => assembleFields i.opcode 0 0 0

/-- The instruction the decoder reads from a table row's bits. A command word crosses the CMD port
whole (R60, R62), so its bits are numbered as the table numbers them and bits from `nbits` up are 0
(log 16). -/
def decodeTableWord (_nbits w : Nat) : Option Instr :=
  match decodeBits w with
  | .ok i => some i
  | .error _ => none

end Sys2Proof
end

