-- ==== Sys2Proof/Config.lean ====
section
/-! DEFINITION. What the spec leaves to an implementation: the one open parameter LMAX (R9) and the
free cycle counts of a command (R180). Each is a constant without a body, so a theorem about the
model holds whatever they are. -/

namespace Sys2Proof

/-- LMAX, the largest logical length the storage can hold, `0 <= LMAX <= 2^32 - 1` (R9; log 1).
The meanings take it as an argument and are applied to this constant in one place each. -/
opaque Config.lmax : Word

/-- FREE VALUE (R180, U4; log 3): how many clock cycles of EXEC pass before the work of the n-th
accepted command is done. Finite, otherwise unconstrained. -/
opaque Config.cyclesBefore : Nat → Nat

/-- FREE VALUE (R180, U4, U5; log 3): how many further clock cycles the block stays in EXEC after
the work, and so after the commit, of the n-th accepted command. -/
opaque Config.cyclesAfter : Nat → Nat

end Sys2Proof
end

