-- ==== Sys2Proof/Machine/State.lean ====
section
/-! DEFINITION. The state of the block (spec/10_state.md rules R16 to R28, R37), the pins of one clock
cycle (R60), and the host's side of the ports. State is plain data. -/

namespace Sys2Proof.Machine

/-- The width tag TAG (R19): which encoding the live buffer has. All four 2-bit codes are legal. -/
inductive Width where
  | w4 | w8 | w16 | w32
  deriving DecidableEq, Repr

/-- The sequencer's PHASE (R23). Its codes 5 to 7 are never taken and have no constructor (log 12). -/
inductive Phase where
  /-- Waiting for a command. -/
  | idle
  /-- A command is accepted and its work is in progress. -/
  | exec
  /-- A FROM command is receiving input beats. -/
  | load
  /-- An ITER command is sending output beats. -/
  | stream
  /-- The response is waiting to be taken. -/
  | resp
  deriving DecidableEq, Repr

/-- What raises a fault of the block (R146). -/
inductive Cause where
  /-- ERR_ILLEGAL (R150). -/
  | illegal
  /-- ERR_INDEX (R147). -/
  | index
  /-- ERR_RANGE (R148). -/
  | range
  /-- ERR_CAPACITY (R149). -/
  | capacity
  deriving DecidableEq, Repr

/-- The closed set of response statuses (R69, 93 U9). -/
inductive Status where
  /-- OK. -/
  | ok
  /-- The command raised this fault. -/
  | err (c : Cause)
  /-- ERR_HALTED: an earlier fault already halted the block (R154). -/
  | halted
  deriving DecidableEq, Repr

/-- The byte view of the live buffer (R46): its bytes that are not 0x00, as (byte offset, byte)
cells in rising order of offset. A byte that is not listed is 0x00, which is what the command that
built the buffer wrote there (log 6). -/
abbrev Mem := List Host.Cell

/-- The container (R15): TAG, MASK, LEN and BUF, which change together at a commit (R29). -/
structure Container where
  /-- TAG (R19). -/
  tag : Width
  /-- MASK, the cached mask (R20). -/
  mask : Word
  /-- LEN, the logical element count (R21). -/
  len : Word
  /-- BUF, the live buffer (R27). -/
  buf : Mem
  deriving DecidableEq, Repr

/-- The block's input pins in one clock cycle (R60, R165). -/
structure PortIn where
  rst : Bool
  cmdValid : Bool
  cmdWord : CmdWord
  dinValid : Bool
  dinData : Word
  doutReady : Bool
  rspReady : Bool
  deriving DecidableEq, Repr

/-- The host's side of the ports: what it will drive, and the transfers so far (log 2, 7, 11). -/
structure Env where
  /-- The input pins of the clock cycles to come, the next cycle first. -/
  input : List PortIn
  /-- The word the host has offered on CMD and must keep offering (R61, R171). -/
  heldCmd : Option CmdWord
  /-- The beat the host has offered on DIN and must keep offering (R61, R171). -/
  heldDin : Option Word
  /-- The command words transferred so far, oldest first (R61, R62). -/
  gaveCmd : List CmdWord
  /-- The input beats transferred so far, oldest first (R61, R67). -/
  gaveDin : List Word
  /-- The output beats transferred so far, oldest first (R68). -/
  gotDout : List DoutBeat
  /-- The responses transferred so far, oldest first (R69). -/
  gotRsp : List RspWord
  deriving DecidableEq, Repr

/-- The state of the block: the registers of R16, then what the model itself holds of a command in
progress (log 3, 4), then the host's side of the ports. -/
structure State where
  /-- TAG, MASK, LEN and BUF (R19, R20, R21, R27). -/
  box : Container
  /-- FAULT (R22). -/
  fault : Bool
  /-- CAUSE (R22). -/
  cause : BitVec 4
  /-- PHASE (R23). -/
  phase : Phase
  /-- CNT (R24). -/
  cnt : Word
  /-- NREQ (R24). -/
  nreq : Word
  /-- ACC, oldest beat first (R25). -/
  acc : List Word
  /-- RSP (R26). -/
  rsp : RspWord
  /-- MODEL'S OWN (log 4): the command word accepted and being executed. -/
  cmd : CmdWord
  /-- MODEL'S OWN (log 3): cycles of EXEC still to pass before the command's work is done. -/
  wait : Nat
  /-- MODEL'S OWN (log 3): cycles of EXEC still to pass after the work. -/
  rest : Nat
  /-- MODEL'S OWN (log 3): the phase the command goes to after `rest`, once its work is done. -/
  done : Option Phase
  /-- MODEL'S OWN (log 3): how many commands have been accepted; the free values' argument. -/
  tick : Nat
  /-- The host's side of the ports. -/
  env : Env
  deriving DecidableEq, Repr

/-- Where the machine stops with a fault. The block's OWN faults (R146) are no stops: they are
states, with FAULT set and CAUSE written (R153). -/
inductive Fault where
  /-- Raised by a clock cycle in phase STREAM whose CNT is not below LEN: there is no such element
  (R45, R121). No run reaches such a state (R24). SAFE: the model stops where the spec gives nothing
  (log 9). -/
  | elementOutsideBuffer
  deriving DecidableEq, Repr

/-- Where the model gives an input no meaning. -/
inductive Refusal where
  /-- Raised by a dispatch arm of an instruction that has no meaning yet. No arm is one. SAFE. -/
  | notModelled (mnemonic : String)
  /-- Raised by a clock cycle in which the host dropped or changed an offer that had not been
  transferred (R61, R171, 93 U6: no rule gives such a run a meaning). SAFE (log 7). -/
  | hostBrokeHandshake
  deriving DecidableEq, Repr

/-- The reset state of R37 and R166. The fields the model adds to R16 are empty or 0 (log 2, 3, 4, 7, 11). -/
def State.reset : State where
  box := { tag := .w4, mask := 15, len := 0, buf := [] }
  fault := false
  cause := 0
  phase := .idle
  cnt := 0
  nreq := 0
  acc := []
  rsp := 0
  cmd := 0
  wait := 0
  rest := 0
  done := none
  tick := 0
  env :=
    { input := [], heldCmd := none, heldDin := none
      gaveCmd := [], gaveDin := [], gotDout := [], gotRsp := [] }

end Sys2Proof.Machine
end

