-- ==== Sys2Proof/Machine/Operands.lean ====
section
/-! DEFINITION. The functions of a width tag (R13), the width selections of a value (R14), and the
effective-address computation that takes a logical index to a storage unit and a lane (R45). -/

namespace Sys2Proof.Machine

/-- NIB_PER_UNIT: logical elements per storage unit at W4 (R8). -/
def nibPerUnit : Nat := 2

/-- PARITY_MASK: `index & PARITY_MASK` is 0 for an even index, 1 for an odd one (R8). -/
def parityMask : Nat := 1

/-- NIB_BITS: the width of a nibble (R8). -/
def nibBits : Nat := 4

/-- NIB_MASK: the low nibble of a storage unit (R8). -/
def nibMask : Byte := 0x0F

/-- The 2-bit code of TAG (R19). -/
def Width.code : Width → BitVec 2
  | .w4 => 0
  | .w8 => 1
  | .w16 => 2
  | .w32 => 3

/-- Element width in bits (R13). -/
def Width.bits : Width → Nat
  | .w4 => 4
  | .w8 => 8
  | .w16 => 16
  | .w32 => 32

/-- The mask of a width, `2^bits - 1` (R7, R13, R80; 90 C1). -/
def Width.maskOf : Width → Word
  | .w4 => 15
  | .w8 => 255
  | .w16 => 65535
  | .w32 => 4294967295

/-- Bytes of one storage unit (R13). -/
def Width.unitBytes : Width → Nat
  | .w4 => 1
  | .w8 => 1
  | .w16 => 2
  | .w32 => 4

/-- Bits of one storage unit (R13). -/
def Width.unitBits (t : Width) : Nat := 8 * t.unitBytes

/-- Packing density: logical elements per storage unit (R13). -/
def Width.density : Width → Nat
  | .w4 => nibPerUnit
  | .w8 => 1
  | .w16 => 1
  | .w32 => 1

/-- Storage units of a buffer of `n` elements (R13). Lengths are unbounded here, so `n + 1` does not
wrap (R94). -/
def Width.nUnits : Width → Nat → Nat
  | .w4, n => (n + 1) / nibPerUnit
  | .w8, n => n
  | .w16, n => n
  | .w32, n => n

/-- Bytes of a buffer of `n` elements (R13). -/
def Width.nBytes (t : Width) (n : Nat) : Nat := t.nUnits n * t.unitBytes

/-- The narrowest width whose mask covers `v` (R14). -/
def minWidth (v : Word) : Width :=
  if v ≤ 15 then .w4 else if v ≤ 255 then .w8 else if v ≤ 65535 then .w16 else .w32

/-- The target of an upscale for `v`: 8, 16, 32 bits in this order, never 4 (R14, R132). -/
def upWidth (v : Word) : Width :=
  if v ≤ 255 then .w8 else if v ≤ 65535 then .w16 else .w32

/-- The storage unit of logical index `i` (R45). -/
def unitOf : Width → Nat → Nat
  | .w4, i => i / nibPerUnit
  | .w8, i => i
  | .w16, i => i
  | .w32, i => i

/-- The lane of logical index `i` within its unit: at W4, 0 is the low nibble (R45, R96). -/
def laneOf : Width → Nat → Nat
  | .w4, i => i &&& parityMask
  | .w8, _ => 0
  | .w16, _ => 0
  | .w32, _ => 0

/-- The bit offset of logical index `i` within its unit (R45). -/
def shiftOf (t : Width) (i : Nat) : Nat := nibBits * laneOf t i

/-- The byte offset of unit `u` in the byte view (R45, R46). -/
def unitOff (t : Width) (u : Nat) : Nat := u * t.unitBytes

/-- The byte offset of the unit of logical index `i` (R45). -/
def byteOff (t : Width) (i : Nat) : Nat := unitOff t (unitOf t i)

end Sys2Proof.Machine
end

