-- ==== Sys2Proof/Machine/Flags.lean ====
section
/-! DEFINITION. Flags, codes and tests. The block's only flags are FAULT and CAUSE (R22) and the
derived BUSY (R38); no command sets a condition flag. -/

namespace Sys2Proof.Machine

/-- The 3-bit code of PHASE (R23). -/
def Phase.code : Phase → BitVec 3
  | .idle => 0
  | .exec => 1
  | .load => 2
  | .stream => 3
  | .resp => 4

/-- The fault code written to CAUSE and returned as status (R146). -/
def Cause.code : Cause → BitVec 4
  | .illegal => 0x1
  | .index => 0x2
  | .range => 0x3
  | .capacity => 0x4

/-- The status code in a response (R69). -/
def Status.code : Status → BitVec 4
  | .ok => 0x0
  | .err c => c.code
  | .halted => 0xF

/-- BUSY: PHASE is not IDLE (R38). -/
def State.busy (s : State) : Bool := decide (s.phase ≠ .idle)

/-- The mask test of a write: `V > MASK` (R92, R131). -/
def needsUpscale (mask v : Word) : Bool := decide (mask < v)

/-- The same test as the source words it, `value & current_mask == value` failing (R92). -/
def needsUpscaleByAnd (mask v : Word) : Bool := decide (v &&& mask ≠ v)

/-- The check of NEW, FILLED and FROM: `A > LMAX` (R149). -/
def overCapacity (lmax a : Word) : Bool := decide (lmax < a)

/-- The check of GET and SET: `A >= LEN` (R147). -/
def badIndex (len a : Word) : Bool := decide (len ≤ a)

/-- The check of SETR: `A > B` or `B > LEN` (R148). -/
def badRange (len a b : Word) : Bool := decide (b < a ∨ len < b)

end Sys2Proof.Machine
end

