-- ==== Sys2Proof/Machine/Ops.lean ====
section
/-! DEFINITION. The shared operations: the byte view of the buffer, the response, the commit, the
fault entry (R153) and, as the one way out of it, reset (R157, R165), and the order of checks (R155). -/

namespace Sys2Proof.Machine

/-- The byte at offset `a` of the byte view (R46); a byte that is not listed is 0x00 (log 6). -/
def Mem.read : Mem → Nat → Byte
  | [], _ => 0
  | c :: m, a => if c.1 = a then c.2 else Mem.read m a

/-- A cell in front of a buffer, left out when its byte is 0x00 (log 6). -/
def Mem.put (a : Nat) (v : Byte) (m : Mem) : Mem := if v = 0 then m else (a, v) :: m

/-- Write the byte at offset `a`, keeping the cells sorted and free of 0x00 (log 6). -/
def Mem.write : Mem → Nat → Byte → Mem
  | [], a, v => Mem.put a v []
  | c :: m, a, v =>
    if a < c.1 then Mem.put a v (c :: m)
    else if a = c.1 then Mem.put a v m
    else c :: Mem.write m a v

/-- Every cell lies at offset `lo` or above, strictly above the one before it, and holds no 0x00. -/
def Mem.sortedFrom : Nat → Mem → Bool
  | _, [] => true
  | lo, c :: m => decide (lo ≤ c.1) && decide (c.2 ≠ 0) && Mem.sortedFrom (c.1 + 1) m

/-- The canonical form: offsets strictly rising, no 0x00 listed. -/
def Mem.wf (m : Mem) : Bool := Mem.sortedFrom 0 m

/-- Every listed byte lies below offset `n`: the buffer has no cell beyond its `n` bytes (R27, R49). -/
def Mem.within (n : Nat) (m : Mem) : Bool := m.all fun c => decide (c.1 < n)

/-- A fresh buffer whose byte at offset `base + k` is the k-th of the list. -/
def Mem.ofBytes (base : Nat) : List Byte → Mem
  | [] => []
  | b :: bs => Mem.put base b (Mem.ofBytes (base + 1) bs)

/-- `MemRead(addr, n)`: `n` bytes of the byte view, little-endian, as a number (R12, R46). -/
def memRead (m : Mem) (addr : Nat) : Nat → Nat
  | 0 => 0
  | n + 1 => (Mem.read m addr).toNat + 256 * memRead m (addr + 1) n

/-- `MemWrite(addr, n, v)`: the low `8n` bits of `v`, little-endian (R12, R46). -/
def memWrite (m : Mem) (addr : Nat) : Nat → Nat → Mem
  | 0, _ => m
  | n + 1, v => memWrite (Mem.write m addr (BitVec.ofNat 8 v)) (addr + 1) n (v / 256)

/-- `BUF[u]` (R12, R45, R46). -/
def unitRead (t : Width) (m : Mem) (u : Nat) : Nat := memRead m (unitOff t u) t.unitBytes

/-- `BUF[u] <- v`, `v` cut to the unit's width (R12, R45, R46). -/
def unitWrite (t : Width) (m : Mem) (u v : Nat) : Mem := memWrite m (unitOff t u) t.unitBytes v

/-- `respond(status, data)`: RSP <- {status, data}, and the response waits to be taken (R23, R26, R69). -/
def State.respond (st : Status) (data : Word) (s : State) : State :=
  { s with rsp := st.code ++ data, phase := .resp }

/-- The commit: TAG, MASK, LEN and BUF take their new values together (R29). -/
def State.commit (c : Container) (s : State) : State := { s with box := c }

/-- FAULT ENTRY, `raise E` (R153): CAUSE keeps the first code, FAULT is set, the response carries the
code, and nothing else changes. -/
def State.raise (c : Cause) (s : State) : State :=
  State.respond (.err c) 0 { s with fault := true, cause := if s.fault then s.cause else c.code }

/-- The only way out of a fault (R157): a clock edge with `rst = 1` takes every register to the reset
state, whatever the block was doing (R37, R165, R167). The host's side of the ports is no state of
the block and stays, and so does the model's count of free values (log 3). -/
def State.hardReset (s : State) : State := { State.reset with env := s.env, tick := s.tick }

/-- Step 1 of R155: a halted block answers ERR_HALTED and does nothing else (R154). -/
def State.unlessHalted (s ok : State) : State := if s.fault then s.respond .halted 0 else ok

/-- R155 for one command: halted first, then the command's one check, then its effect. -/
def State.checked (s : State) (bad : Bool) (c : Cause) (ok : State) : State :=
  s.unlessHalted (if bad then s.raise c else ok)

end Sys2Proof.Machine
end

