-- ==== Sys2Proof/Machine/Representation.lean ====
section
/-! DEFINITION. The Representation primitives of spec/40_representation.md: REP_MASK, REP_GET,
REP_SET, REP_FILL, REP_ITER and pack. They are total, and outside their preconditions they truncate
(R83, R84, 92 D24); no command reaches them there. -/

namespace Sys2Proof.Machine

/-- REP_MASK (R80). -/
def repMask (t : Width) : Word := t.maskOf

/-- The byte of W4 unit `u`. -/
def nibUnit (m : Mem) (u : Nat) : Byte := Mem.read m (unitOff .w4 u)

/-- A value cut to a nibble, as a byte: `trunc_4(v)` (R83). -/
def nibOf (v : Word) : Byte := (v.setWidth nibBits).setWidth 8

/-- A unit with its low nibble replaced (R83). -/
def setLow (unit n : Byte) : Byte := (unit &&& ~~~nibMask) ||| n

/-- A unit with its high nibble replaced (R83). -/
def setHigh (unit n : Byte) : Byte := (unit &&& nibMask) ||| (n <<< nibBits)

/-- A unit with both nibbles equal, the pre-packed byte (R87, R93). -/
def bothNibbles (n : Byte) : Byte := n ||| (n <<< nibBits)

/-- REP_GET at W4 (R81): low nibble of the unit for an even index, high nibble for an odd one. -/
def repGet4 (m : Mem) (i : Nat) : Word :=
  if laneOf .w4 i = 0 then (nibUnit m (unitOf .w4 i) &&& nibMask).setWidth 32
  else (nibUnit m (unitOf .w4 i) >>> nibBits).setWidth 32

/-- REP_GET at W8, W16, W32 (R82): the unit, widened with zeros. -/
def repGetUnit (t : Width) (m : Mem) (i : Nat) : Word := BitVec.ofNat 32 (unitRead t m (unitOf t i))

/-- REP_GET (R81, R82). -/
def repGet (t : Width) (m : Mem) (i : Nat) : Word :=
  match t with
  | .w4 => repGet4 m i
  | .w8 => repGetUnit .w8 m i
  | .w16 => repGetUnit .w16 m i
  | .w32 => repGetUnit .w32 m i

/-- REP_SET at W4 (R83): a read-modify-write of one unit that keeps the other nibble. -/
def repSet4 (m : Mem) (i : Nat) (v : Word) : Mem :=
  Mem.write m (byteOff .w4 i)
    (if laneOf .w4 i = 0 then setLow (nibUnit m (unitOf .w4 i)) (nibOf v)
     else setHigh (nibUnit m (unitOf .w4 i)) (nibOf v))

/-- REP_SET at W8, W16, W32 (R84): one unit write, cut to the unit's width. -/
def repSetUnit (t : Width) (m : Mem) (i : Nat) (v : Word) : Mem := unitWrite t m (unitOf t i) v.toNat

/-- REP_SET (R83, R84). -/
def repSet (t : Width) (m : Mem) (i : Nat) (v : Word) : Mem :=
  match t with
  | .w4 => repSet4 m i v
  | .w8 => repSetUnit .w8 m i v
  | .w16 => repSetUnit .w16 m i v
  | .w32 => repSetUnit .w32 m i v

/-- REP_FILL by its meaning (R85): `count` writes of one element each, from index `start` up. -/
def repFillLoop (t : Width) (m : Mem) (start : Nat) (v : Word) : Nat → Mem
  | 0 => m
  | count + 1 => repFillLoop t (repSet t m start v) (start + 1) v count

/-- `count` unit writes of the same unit value from unit `u` up (R86, R87 step c). -/
def fillUnits (t : Width) (m : Mem) (u v : Nat) : Nat → Mem
  | 0 => m
  | count + 1 => fillUnits t (unitWrite t m u v) (u + 1) v count

/-- Step (a) of R87: an odd `start` is the high nibble of its unit. -/
def fillHead (m : Mem) (start : Nat) (n : Byte) : Mem :=
  if laneOf .w4 start = 1 then
    Mem.write m (byteOff .w4 start) (setHigh (nibUnit m (unitOf .w4 start)) n)
  else m

/-- Step (b) of R87: an even `stop - 1` is the low nibble of its unit. -/
def fillTail (m : Mem) (stop : Nat) (n : Byte) : Mem :=
  if laneOf .w4 (stop - 1) = 0 then
    Mem.write m (byteOff .w4 (stop - 1)) (setLow (nibUnit m (unitOf .w4 (stop - 1))) n)
  else m

/-- REP_FILL at W4, the unit-level algorithm (R87), with its empty-range guard (90 C3, C5). -/
def repFill4 (m : Mem) (start stop : Nat) (v : Word) : Mem :=
  if start = stop then m
  else
    fillUnits .w4 (fillTail (fillHead m start (nibOf v)) stop (nibOf v)) ((start + 1) / 2)
      (bothNibbles (nibOf v)).toNat (stop / 2 - (start + 1) / 2)

/-- REP_FILL at W8, W16, W32 (R86). -/
def repFillWide (t : Width) (m : Mem) (start stop : Nat) (v : Word) : Mem :=
  fillUnits t m start v.toNat (stop - start)

/-- REP_FILL on `[start, stop)` (R85 to R87). -/
def repFill (t : Width) (m : Mem) (start stop : Nat) (v : Word) : Mem :=
  match t with
  | .w4 => repFill4 m start stop v
  | .w8 => repFillWide .w8 m start stop v
  | .w16 => repFillWide .w16 m start stop v
  | .w32 => repFillWide .w32 m start stop v

/-- REP_ITER: the first `n` elements in index order (R89; 90 C4). -/
def repIter (t : Width) (m : Mem) (n : Nat) : List Word := (List.range n).map (repGet t m)

/-- The `n` low bytes of a number, least significant first (R46). -/
def leBytes (v : Nat) : Nat → List Byte
  | 0 => []
  | n + 1 => BitVec.ofNat 8 v :: leBytes (v / 256) n

/-- The units of pack(W4, V) (R90): two elements a byte, low nibble first, padding nibble 0. -/
def packNibbles : List Word → List Byte
  | [] => []
  | [lo] => [nibOf lo]
  | lo :: hi :: vs => (nibOf lo ||| (nibOf hi <<< nibBits)) :: packNibbles vs

/-- The bytes of pack(t, V) for W8, W16, W32 (R90). -/
def packUnits (t : Width) : List Word → List Byte
  | [] => []
  | v :: vs => leBytes v.toNat t.unitBytes ++ packUnits t vs

/-- The byte view of pack(t, V) (R46, R90). -/
def packBytes (t : Width) (vs : List Word) : List Byte :=
  match t with
  | .w4 => packNibbles vs
  | .w8 => packUnits .w8 vs
  | .w16 => packUnits .w16 vs
  | .w32 => packUnits .w32 vs

/-- The elements of a sequence encoded one by one from index `i` up: the other form R90 gives pack. -/
def setAll (t : Width) (m : Mem) (i : Nat) : List Word → Mem
  | [] => m
  | v :: vs => setAll t (repSet t m i v) (i + 1) vs

/-- pack(t, V): a fresh buffer (R90). -/
def pack (t : Width) (vs : List Word) : Mem := Mem.ofBytes 0 (packBytes t vs)

end Sys2Proof.Machine
end

