-- ==== Sys2Proof/Machine/Reorganizer.lean ====
section
/-! DEFINITION. What the commands do to a container: building one (R100 to R103), the width-upgrade
buffer reorganizer (spec/44_upscale.md), the two writes (R111 to R113), and FROM built as its beats
arrive (R105). -/

namespace Sys2Proof.Machine

/-- The logical contents L (R30). -/
def Container.logical (c : Container) : List Word := repIter c.tag c.buf c.len.toNat

/-- The element at an index, as GET reads it (R110). -/
def Container.get (i : Word) (c : Container) : Word := repGet c.tag c.buf i.toNat

/-- NEW: a zero-filled W4 container (R101). The byte view of its units is all 0x00, so no byte of it
is listed. -/
def Container.zeros (n : Word) : Container := { tag := .w4, mask := Width.maskOf .w4, len := n, buf := [] }

/-- A container of `n` elements holding the sequence `vs` packed at width `t` (R90). -/
def Container.packed (t : Width) (n : Word) (vs : List Word) : Container :=
  { tag := t, mask := t.maskOf, len := n, buf := pack t vs }

/-- FILLED: `n` copies of `v` at the narrowest width for `v` (R102). -/
def Container.filled (n v : Word) : Container :=
  Container.packed (minWidth v) n (List.replicate n.toNat v)

/-- The maximum of a sequence, 0 when it is empty. -/
def maxWord : List Word → Word
  | [] => 0
  | v :: vs => if v ≤ maxWord vs then maxWord vs else v

/-- The width FROM chooses: W4 for an empty sequence, else the narrowest that covers the maximum (R103). -/
def seqWidth : List Word → Width
  | [] => .w4
  | v :: vs => minWidth (maxWord (v :: vs))

/-- FROM: the container of a whole sequence (R103). -/
def Container.ofSeq (vs : List Word) : Container :=
  Container.packed (seqWidth vs) (BitVec.ofNat 32 vs.length) vs

/-- UPSCALE(t'): decode every element at the old width, pack all of them at the new one (R133). LEN
is not written (R130). -/
def Container.upscale (t : Width) (c : Container) : Container :=
  { c with tag := t, mask := t.maskOf, buf := pack t c.logical }

/-- The upscale-first policy of both writes: upscale when `v` exceeds MASK (R113, R131, R132). -/
def Container.fit (v : Word) (c : Container) : Container :=
  if needsUpscale c.mask v then c.upscale (upWidth v) else c

/-- SET on a container: upscale if needed, then REP_SET on the possibly new representation (R111). -/
def Container.set (i v : Word) (c : Container) : Container :=
  { c.fit v with buf := repSet (c.fit v).tag (c.fit v).buf i.toNat v }

/-- SETR on a container: upscale if needed, also for an empty range, then REP_FILL (R112). -/
def Container.setr (a b v : Word) (c : Container) : Container :=
  { c.fit v with buf := repFill (c.fit v).tag (c.fit v).buf a.toNat b.toNat v }

/-- One beat into the shadow buffer of an incremental FROM: upscale the shadow when the beat exceeds
its mask, then add the beat as its next element (R105). -/
def Container.push (v : Word) (c : Container) : Container :=
  { c.fit v with
    len := (c.fit v).len + 1
    buf := repSet (c.fit v).tag (c.fit v).buf (c.fit v).len.toNat v }

/-- The shadow buffer of an incremental FROM after the beats `vs`, from a container `c` (R105). -/
def Container.pushAll (c : Container) : List Word → Container
  | [] => c
  | v :: vs => Container.pushAll (c.push v) vs

end Sys2Proof.Machine
end

