-- ==== Sys2Proof/Machine/Access.lean ====
section
/-! DEFINITION. The access commands GET, SET and SETR (spec/42_access.md). The bounds check comes
before the upscale, and upscale and write share one commit (R113, R135). -/

namespace Sys2Proof.Machine

/-- GET (R110). -/
def execGet (i : Word) (s : State) : Host.Outcome State Fault Refusal :=
  .next (s.checked (badIndex s.box.len i) .index (s.respond .ok (s.box.get i)))

/-- SET (R111). -/
def execSet (i v : Word) (s : State) : Host.Outcome State Fault Refusal :=
  .next (s.checked (badIndex s.box.len i) .index ((s.commit (s.box.set i v)).respond .ok 0))

/-- SETR (R112). -/
def execSetr (a b v : Word) (s : State) : Host.Outcome State Fault Refusal :=
  .next (s.checked (badRange s.box.len a b) .range ((s.commit (s.box.setr a b v)).respond .ok 0))

end Sys2Proof.Machine
end

