-- ==== Sys2Proof/Machine/Construct.lean ====
section
/-! DEFINITION. The constructor commands NEW, FILLED and FROM (spec/41_construct.md). Each takes the
parameter LMAX as an argument (R9) and is applied to `Config.lmax` in its meaning. -/

namespace Sys2Proof.Machine

/-- NEW (R101) at capacity `lmax`. -/
def newAt (lmax n : Word) (s : State) : State :=
  s.checked (overCapacity lmax n) .capacity ((s.commit (Container.zeros n)).respond .ok 0)

/-- FILLED (R102) at capacity `lmax`. -/
def filledAt (lmax n v : Word) (s : State) : State :=
  s.checked (overCapacity lmax n) .capacity ((s.commit (Container.filled n v)).respond .ok 0)

/-- The start of FROM (R104): NREQ <- n, CNT <- 0, ACC <- []. -/
def State.startFrom (n : Word) (s : State) : State := { s with nreq := n, cnt := 0, acc := [] }

/-- FROM (R103, R104) at capacity `lmax`: the empty sequence commits at once, otherwise the block
goes to LOAD and takes its beats there. -/
def fromAt (lmax n : Word) (s : State) : State :=
  s.checked (overCapacity lmax n) .capacity
    (if n = 0 then ((s.startFrom n).commit (Container.ofSeq [])).respond .ok 0
     else { s.startFrom n with phase := .load })

/-- NEW. -/
def execNew (n : Word) (s : State) : Host.Outcome State Fault Refusal := .next (newAt Config.lmax n s)

/-- FILLED. -/
def execFilled (n v : Word) (s : State) : Host.Outcome State Fault Refusal :=
  .next (filledAt Config.lmax n v s)

/-- FROM. -/
def execFrom (n : Word) (s : State) : Host.Outcome State Fault Refusal := .next (fromAt Config.lmax n s)

end Sys2Proof.Machine
end

