-- ==== Sys2Proof/Machine/Reserved.lean ====
section
/-! DEFINITION. The reserved opcodes 0x0 and 0xA to 0xF: each raises ERR_ILLEGAL (R66, R150), unless
the block is already halted (R155). -/

namespace Sys2Proof.Machine

/-- What a reserved opcode does (R150, R155 steps 1 and 2). -/
def State.reservedOp (s : State) : State := s.unlessHalted (s.raise .illegal)

/-- Opcode 0x0 (R66, R150). -/
def execReserved0 (s : State) : Host.Outcome State Fault Refusal := .next s.reservedOp

/-- Opcode 0xA (R66, R150). -/
def execReservedA (s : State) : Host.Outcome State Fault Refusal := .next s.reservedOp

/-- Opcode 0xB (R66, R150). -/
def execReservedB (s : State) : Host.Outcome State Fault Refusal := .next s.reservedOp

/-- Opcode 0xC (R66, R150). -/
def execReservedC (s : State) : Host.Outcome State Fault Refusal := .next s.reservedOp

/-- Opcode 0xD (R66, R150). -/
def execReservedD (s : State) : Host.Outcome State Fault Refusal := .next s.reservedOp

/-- Opcode 0xE (R66, R150). -/
def execReservedE (s : State) : Host.Outcome State Fault Refusal := .next s.reservedOp

/-- Opcode 0xF (R66, R150). -/
def execReservedF (s : State) : Host.Outcome State Fault Refusal := .next s.reservedOp

end Sys2Proof.Machine
end

