-- ==== Sys2Proof/Machine/Traverse.lean ====
section
/-! DEFINITION. The traversal command ITER and the introspection commands MASK and LEN
(spec/43_traverse_introspect.md). None of them has a check of its own (R155). -/

namespace Sys2Proof.Machine

/-- The start of ITER (R121): CNT <- 0, then no beat at all from an empty container, otherwise the
block goes to STREAM. -/
def State.startIter (s : State) : State :=
  if s.box.len = 0 then State.respond .ok 0 { s with cnt := 0 }
  else { s with cnt := 0, phase := .stream }

/-- ITER (R120, R121). -/
def execIter (s : State) : Host.Outcome State Fault Refusal := .next (s.unlessHalted s.startIter)

/-- MASK (R122). -/
def execMask (s : State) : Host.Outcome State Fault Refusal :=
  .next (s.unlessHalted (s.respond .ok s.box.mask))

/-- LEN (R123). -/
def execLen (s : State) : Host.Outcome State Fault Refusal :=
  .next (s.unlessHalted (s.respond .ok s.box.len))

end Sys2Proof.Machine
end

