-- ==== Sys2Proof/Machine/Dispatch.lean ====
section
/-! DEFINITION. One arm per instruction: the work of one accepted command (R70, R155). -/

namespace Sys2Proof.Machine

def exec (i : Instr) (s : State) : Host.Outcome State Fault Refusal :=
  match i with
  | .new n => Sys2Proof.Machine.execNew n s
  | .filled n v => Sys2Proof.Machine.execFilled n v s
  | .fromBeats n => Sys2Proof.Machine.execFrom n s
  | .get k => Sys2Proof.Machine.execGet k s
  | .set k v => Sys2Proof.Machine.execSet k v s
  | .setr a b v => Sys2Proof.Machine.execSetr a b v s
  | .iter => Sys2Proof.Machine.execIter s
  | .mask => Sys2Proof.Machine.execMask s
  | .len => Sys2Proof.Machine.execLen s
  | .reserved0 => Sys2Proof.Machine.execReserved0 s
  | .reservedA => Sys2Proof.Machine.execReservedA s
  | .reservedB => Sys2Proof.Machine.execReservedB s
  | .reservedC => Sys2Proof.Machine.execReservedC s
  | .reservedD => Sys2Proof.Machine.execReservedD s
  | .reservedE => Sys2Proof.Machine.execReservedE s
  | .reservedF => Sys2Proof.Machine.execReservedF s

end Sys2Proof.Machine
end

