-- ==== Sys2Proof/Machine/Cycle.lean ====
section
/-! DEFINITION. One clock cycle of the block: its output pins (R28, R60, R61), the handshakes (R61),
the phase machine (R23) and the beats of FROM and ITER (R104, R121). -/

namespace Sys2Proof.Machine

/-- The block's output pins in one clock cycle (R28, R60). A payload is absent when its `valid` is 0
(log 14). -/
structure PortOut where
  cmdReady : Bool
  dinReady : Bool
  dout : Option DoutBeat
  rsp : Option RspWord
  stTag : BitVec 2
  stMask : Word
  stLen : Word
  stFault : Bool
  stCause : BitVec 4
  stBusy : Bool
  deriving DecidableEq, Repr

/-- The output beat of element CNT: `{dout_last, dout_data}` (R68, R121). -/
def State.beat (s : State) : DoutBeat :=
  (if s.cnt = s.box.len - 1 then 1#1 else 0#1) ++ s.box.get s.cnt

/-- The output pins: `ready` and `valid` from PHASE alone (R61), all of them 0 while `rst = 1` (R165),
and the status pins straight from their registers (R28). -/
def State.outputs (s : State) (rst : Bool) : PortOut where
  cmdReady := !rst && decide (s.phase = .idle)
  dinReady := !rst && decide (s.phase = .load)
  dout := if rst = false ∧ s.phase = .stream then some s.beat else none
  rsp := if rst = false ∧ s.phase = .resp then some s.rsp else none
  stTag := s.box.tag.code
  stMask := s.box.mask
  stLen := s.box.len
  stFault := s.fault
  stCause := s.cause
  stBusy := s.busy

/-- A host that has offered `held` and not been served keeps offering exactly it (R61, R171). -/
def keepsOffer {n : Nat} (held : Option (BitVec n)) (valid : Bool) (payload : BitVec n) : Bool :=
  match held with
  | none => true
  | some w => valid && decide (payload = w)

/-- The host keeps both of its offers in this cycle (R61, R171). -/
def State.hostKeepsOffers (s : State) (p : PortIn) : Bool :=
  keepsOffer s.env.heldCmd p.cmdValid p.cmdWord && keepsOffer s.env.heldDin p.dinValid p.dinData

/-- An offer that `ready` did not meet is still held after the cycle (R61). -/
def stillHeld {n : Nat} (ready valid : Bool) (payload : BitVec n) : Option (BitVec n) :=
  if valid && !ready then some payload else none

/-- The host's offers after a cycle with inputs `p` (R61). -/
def State.noteOffers (p : PortIn) (s : State) : State :=
  { s with env := { s.env with
      heldCmd := stillHeld (s.outputs p.rst).cmdReady p.cmdValid p.cmdWord
      heldDin := stillHeld (s.outputs p.rst).dinReady p.dinValid p.dinData } }

/-- CMD transfer: the word is taken and EXEC begins, for a free number of cycles (R23, R61, R180;
log 3, 4). -/
def State.accept (w : CmdWord) (s : State) : State :=
  { s with
    phase := .exec, cmd := w, done := none
    wait := Config.cyclesBefore s.tick, rest := Config.cyclesAfter s.tick, tick := s.tick + 1
    env := { s.env with gaveCmd := s.env.gaveCmd ++ [w] } }

/-- What follows the work of a command: the phase it goes to, at once or after the `rest` cycles the
block stays in EXEC (R23, R180; log 3). -/
def State.settle (s : State) : State :=
  if s.rest = 0 then s
  else { s with phase := .exec, done := some s.phase, rest := s.rest - 1 }

/-- `settle` on the state a command's work answers. -/
def settleOutcome : Host.Outcome State Fault Refusal → Host.Outcome State Fault Refusal
  | .next s => .next s.settle
  | .fault r => .fault r
  | .refused r => .refused r

/-- One cycle of EXEC (R23): wait, do the work of the accepted command, or leave for the next phase. -/
def State.execCycle (s : State) : Host.Outcome State Fault Refusal :=
  match s.done with
  | some ph =>
    if s.rest = 0 then .next { s with phase := ph, done := none } else .next { s with rest := s.rest - 1 }
  | none =>
    if s.wait = 0 then settleOutcome (exec (decode s.cmd) s) else .next { s with wait := s.wait - 1 }

/-- A DIN beat joins ACC (R24, R25). -/
def State.addBeat (d : Word) (s : State) : State :=
  { s with
    acc := s.acc ++ [d], cnt := s.cnt + 1
    env := { s.env with gaveDin := s.env.gaveDin ++ [d] } }

/-- DIN transfer (R104): the beat joins ACC; the last one commits the container and answers OK. The
container is that of ACC itself, which holds NREQ beats then (log 17). -/
def State.takeBeat (d : Word) (s : State) : State :=
  if s.cnt + 1 = s.nreq then
    State.respond .ok 0 (State.commit (Container.ofSeq (s.acc ++ [d])) (s.addBeat d))
  else s.addBeat d

/-- DOUT transfer (R121): the host has the beat; after the last one the response follows. -/
def State.sendBeat (s : State) : State :=
  if s.cnt = s.box.len - 1 then
    State.respond .ok 0 { s with env := { s.env with gotDout := s.env.gotDout ++ [s.beat] } }
  else { s with cnt := s.cnt + 1, env := { s.env with gotDout := s.env.gotDout ++ [s.beat] } }

/-- RSP transfer (R23, R70): the host has the response and the block is IDLE. -/
def State.deliver (s : State) : State :=
  { s with phase := .idle, env := { s.env with gotRsp := s.env.gotRsp ++ [s.rsp] } }

/-- What the phase machine does in a cycle without reset (R23, R61). Where a transfer needs the host
and the host does not offer or take, the block waits (R172, R173). -/
def State.advance (p : PortIn) (s : State) : Host.Outcome State Fault Refusal :=
  match s.phase with
  | .idle => .next (if p.cmdValid then s.accept p.cmdWord else s)
  | .exec => s.execCycle
  | .load => .next (if p.dinValid then s.takeBeat p.dinData else s)
  | .stream =>
    if s.cnt < s.box.len then .next (if p.doutReady then s.sendBeat else s)
    else .fault .elementOutsideBuffer
  | .resp => .next (if p.rspReady then s.deliver else s)

/-- One clock cycle with inputs `p`: reset wins over everything (R165, R167; log 8), a host that
breaks the handshake has left the spec (R171, 93 U6; log 7), otherwise the phase machine moves. -/
def State.cycle (p : PortIn) (s : State) : Host.Outcome State Fault Refusal :=
  if p.rst then .next (s.hardReset.noteOffers p)
  else if s.hostKeepsOffers p then (s.noteOffers p).advance p
  else .refused .hostBrokeHandshake

/-- The inputs of a host with nothing more to do: it keeps the offers it has made and takes nothing
(R61; log 2). -/
def State.quietInput (s : State) : PortIn where
  rst := false
  cmdValid := s.env.heldCmd.isSome
  cmdWord := s.env.heldCmd.getD 0
  dinValid := s.env.heldDin.isSome
  dinData := s.env.heldDin.getD 0
  doutReady := false
  rspReady := false

/-- The state once the host's inputs for the coming cycle have been taken from its list. -/
def State.dropInput (s : State) : State := { s with env := { s.env with input := s.env.input.tail } }

/-- The inputs of the coming cycle. -/
def State.thisInput (s : State) : PortIn := s.env.input.head?.getD s.quietInput

/-- The block about to do the work of command word `w` in the very next cycle, the host quiet (log 13). -/
def State.holding (w : CmdWord) (s : State) : State :=
  { s with
    phase := .exec, cmd := w, wait := 0, rest := 0, done := none
    env := { s.env with input := [] } }

end Sys2Proof.Machine
end

