-- ==== Sys2Proof/Machine/Step.lean ====
section
/-! DEFINITION. One step is one clock cycle (log 2). -/

namespace Sys2Proof.Machine

/-- One clock cycle with the host's next inputs. -/
def step (s : State) : Host.Outcome State Fault Refusal := s.dropInput.cycle s.thisInput

/-- `s` with the instruction of bits `w` accepted and its work due in the very next step (log 13). -/
def State.withFetchWord (s : State) (_nbits w : Nat) : State := s.holding (BitVec.ofNat 100 w)

end Sys2Proof.Machine
end

