-- ==== Sys2Proof/Machine/Assembler.lean ====
section
/-! DEFINITION. The textual form of R72 and its one pseudo-instruction (R73): from a line of
characters to what the host presents on the CMD and DIN ports. -/

namespace Sys2Proof.Machine

/-- One thing the host presents: a command word on CMD or a beat on DIN. -/
inductive PortItem where
  | cmd (w : CmdWord)
  | din (v : Word)
  deriving DecidableEq, Repr

/-- A token of a line (R72). -/
inductive Token where
  | name (cs : List Char)
  | num (n : Nat)
  | comma
  | openList
  | closeList
  deriving DecidableEq, Repr

/-- The value of a decimal or hexadecimal digit. -/
def digitValue (base : Nat) (c : Char) : Option Nat :=
  let n := c.toNat
  let v := if 48 ≤ n ∧ n ≤ 57 then some (n - 48)
    else if 65 ≤ n ∧ n ≤ 70 then some (n - 55)
    else if 97 ≤ n ∧ n ≤ 102 then some (n - 87)
    else none
  v.filter (· < base)

/-- Digits in a base, after the value read so far. -/
def digits (base : Nat) : Nat → List Char → Option Nat
  | acc, [] => some acc
  | acc, c :: cs => (digitValue base c).bind fun d => digits base (acc * base + d) cs

/-- An unsigned number: decimal, or hexadecimal after `0x` (R72). -/
def number (cs : List Char) : Option Nat :=
  match cs with
  | [] => none
  | [c] => digits 10 0 [c]
  | c :: x :: ds =>
    if c = '0' ∧ x = 'x' then (if ds = [] then none else digits 16 0 ds) else digits 10 0 (c :: x :: ds)

/-- A word of a line is a mnemonic when it starts with a capital letter, else a number. -/
def wordToken (cs : List Char) : Option Token :=
  match cs with
  | [] => none
  | c :: r =>
    if 65 ≤ c.toNat ∧ c.toNat ≤ 90 then some (.name (c :: r)) else (number (c :: r)).map .num

/-- Close the word being read (its characters in reverse), in front of the tokens that follow. -/
def closeWord (cur : List Char) (rest : Option (List Token)) : Option (List Token) :=
  if cur = [] then rest else (wordToken cur.reverse).bind fun t => rest.map (t :: ·)

/-- The tokens of a line; `;` starts a comment (R72). `cur` is the word being read, reversed. -/
def tokens (cur : List Char) : List Char → Option (List Token)
  | [] => closeWord cur (some [])
  | c :: cs =>
    if c = ';' then closeWord cur (some [])
    else if c = ' ' ∨ c = '\t' then closeWord cur (tokens [] cs)
    else if c = ',' then closeWord cur ((tokens [] cs).map (.comma :: ·))
    else if c = '[' then closeWord cur ((tokens [] cs).map (.openList :: ·))
    else if c = ']' then closeWord cur ((tokens [] cs).map (.closeList :: ·))
    else tokens (c :: cur) cs

/-- Numbers separated by commas (R72). -/
def operands : List Token → Option (List Nat)
  | [] => some []
  | [.num n] => some [n]
  | .num n :: .comma :: t :: ts => (operands (t :: ts)).map (n :: ·)
  | _ => none

/-- The bracketed list of the pseudo-instruction `FROM [v0, ...]` (R73). -/
def listOperands : List Token → Option (List Nat)
  | .openList :: ts => if ts.getLast? = some .closeList then operands ts.dropLast else none
  | _ => none

/-- The line of a mnemonic and its operands (R72, R73). -/
def lineOf (nm : List Char) (ts : List Token) : Option AsmLine :=
  if nm = ['F', 'R', 'O', 'M'] ∧ ts.head? = some .openList then (listOperands ts).map .fromList
  else
    match operands ts with
    | some [] =>
      if nm = ['I', 'T', 'E', 'R'] then some .iter
      else if nm = ['M', 'A', 'S', 'K'] then some .mask
      else if nm = ['L', 'E', 'N'] then some .len
      else none
    | some [a] =>
      if nm = ['N', 'E', 'W'] then some (.new a)
      else if nm = ['F', 'R', 'O', 'M'] then some (.fromCount a)
      else if nm = ['D', 'I', 'N'] then some (.din a)
      else if nm = ['G', 'E', 'T'] then some (.get a)
      else none
    | some [a, b] =>
      if nm = ['F', 'I', 'L', 'L', 'E', 'D'] then some (.filled a b)
      else if nm = ['S', 'E', 'T'] then some (.set a b)
      else none
    | some [a, b, c] => if nm = ['S', 'E', 'T', 'R'] then some (.setr a b c) else none
    | _ => none

/-- What a line stands for, its operands cut to their fields (R72, R73). -/
def itemsOf : AsmLine → List PortItem
  | .new n => [.cmd (encode (.new (BitVec.ofNat 32 n)))]
  | .filled n v => [.cmd (encode (.filled (BitVec.ofNat 32 n) (BitVec.ofNat 32 v)))]
  | .fromCount n => [.cmd (encode (.fromBeats (BitVec.ofNat 32 n)))]
  | .fromList vs =>
    .cmd (encode (.fromBeats (BitVec.ofNat 32 vs.length))) :: vs.map fun v => .din (BitVec.ofNat 32 v)
  | .din v => [.din (BitVec.ofNat 32 v)]
  | .get i => [.cmd (encode (.get (BitVec.ofNat 32 i)))]
  | .set i v => [.cmd (encode (.set (BitVec.ofNat 32 i) (BitVec.ofNat 32 v)))]
  | .setr a b v =>
    [.cmd (encode (.setr (BitVec.ofNat 32 a) (BitVec.ofNat 32 b) (BitVec.ofNat 32 v)))]
  | .iter => [.cmd (encode .iter)]
  | .mask => [.cmd (encode .mask)]
  | .len => [.cmd (encode .len)]

/-- Assemble a line, refused when an operand does not fit its field (R63, R72). -/
def assemble (l : AsmLine) : Option (List PortItem) :=
  if l.wellFormed then some (itemsOf l) else none

/-- Assemble a line of text; a blank or comment line is nothing (R72; log 15). -/
def assembleText (cs : List Char) : Option (List PortItem) :=
  match tokens [] cs with
  | some [] => some []
  | some (.name nm :: ts) => (lineOf nm ts).bind assemble
  | _ => none

end Sys2Proof.Machine
end

