-- ==== Sys2Proof/Machine/Transaction.lean ====
section
/-! DEFINITION. The transaction level of R70: `exec : State x Command -> State x Response x
OutputBeats`, on whole commands with their input beats. The clock cycles of `step` refine it (92 D22). -/

namespace Sys2Proof.Machine

/-- A command with all of its input beats (R70). -/
inductive Command where
  | new (length : Word)
  | filled (length value : Word)
  | fromSeq (values : List Word)
  | get (index : Word)
  | set (index value : Word)
  | setr (start stop value : Word)
  | iter
  | mask
  | len
  | illegal (op : BitVec 4)
  deriving DecidableEq, Repr

/-- A response: status and data (R69). -/
structure Response where
  status : Status
  data : Word
  deriving DecidableEq, Repr

/-- What a whole command reads and writes: the container, FAULT and CAUSE (R70). -/
structure Snapshot where
  box : Container
  fault : Bool
  cause : BitVec 4
  deriving DecidableEq, Repr

/-- The registers of a state that a whole command reads and writes. -/
def State.snapshot (s : State) : Snapshot := { box := s.box, fault := s.fault, cause := s.cause }

/-- The response word of a response (R69). -/
def Response.word (r : Response) : RspWord := r.status.code ++ r.data

/-- A sequence fits the 32-bit count of FROM, and ILLEGAL carries a reserved opcode (R64, R66, R103). -/
def Command.wellFormed : Command → Bool
  | .new _ => true
  | .filled _ _ => true
  | .fromSeq vs => fitsWord vs.length
  | .get _ => true
  | .set _ _ => true
  | .setr _ _ _ => true
  | .iter => true
  | .mask => true
  | .len => true
  | .illegal op => decide (op = 0 ∨ 9 < op)

/-- The command word of a command (R62, R64; FROM carries the number of its beats, R103). -/
def Command.word : Command → CmdWord
  | .new n => encode (.new n)
  | .filled n v => encode (.filled n v)
  | .fromSeq vs => encode (.fromBeats (BitVec.ofNat 32 vs.length))
  | .get i => encode (.get i)
  | .set i v => encode (.set i v)
  | .setr a b v => encode (.setr a b v)
  | .iter => encode .iter
  | .mask => encode .mask
  | .len => encode .len
  | .illegal op => assembleFields op 0 0 0

/-- Steps 2 and 3 of R155: the fault a command raises, if any. -/
def Command.check (lmax : Word) (c : Command) (b : Container) : Option Cause :=
  match c with
  | .new n => if lmax < n then some .capacity else none
  | .filled n _ => if lmax < n then some .capacity else none
  | .fromSeq vs => if lmax.toNat < vs.length then some .capacity else none
  | .get i => if b.len ≤ i then some .index else none
  | .set i _ => if b.len ≤ i then some .index else none
  | .setr s e _ => if e < s ∨ b.len < e then some .range else none
  | .iter => none
  | .mask => none
  | .len => none
  | .illegal _ => some .illegal

/-- Step 4 of R155: the container a command commits (R101 to R103, R111, R112). -/
def Command.container (c : Command) (b : Container) : Container :=
  match c with
  | .new n => Container.zeros n
  | .filled n v => Container.filled n v
  | .fromSeq vs => Container.ofSeq vs
  | .get _ => b
  | .set i v => b.set i v
  | .setr s e v => b.setr s e v
  | .iter => b
  | .mask => b
  | .len => b
  | .illegal _ => b

/-- The data of a command's OK response (R69, R110, R122, R123). -/
def Command.data (c : Command) (b : Container) : Word :=
  match c with
  | .new _ => 0
  | .filled _ _ => 0
  | .fromSeq _ => 0
  | .get i => b.get i
  | .set _ _ => 0
  | .setr _ _ _ => 0
  | .iter => 0
  | .mask => b.mask
  | .len => b.len
  | .illegal _ => 0

/-- The values a command emits (R120). -/
def Command.output (c : Command) (b : Container) : List Word :=
  match c with
  | .new _ => []
  | .filled _ _ => []
  | .fromSeq _ => []
  | .get _ => []
  | .set _ _ => []
  | .setr _ _ _ => []
  | .iter => b.logical
  | .mask => []
  | .len => []
  | .illegal _ => []

/-- The transaction-level `exec` of R70, by the order of R155, at capacity `lmax` (R9). -/
def transact (lmax : Word) (c : Command) (k : Snapshot) : Snapshot × Response × List Word :=
  if k.fault then (k, ⟨.halted, 0⟩, [])
  else
    match c.check lmax k.box with
    | some e => ({ k with fault := true, cause := e.code }, ⟨.err e, 0⟩, [])
    | none => ({ k with box := c.container k.box }, ⟨.ok, c.data k.box⟩, c.output k.box)

/-- The output beats that carry a sequence of values, `dout_last` on the last one (R68). -/
def markLast : List Word → List DoutBeat
  | [] => []
  | [v] => [1#1 ++ v]
  | v :: w :: vs => (0#1 ++ v) :: markLast (w :: vs)

/-- The input beats that belong to a command (R71). -/
def Command.beats : Command → List Word
  | .new _ => []
  | .filled _ _ => []
  | .fromSeq vs => vs
  | .get _ => []
  | .set _ _ => []
  | .setr _ _ _ => []
  | .iter => []
  | .mask => []
  | .len => []
  | .illegal _ => []

/-- What passes the ports in a list of commands, and what they leave (R70, R178). -/
structure Transcript where
  /-- The container, FAULT and CAUSE at the end. -/
  final : Snapshot
  /-- The input beats taken: those of every command answered OK (R70). -/
  taken : List Word
  /-- The output beats sent (R68). -/
  sent : List DoutBeat
  /-- The response words, one a command (R69). -/
  answers : List RspWord
  deriving DecidableEq, Repr

/-- A list of commands applied in order by the `exec` of R70: a run (R178). -/
def transcript (lmax : Word) (k : Snapshot) : List Command → Transcript
  | [] => { final := k, taken := [], sent := [], answers := [] }
  | c :: cs =>
    let r := transact lmax c k
    let rest := transcript lmax r.1 cs
    { final := rest.final
      taken := (if r.2.1.status = .ok then c.beats else []) ++ rest.taken
      sent := markLast r.2.2 ++ rest.sent
      answers := r.2.1.word :: rest.answers }

/-- How many of a list of commands change the width: the upscales they cause, when none of them is a
constructor (R137). -/
def widthChanges (lmax : Word) (k : Snapshot) : List Command → Nat
  | [] => 0
  | c :: cs =>
    (if (transact lmax c k).1.box.tag = k.box.tag then 0 else 1) + widthChanges lmax (transact lmax c k).1 cs

/-- The container, FAULT and CAUSE after a list of commands (R70, R178). -/
def transactAll (lmax : Word) (k : Snapshot) (cs : List Command) : Snapshot := (transcript lmax k cs).final

/-- The command starts a new container's life (R100). -/
def Command.isConstructor : Command → Bool
  | .new _ => true
  | .filled _ _ => true
  | .fromSeq _ => true
  | .get _ => false
  | .set _ _ => false
  | .setr _ _ _ => false
  | .iter => false
  | .mask => false
  | .len => false
  | .illegal _ => false

end Sys2Proof.Machine
end

