-- ==== Sys2Proof/Safety.lean ====
section
/-! DEFINITION. What a good state is (the invariants of spec/10_state.md section 9 and the bounds of
its other rules) and how a run ends (R178). -/

namespace Sys2Proof.Machine

/-- The high nibble of the last unit of a W4 buffer of odd length is 0 (R35, R44). -/
def Container.padZero (c : Container) : Prop :=
  c.tag = .w4 → c.len.toNat % 2 = 1 → Mem.read c.buf (c.len.toNat / 2) >>> 4 = 0

/-- The invariants of a container. -/
structure Container.Good (c : Container) : Prop where
  /-- The cells are in canonical form (log 6). -/
  canonical : Mem.wf c.buf = true
  /-- SIZE: no byte outside the units of the live buffer (R27, R34). -/
  sized : Mem.within (c.tag.nBytes c.len.toNat) c.buf = true
  /-- MASK-TAG (R31). -/
  masked : c.mask = c.tag.maskOf
  /-- PAD-ZERO (R35). -/
  padded : c.padZero

/-- The phase the block is in, or will be in once it leaves EXEC after its work. -/
def State.nextPhase (s : State) : Phase := s.done.getD s.phase

/-- A response word the block may present: one of the six statuses, data 0 unless OK (R69, 93 U9). -/
def LegalResponse (r : RspWord) : Prop :=
  ∃ (st : Status) (d : Word), r = st.code ++ d ∧ (st ≠ .ok → d = 0)

/-- The invariants of a state. -/
structure State.Good (s : State) : Prop where
  /-- The container is good (R31, R34, R35). -/
  box : s.box.Good
  /-- LEN is at most LMAX (R21). -/
  capped : s.box.len ≤ Config.lmax
  /-- CAUSE is 0 exactly while FAULT is 0, and otherwise one of the four codes (R22, R146). -/
  cause : if s.fault then ∃ c : Cause, s.cause = c.code else s.cause = 0
  /-- Work already done leaves the block in EXEC on its way to LOAD, STREAM or RESP (R23). -/
  leaving : ∀ p, s.done = some p → s.phase = .exec ∧ (p = .load ∨ p = .stream ∨ p = .resp)
  /-- In LOAD no fault is set, ACC holds CNT beats, and CNT < NREQ <= LMAX (R24, R25). -/
  loading : s.nextPhase = .load →
    s.fault = false ∧ s.cnt < s.nreq ∧ s.nreq ≤ Config.lmax ∧ s.acc.length = s.cnt.toNat
  /-- In STREAM no fault is set and CNT <= LEN - 1 (R24). -/
  streaming : s.nextPhase = .stream → s.fault = false ∧ s.cnt < s.box.len
  /-- In RESP the response is a legal one (R69). -/
  responding : s.nextPhase = .resp → LegalResponse s.rsp

/-- The block is about to answer `r`, with TAG, MASK, LEN, BUF, FAULT and CAUSE as in `k` (R69, R70).
CNT, NREQ, ACC are not read then, so nothing is said of them (R24, R25). -/
def State.answers (t : State) (k : Snapshot) (r : RspWord) : Prop :=
  t.snapshot = k ∧ t.rsp = r ∧ t.phase = .resp

/-- The host has a command that has not been taken: one it offers now, or one it will offer (R178). -/
def State.commandsLeft (s : State) : Bool := s.env.heldCmd.isSome || s.env.input.any (·.cmdValid)

/-- A run is over when no command is left to take and the block is IDLE, so that the response of the
last command has been taken (R178, R23). -/
def State.runOver (s : State) : Prop := s.phase = .idle ∧ s.commandsLeft = false

/-- A run has gone wrong when FAULT is 1 at its end (R178, R154). -/
def State.goneWrong (s : State) : Prop := s.runOver ∧ s.fault = true

/-- The state with the host's pins for the cycles to come. -/
def State.fed (ins : List PortIn) (s : State) : State := { s with env := { s.env with input := ins } }

/-- As many clock cycles as there are input cycles, from `s` with these inputs. -/
def State.runOn (ins : List PortIn) (s : State) : Host.Outcome State Fault Refusal :=
  Host.Core.run Sys2Proof.core ins.length (s.fed ins)

/-- The command the instruction is starts a new container's life (R100). -/
def isConstructor : Instr → Bool
  | .new _ => true
  | .filled _ _ => true
  | .fromBeats _ => true
  | .get _ => false
  | .set _ _ => false
  | .setr _ _ _ => false
  | .iter => false
  | .mask => false
  | .len => false
  | .reserved0 => false
  | .reservedA => false
  | .reservedB => false
  | .reservedC => false
  | .reservedD => false
  | .reservedE => false
  | .reservedF => false

end Sys2Proof.Machine
end

