-- ==== Sys2Proof/Certificates/Slice0/Obligations.lean ====
section
/-! DEFINITION. The statements about the block, for the provers. Each formalises the rules of spec/
its docstring names; where it rests on a choice of the model, the docstring names the log entry. -/

open Sys2Proof Sys2Proof.Machine

/-! ### Reset and the encoding -/

/-- R37: the reset state, register by register; it is the container NEW 0 and FROM of the empty
sequence commit, and no unit of storage belongs to it. -/
def Obligations.ResetLeavesTheStatedValues : Prop :=
  State.reset.box = { tag := .w4, mask := 15, len := 0, buf := [] } ∧
  State.reset.box.tag.nUnits State.reset.box.len.toNat = 0 ∧
  State.reset.fault = false ∧ State.reset.cause = 0 ∧ State.reset.phase = .idle ∧
  State.reset.cnt = 0 ∧ State.reset.nreq = 0 ∧ State.reset.acc = [] ∧ State.reset.rsp = 0 ∧
  (State.reset.outputs false).stBusy = false ∧ (State.reset.outputs false).stFault = false ∧
  Container.zeros 0 = State.reset.box ∧ Container.ofSeq [] = State.reset.box

/-- R31, R34, R35, R37: every invariant holds at reset. -/
def Obligations.ResetIsGood : Prop := State.reset.Good

/-- R62, R64, R65, R66: words written out from the spec's encoding decode to what they stand for. -/
def Obligations.WrittenWordsDecode : Prop :=
  decode 0x1000000640000000000000000 = .new 100 ∧
  decode 0x200000002000000000000012C = .filled 2 300 ∧
  decode 0x3000000040000000000000000 = .fromBeats 4 ∧
  decode 0x400000002FFFFFFFFFFFFFFFF = .get 2 ∧
  decode 0x500000032000000000000012C = .set 50 300 ∧
  decode 0x6000000010000001F00000007 = .setr 1 31 7 ∧
  decode 0x7000000000000000000000000 = .iter ∧
  decode 0x8DEADBEEF0123456789ABCDEF = .mask ∧
  decode 0x9000000000000000000000000 = .len ∧
  decode 0x0000000000000000000000000 = .reserved0 ∧
  decode 0xA000000000000000000000000 = .reservedA ∧
  decode 0xFFFFFFFFFFFFFFFFFFFFFFFFF = .reservedF

/-- R62 to R64: decoding an instruction's word gives the instruction back, at every operand value. -/
def Obligations.DecodeInvertsEncode : Prop := ∀ i : Instr, decode (encode i) = i

/-- R65: the opcode alone selects the command, and a field the command does not use has no effect; a
reserved opcode names none (R66). -/
def Obligations.UnusedFieldsAreIgnored : Prop :=
  (∀ a b v : Word,
    decode (assembleFields 0x1 a b v) = .new a ∧
    decode (assembleFields 0x2 a b v) = .filled a v ∧
    decode (assembleFields 0x3 a b v) = .fromBeats a ∧
    decode (assembleFields 0x4 a b v) = .get a ∧
    decode (assembleFields 0x5 a b v) = .set a v ∧
    decode (assembleFields 0x6 a b v) = .setr a b v ∧
    decode (assembleFields 0x7 a b v) = .iter ∧
    decode (assembleFields 0x8 a b v) = .mask ∧
    decode (assembleFields 0x9 a b v) = .len) ∧
  (∀ w : CmdWord, assembleFields (opField w) (aField w) (bField w) (vField w) = w) ∧
  (∀ w : CmdWord, (decode w).opcode = opField w)

/-- R72, R73: a line of assembler text whose operands fit assembles to the word of its command, operands
in their fields and unused fields 0, or to the beats it stands for; the text of a line gives that line,
its numbers decimal or `0x` hexadecimal, its comment dropped. That an operand that does not fit is
refused, and that runs of blanks count as one, are the choices of log 15. -/
def Obligations.AssemblerGivesWordsAndBeats : Prop :=
  (∀ a b v : Nat, a < 2 ^ 32 → b < 2 ^ 32 → v < 2 ^ 32 →
    assemble (.setr a b v) = some [.cmd (assembleFields 0x6 (BitVec.ofNat 32 a) (BitVec.ofNat 32 b) (BitVec.ofNat 32 v))] ∧
    assemble (.set a v) = some [.cmd (assembleFields 0x5 (BitVec.ofNat 32 a) 0 (BitVec.ofNat 32 v))] ∧
    assemble (.get a) = some [.cmd (assembleFields 0x4 (BitVec.ofNat 32 a) 0 0)] ∧
    assemble (.filled a v) = some [.cmd (assembleFields 0x2 (BitVec.ofNat 32 a) 0 (BitVec.ofNat 32 v))] ∧
    assemble (.new a) = some [.cmd (assembleFields 0x1 (BitVec.ofNat 32 a) 0 0)] ∧
    assemble (.fromCount a) = some [.cmd (assembleFields 0x3 (BitVec.ofNat 32 a) 0 0)] ∧
    assemble (.din v) = some [.din (BitVec.ofNat 32 v)] ∧
    assemble .iter = some [.cmd (assembleFields 0x7 0 0 0)] ∧
    assemble .mask = some [.cmd (assembleFields 0x8 0 0 0)] ∧
    assemble .len = some [.cmd (assembleFields 0x9 0 0 0)]) ∧
  (∀ vs : List Nat, vs.length < 2 ^ 32 → (∀ v ∈ vs, v < 2 ^ 32) →
    assemble (.fromList vs) =
      some (.cmd (assembleFields 0x3 (BitVec.ofNat 32 vs.length) 0 0) ::
        vs.map fun v => .din (BitVec.ofNat 32 v))) ∧
  (∀ big b v : Nat, 2 ^ 32 ≤ big → ∀ l ∈ [AsmLine.new big, .filled big v, .filled b big, .fromCount big,
      .din big, .get big, .set big v, .set b big, .setr big b v, .setr b big v, .setr b v big],
    assemble l = none) ∧
  (∀ vs : List Nat, 2 ^ 32 ≤ vs.length ∨ (∃ v ∈ vs, 2 ^ 32 ≤ v) → assemble (.fromList vs) = none) ∧
  (∀ n : Nat, number (Nat.toDigits 10 n) = some n ∧ number ('0' :: 'x' :: Nat.toDigits 16 n) = some n) ∧
  (∀ (as bs vs : List Char) (a b v : Nat), number as = some a → number bs = some b → number vs = some v →
    assembleText ("NEW ".toList ++ as) = assemble (.new a) ∧
    assembleText ("FILLED ".toList ++ as ++ ", ".toList ++ vs) = assemble (.filled a v) ∧
    assembleText ("FROM ".toList ++ as) = assemble (.fromCount a) ∧
    assembleText ("DIN ".toList ++ vs) = assemble (.din v) ∧
    assembleText ("GET ".toList ++ as) = assemble (.get a) ∧
    assembleText ("SET ".toList ++ as ++ ", ".toList ++ vs) = assemble (.set a v) ∧
    assembleText ("SETR ".toList ++ as ++ ", ".toList ++ bs ++ ", ".toList ++ vs) = assemble (.setr a b v) ∧
    assembleText "ITER".toList = assemble .iter ∧ assembleText "MASK".toList = assemble .mask ∧
    assembleText "LEN".toList = assemble .len) ∧
  (∀ (ts : List (List Char)) (vs : List Nat), ts.map number = vs.map some →
    assembleText ("FROM [".toList ++ (ts.intersperse ", ".toList).flatten ++ "]".toList) =
      assemble (.fromList vs)) ∧
  (∀ line rest : List Char, ';' ∉ line →
    assembleText (line ++ ';' :: rest) = assembleText line) ∧
  (∀ line rest : List Char,
    assembleText (line ++ ' ' :: ' ' :: rest) = assembleText (line ++ ' ' :: rest))

/-! ### Layouts and primitives -/

/-- R41: at W4 unit `u` holds element `2u` in its low nibble and element `2u + 1` in its high nibble. -/
def Obligations.NibbleLayout : Prop :=
  ∀ (m : Mem) (u : Nat),
    unitRead .w4 m u = (repGet .w4 m (2 * u)).toNat + 16 * (repGet .w4 m (2 * u + 1)).toNat ∧
    (∀ k, k < 4 → (repGet .w4 m (2 * u)).getLsbD k = (unitRead .w4 m u).testBit k) ∧
    (∀ k, k < 4 → (repGet .w4 m (2 * u + 1)).getLsbD k = (unitRead .w4 m u).testBit (4 + k))

/-- R42: at W8, W16 and W32 the buffer has one unit per element, unit `u` holds element `u` in all of
its bits, and an encode cuts the value to the unit. The premise of the last clause is the canonical
form of log 6, which every buffer of a run has. -/
def Obligations.OneElementPerUnit : Prop :=
  ∀ (t : Width) (m : Mem) (u : Nat), t ≠ .w4 →
    t.unitBits = t.bits ∧ t.nUnits u = u ∧ unitRead t m u = (repGet t m u).toNat ∧
    ∀ v : Word, Mem.wf m = true → unitRead t (repSet t m u v) u = v.toNat % 2 ^ t.unitBits

/-- R46: byte `u * unitBytes + k` of the byte view holds bits [8k+7 : 8k] of unit `u`. -/
def Obligations.ByteViewIsLittleEndian : Prop :=
  ∀ (t : Width) (m : Mem) (u k : Nat), k < t.unitBytes →
    Mem.read m (u * t.unitBytes + k) = BitVec.ofNat 8 (unitRead t m u / 2 ^ (8 * k))

/-- R45, R47: the unit, lane, shift and byte offset of an index, and that an index below the length has
its unit among the units of the buffer, and its bytes among the bytes, at a multiple of the unit's
size. -/
def Obligations.ElementsLieInTheBuffer : Prop :=
  (∀ i : Nat, unitOf .w4 i = i / 2 ∧ laneOf .w4 i = i % 2 ∧ shiftOf .w4 i = 4 * (i % 2)) ∧
  (∀ (t : Width) (i : Nat), t ≠ .w4 → unitOf t i = i ∧ laneOf t i = 0 ∧ shiftOf t i = 0) ∧
  (∀ (t : Width) (i : Nat), byteOff t i = unitOf t i * t.unitBytes ∧ byteOff t i % t.unitBytes = 0) ∧
  (∀ (t : Width) (i n : Nat), i < n →
    unitOf t i < t.nUnits n ∧ byteOff t i + t.unitBytes ≤ t.nBytes n)

/-- R95: decode widens with zeros, encode cuts to the width (one element, a range, a whole sequence),
and for a value that fits decode after encode returns it exactly. An encode of one element changes no
other. The premises on `m` are the canonical form of log 6, which every buffer of a run has. -/
def Obligations.EncodeThenDecode : Prop :=
  (∀ (t : Width) (m : Mem) (i : Nat), repGet t m i ≤ t.maskOf) ∧
  (∀ (t : Width) (m : Mem) (i j : Nat) (v : Word), Mem.wf m = true →
    (repGet t (repSet t m i v) j).toNat = if i = j then v.toNat % 2 ^ t.bits else (repGet t m j).toNat) ∧
  (∀ (t : Width) (m : Mem) (a b k : Nat) (v : Word), Mem.wf m = true → a ≤ b →
    (repGet t (repFill t m a b v) k).toNat =
      if a ≤ k ∧ k < b then v.toNat % 2 ^ t.bits else (repGet t m k).toNat) ∧
  (∀ (t : Width) (vs : List Word) (k : Nat),
    (repGet t (pack t vs) k).toNat = (vs.getD k 0).toNat % 2 ^ t.bits) ∧
  (∀ (t : Width) (m : Mem) (i : Nat) (v : Word), Mem.wf m = true → v ≤ t.maskOf →
    repGet t (repSet t m i v) i = v)

/-- R88: the unit-level fill of R87 leaves the same buffer as the loop of R85; R86: so do the wide
fills. The premise on `m` is the canonical form of log 6. -/
def Obligations.UnitFillEqualsLoop : Prop :=
  ∀ (t : Width) (m : Mem) (start stop : Nat) (v : Word), Mem.wf m = true → start ≤ stop → v ≤ t.maskOf →
    repFill t m start stop v = repFillLoop t m start v (stop - start)

/-- R90: the units of a packed buffer, that iterating it gives the sequence back, that it is the buffer
of encoding the elements one by one into zero units, and that it has no byte beyond its units. -/
def Obligations.PackThenIterate : Prop :=
  (∀ (vs : List Word) (u : Nat), (∀ v ∈ vs, v ≤ Width.maskOf .w4) →
    unitRead .w4 (pack .w4 vs) u = (vs.getD (2 * u) 0).toNat + 16 * (vs.getD (2 * u + 1) 0).toNat) ∧
  (∀ (t : Width) (vs : List Word) (u : Nat), t ≠ .w4 →
    unitRead t (pack t vs) u = (vs.getD u 0).toNat % 2 ^ t.unitBits) ∧
  (∀ (t : Width) (vs : List Word), (∀ v ∈ vs, v ≤ t.maskOf) →
    repIter t (pack t vs) vs.length = vs ∧ pack t vs = setAll t [] 0 vs ∧
    Mem.within (t.nBytes vs.length) (pack t vs) = true)

/-- R92: the two mask tests are the same test, at every mask the block can have. -/
def Obligations.MaskTestsAgree : Prop :=
  ∀ (t : Width) (v : Word), needsUpscale t.maskOf v = needsUpscaleByAnd t.maskOf v

/-- R14: the constructors' width is the narrowest whose mask covers the value; the upscale's target is
the same width for any value above 15, and is never W4. -/
def Obligations.WidthSelectionIsNarrowest : Prop :=
  ∀ v : Word,
    v ≤ (minWidth v).maskOf ∧ (∀ t : Width, v ≤ t.maskOf → (minWidth v).bits ≤ t.bits) ∧
    v ≤ (upWidth v).maskOf ∧ upWidth v ≠ .w4 ∧ (15 < v → upWidth v = minWidth v) ∧
    (v ≤ 15 → minWidth v = .w4 ∧ upWidth v = .w8)

/-! ### Containers -/

/-- R33: no element exceeds MASK, in any container whose MASK is its width's. -/
def Obligations.ElementsFitTheMask : Prop :=
  ∀ c : Container, c.mask = c.tag.maskOf → (∀ i, c.get i ≤ c.mask) ∧ ∀ v ∈ c.logical, v ≤ c.mask

/-- R35, R90: in a good container BUF is a function of the width and the logical contents alone. -/
def Obligations.BufferIsPackOfContents : Prop := ∀ c : Container, c.Good → c.buf = pack c.tag c.logical

/-- R132: the target of an upscale is strictly wider than the live width, the six transitions are
selected as tabulated, and from W32 there is none. -/
def Obligations.UpscaleTargets : Prop :=
  ∀ (c : Container) (v : Word), c.mask = c.tag.maskOf → c.mask < v →
    c.tag.bits < (upWidth v).bits ∧ c.tag.code.toNat < (upWidth v).code.toNat ∧
    v ≤ (upWidth v).maskOf ∧ c.tag ≠ .w32 ∧
    (v ≤ 255 → c.tag = .w4 ∧ upWidth v = .w8) ∧
    (255 < v → v ≤ 65535 → (c.tag = .w4 ∨ c.tag = .w8) ∧ upWidth v = .w16) ∧
    (65535 < v → upWidth v = .w32)

/-- R138: when an upscale is triggered, the new value exceeds every stored one, so it is the maximum and
the width chosen from it alone covers all of them. -/
def Obligations.NewValueDecidesTheWidth : Prop :=
  ∀ (c : Container) (v : Word), c.mask = c.tag.maskOf → c.mask < v →
    (∀ w ∈ c.logical, w ≤ c.mask ∧ w < v ∧ w ≤ (upWidth v).maskOf) ∧ maxWord (v :: c.logical) = v

/-- R133: UPSCALE(t') builds unit `k` of the new buffer from element `k`, unit by unit; TAG and MASK are
those of t', LEN is kept, and the new buffer has exactly LEN units. -/
def Obligations.UpscaleRebuildsTheUnits : Prop :=
  ∀ (c : Container) (t : Width), c.tag.bits < t.bits →
    (c.upscale t).tag = t ∧ (c.upscale t).mask = t.maskOf ∧ (c.upscale t).len = c.len ∧
    (c.upscale t).buf = pack t (repIter c.tag c.buf c.len.toNat) ∧
    t.nUnits c.len.toNat = c.len.toNat ∧
    Mem.within (c.len.toNat * t.unitBytes) (c.upscale t).buf = true ∧
    (∀ k, k < c.len.toNat → unitRead t (c.upscale t).buf k = (repGet c.tag c.buf k).toNat) ∧
    (c.tag = .w4 → ∀ u,
      (2 * u < c.len.toNat → unitRead t (c.upscale t).buf (2 * u) = unitRead .w4 c.buf u % 16) ∧
      (2 * u + 1 < c.len.toNat → unitRead t (c.upscale t).buf (2 * u + 1) = unitRead .w4 c.buf u / 16)) ∧
    (c.tag ≠ .w4 → ∀ k, k < c.len.toNat → unitRead t (c.upscale t).buf k = unitRead c.tag c.buf k)

/-- R139: an upscale to a wider width preserves the logical contents: iterating and reading give
afterwards what they gave before. -/
def Obligations.UpscaleKeepsContents : Prop :=
  ∀ (c : Container) (t : Width), c.tag.bits < t.bits →
    (c.upscale t).logical = c.logical ∧
    repIter t (c.upscale t).buf c.len.toNat = c.logical ∧
    ∀ k : Word, k < c.len → (c.upscale t).get k = c.get k

/-- R136: the number of bytes before and after, and the bytes of the new buffer in the six transitions,
immediately after UPSCALE. `L j` is the element of index `j`, 0 beyond the length. -/
def Obligations.UpscaleBytePicture : Prop :=
  ∀ (c : Container) (j : Nat),
    let L := fun k => (c.logical.getD k 0).toNat
    let new := fun t => Mem.read (c.upscale t).buf j
    let n := c.len.toNat
    (c.tag = .w4 → c.tag.nBytes n = (n + 1) / 2) ∧ (c.tag = .w8 → c.tag.nBytes n = n) ∧
    (c.tag = .w16 → c.tag.nBytes n = 2 * n) ∧
    (c.upscale .w8).tag.nBytes (c.upscale .w8).len.toNat = n ∧
    (c.upscale .w16).tag.nBytes (c.upscale .w16).len.toNat = 2 * n ∧
    (c.upscale .w32).tag.nBytes (c.upscale .w32).len.toNat = 4 * n ∧
    (c.tag = .w4 → new .w8 = BitVec.ofNat 8 (L j)) ∧
    (c.tag = .w4 → new .w16 = if j % 2 = 0 then BitVec.ofNat 8 (L (j / 2)) else 0) ∧
    (c.tag = .w4 → new .w32 = if j % 4 = 0 then BitVec.ofNat 8 (L (j / 4)) else 0) ∧
    (c.tag = .w8 → new .w16 = if j % 2 = 0 then BitVec.ofNat 8 (L (j / 2)) else 0) ∧
    (c.tag = .w8 → new .w32 = if j % 4 = 0 then BitVec.ofNat 8 (L (j / 4)) else 0) ∧
    (c.tag = .w16 → new .w32 =
      if j % 4 ≤ 1 then BitVec.ofNat 8 (L (j / 4) / 256 ^ (j % 4)) else 0)

/-- R103: FROM at the transaction level. The container's contents are the sequence, at the narrowest
width whose mask covers all of it, W4 for the empty sequence; a sequence longer than LMAX is a fault.
LMAX is an argument here (R9). -/
def Obligations.FromBuildsTheSequence : Prop :=
  (∀ (lmax : Word) (vs : List Word) (k : Snapshot), k.fault = false → vs.length ≤ lmax.toNat →
    transact lmax (.fromSeq vs) k = ({ k with box := Container.ofSeq vs }, ⟨.ok, 0⟩, [])) ∧
  (∀ (lmax : Word) (vs : List Word) (k : Snapshot), k.fault = false → lmax.toNat < vs.length →
    transact lmax (.fromSeq vs) k =
      ({ k with fault := true, cause := 0x4 }, ⟨.err .capacity, 0⟩, [])) ∧
  (∀ vs : List Word, vs.length < 2 ^ 32 →
    (Container.ofSeq vs).logical = vs ∧ (Container.ofSeq vs).len.toNat = vs.length ∧
    (Container.ofSeq vs).mask = (Container.ofSeq vs).tag.maskOf ∧
    (Container.ofSeq vs).buf = pack (Container.ofSeq vs).tag vs ∧
    (vs = [] → (Container.ofSeq vs).tag = .w4) ∧
    (vs ≠ [] → (Container.ofSeq vs).tag = minWidth (maxWord vs)) ∧
    (∀ t : Width, (∀ v ∈ vs, v ≤ t.maskOf) → (Container.ofSeq vs).tag.bits ≤ t.bits)) ∧
  (∀ a b v : Word, decode (assembleFields 0x3 a b v) = .fromBeats a)

/-- R105: building the shadow buffer beat by beat, upscaling it on the way, gives the same container
as packing the whole sequence. -/
def Obligations.IncrementalFromIsFrom : Prop :=
  ∀ vs : List Word, vs.length < 2 ^ 32 → (Container.zeros 0).pushAll vs = Container.ofSeq vs

/-! ### What each command does -/

/-- R101: NEW. The parameter LMAX is an argument here (R9); the instruction is this at `Config.lmax`. -/
def Obligations.NewBuildsZeros : Prop :=
  (∀ (lmax n : Word) (s : State), s.fault = false → n ≤ lmax →
    (newAt lmax n s).answers
      { s.snapshot with box := { tag := .w4, mask := 15, len := n, buf := [] } } 0) ∧
  (∀ (lmax n : Word) (s : State), s.fault = false → lmax < n →
    newAt lmax n s = { s with fault := true, cause := 0x4, rsp := 0x400000000, phase := .resp }) ∧
  (∀ (n : Word) (s : State), exec (.new n) s = .next (newAt Config.lmax n s)) ∧
  (∀ (n : Word) (s : State), s.fault = false → n ≤ Config.lmax → ∃ t, exec (.new n) s = .next t ∧
    t.answers { s.snapshot with box := { tag := .w4, mask := 15, len := n, buf := [] } } 0) ∧
  (∀ n : Word, Width.nUnits .w4 n.toNat = (n.toNat + 1) / 2 ∧ (∀ u, unitRead .w4 (Container.zeros n).buf u = 0) ∧
    Container.zeros n = { tag := .w4, mask := 15, len := n, buf := [] } ∧
    (Container.zeros n).logical = List.replicate n.toNat 0 ∧ Container.filled n 0 = Container.zeros n) ∧
  (∀ a b v : Word, decode (assembleFields 0x1 a b v) = .new a)

/-- R102: FILLED, its units written out. LMAX is an argument as in NEW. -/
def Obligations.FilledBuildsCopies : Prop :=
  (∀ (lmax n v : Word) (s : State), s.fault = false → n ≤ lmax →
    (filledAt lmax n v s).answers { s.snapshot with
      box := { tag := minWidth v, mask := (minWidth v).maskOf, len := n,
               buf := pack (minWidth v) (List.replicate n.toNat v) } } 0) ∧
  (∀ (lmax n v : Word) (s : State), s.fault = false → lmax < n →
    filledAt lmax n v s = { s with fault := true, cause := 0x4, rsp := 0x400000000, phase := .resp }) ∧
  (∀ (n v : Word) (s : State), exec (.filled n v) s = .next (filledAt Config.lmax n v s)) ∧
  (∀ (n v : Word) (s : State), s.fault = false → n ≤ Config.lmax → ∃ t, exec (.filled n v) s = .next t ∧
    t.answers { s.snapshot with box := Container.filled n v } 0) ∧
  (∀ n v : Word, (Container.filled n v).logical = List.replicate n.toNat v ∧
    (Container.filled n v).tag = minWidth v ∧ (Container.filled n v).mask = (minWidth v).maskOf ∧
    (Container.filled n v).len = n) ∧
  (∀ n v : Word, v ≤ 15 →
    (∀ u, u < n.toNat / 2 → unitRead .w4 (Container.filled n v).buf u = v.toNat + 16 * v.toNat) ∧
    (n.toNat % 2 = 1 → unitRead .w4 (Container.filled n v).buf (n.toNat / 2) = v.toNat)) ∧
  (∀ n v : Word, 15 < v → ∀ u, u < n.toNat →
    unitRead (minWidth v) (Container.filled n v).buf u = v.toNat) ∧
  (∀ a b v : Word, decode (assembleFields 0x2 a b v) = .filled a v)

/-- R104: FROM at beat level. The command's work sets NREQ, CNT and ACC and goes to LOAD, or commits
the empty container at once, or faults and takes no beat; in LOAD each cycle takes the beat offered,
and the last one commits. That the last beat, the commit and the answer share one clock cycle is the
model's reading (log 17). LMAX is an argument as in NEW. -/
def Obligations.FromTakesItsBeats : Prop :=
  (∀ (n : Word) (s : State), exec (.fromBeats n) s = .next (fromAt Config.lmax n s)) ∧
  (∀ (lmax n : Word) (s : State), s.fault = false → n ≠ 0 → n ≤ lmax →
    (fromAt lmax n s).snapshot = s.snapshot ∧ (fromAt lmax n s).phase = .load ∧
    (fromAt lmax n s).nreq = n ∧ (fromAt lmax n s).cnt = 0 ∧ (fromAt lmax n s).acc = []) ∧
  (∀ (n : Word) (s : State), s.fault = false → n ≤ Config.lmax → ∃ t, exec (.fromBeats n) s = .next t ∧
    (n = 0 → t.answers { s.snapshot with box := { tag := .w4, mask := 15, len := 0, buf := [] } } 0) ∧
    (n ≠ 0 → t.snapshot = s.snapshot ∧ t.phase = .load ∧ t.nreq = n ∧ t.cnt = 0 ∧ t.acc = [])) ∧
  (∀ (lmax n : Word) (s : State), s.fault = false → lmax < n →
    fromAt lmax n s = { s with fault := true, cause := 0x4, rsp := 0x400000000, phase := .resp }) ∧
  (∀ (s : State) (p : PortIn), s.phase = .load → p.dinValid = false → s.advance p = .next s) ∧
  (∀ (s : State) (p : PortIn), s.phase = .load → p.dinValid = true → s.cnt + 1 ≠ s.nreq → ∃ t,
    s.advance p = .next t ∧ t.snapshot = s.snapshot ∧ t.phase = .load ∧ t.nreq = s.nreq ∧
    t.cnt = s.cnt + 1 ∧ t.acc = s.acc ++ [p.dinData]) ∧
  (∀ (s : State) (p : PortIn), s.phase = .load → p.dinValid = true → s.cnt + 1 = s.nreq → ∃ t,
    s.advance p = .next t ∧
    t.answers { s.snapshot with box := Container.ofSeq (s.acc ++ [p.dinData]) } 0)

/-- R110: GET. -/
def Obligations.GetReturnsTheElement : Prop :=
  (∀ (i : Word) (s : State), s.fault = false → i < s.box.len → ∃ t, exec (.get i) s = .next t ∧
    t.answers s.snapshot (0#4 ++ repGet s.box.tag s.box.buf i.toNat)) ∧
  (∀ (i : Word) (s : State), s.fault = false → s.box.len ≤ i →
    exec (.get i) s = .next { s with fault := true, cause := 0x2, rsp := 0x200000000, phase := .resp }) ∧
  (∀ (i : Word) (s : State), s.box.mask = s.box.tag.maskOf →
    repGet s.box.tag s.box.buf i.toNat ≤ s.box.mask) ∧
  (∀ a b v : Word, decode (assembleFields 0x4 a b v) = .get a)

/-- R111: SET: the upscale when the value exceeds MASK, then the encode, in one commit. On a container
that meets the invariants (R31, R34, R35; log 6 for the canonical form) the element at the index is
the value, every other element is unchanged, and writing the value already there changes no unit; out
of range it faults and changes nothing else. -/
def Obligations.SetWritesOneElement : Prop :=
  (∀ (i v : Word) (s : State), s.fault = false → i < s.box.len → ∃ t, exec (.set i v) s = .next t ∧
    let c := if s.box.mask < v then s.box.upscale (upWidth v) else s.box
    t.answers { s.snapshot with box := { c with buf := repSet c.tag c.buf i.toNat v } } 0) ∧
  (∀ (i v : Word) (s : State), s.fault = false → s.box.Good → i < s.box.len →
    ∃ t, exec (.set i v) s = .next t ∧ t.answers { s.snapshot with box := t.box } 0 ∧
      t.box.len = s.box.len ∧ t.box.get i = v ∧ (∀ j, j ≠ i → t.box.get j = s.box.get j) ∧
      t.box.logical = s.box.logical.set i.toNat v ∧
      (v ≤ s.box.mask → t.box.tag = s.box.tag) ∧ (s.box.mask < v → t.box.tag = upWidth v) ∧
      t.box.mask = t.box.tag.maskOf ∧ (s.box.get i = v → t.box = s.box)) ∧
  (∀ (i v : Word) (s : State), s.fault = false → s.box.len ≤ i →
    exec (.set i v) s = .next { s with fault := true, cause := 0x2, rsp := 0x200000000, phase := .resp }) ∧
  (∀ a b v : Word, decode (assembleFields 0x5 a b v) = .set a v)

/-- R83, R84, R111: the frame of a SET that does not upscale, byte by byte: only the bytes of the unit
of its index can change, `unitBytes` bytes at the byte offset of R45. -/
def Obligations.SetStoresOneUnit : Prop :=
  ∀ (i v : Word) (s : State), s.fault = false → Mem.wf s.box.buf = true → i < s.box.len →
    v ≤ s.box.mask →
    ∃ t, exec (.set i v) s = .next t ∧
      t.answers { s.snapshot with box := { s.box with buf := t.box.buf } } 0 ∧
      ∀ a, a < byteOff s.box.tag i.toNat ∨ byteOff s.box.tag i.toNat + s.box.tag.unitBytes ≤ a →
        Mem.read t.box.buf a = Mem.read s.box.buf a

/-- R112: SETR: the upscale when the value exceeds MASK, also for an empty range, then the fill. On a
container that meets the invariants exactly the elements of [start, stop) become the value, and over
one element it is SET; out of range it faults and changes nothing else. -/
def Obligations.SetrWritesItsRange : Prop :=
  (∀ (a b v : Word) (s : State), s.fault = false → a ≤ b → b ≤ s.box.len →
    ∃ t, exec (.setr a b v) s = .next t ∧
    let c := if s.box.mask < v then s.box.upscale (upWidth v) else s.box
    t.answers { s.snapshot with box := { c with buf := repFill c.tag c.buf a.toNat b.toNat v } } 0) ∧
  (∀ (a b v : Word) (s : State), s.fault = false → s.box.Good → a ≤ b → b ≤ s.box.len →
    ∃ t, exec (.setr a b v) s = .next t ∧ t.answers { s.snapshot with box := t.box } 0 ∧
      t.box.len = s.box.len ∧
      (∀ k : Word, a ≤ k → k < b → t.box.get k = v) ∧
      (∀ k : Word, k < a ∨ b ≤ k → t.box.get k = s.box.get k) ∧
      (v ≤ s.box.mask → t.box.tag = s.box.tag) ∧ (s.box.mask < v → t.box.tag = upWidth v) ∧
      t.box.mask = t.box.tag.maskOf ∧ t.box.padZero ∧ (a < b → b = a + 1 → t.box = s.box.set a v)) ∧
  (∀ (a b v : Word) (s : State), s.fault = false → b < a ∨ s.box.len < b →
    exec (.setr a b v) s = .next { s with fault := true, cause := 0x3, rsp := 0x300000000, phase := .resp }) ∧
  (∀ a b v : Word, decode (assembleFields 0x6 a b v) = .setr a b v)

/-- R86, R87, R112: the frame of a SETR that does not upscale, byte by byte: an empty range changes no
byte, and otherwise only bytes from the unit of `start` to the unit of `stop - 1` can change. -/
def Obligations.SetrStoresItsUnits : Prop :=
  ∀ (a b v : Word) (s : State), s.fault = false → Mem.wf s.box.buf = true → a ≤ b → b ≤ s.box.len →
    v ≤ s.box.mask →
    ∃ t, exec (.setr a b v) s = .next t ∧
      t.answers { s.snapshot with box := { s.box with buf := t.box.buf } } 0 ∧
      (a = b → t.box.buf = s.box.buf) ∧
      (a < b → ∀ x, x < byteOff s.box.tag a.toNat ∨
          byteOff s.box.tag (b.toNat - 1) + s.box.tag.unitBytes ≤ x →
        Mem.read t.box.buf x = Mem.read s.box.buf x)

/-- R114: what a GET answers after a SET or a SETR, and that MASK is then the larger of what it was and
the mask of the value's narrowest width, on a container that meets the invariants. -/
def Obligations.WritesAreReadBack : Prop :=
  (∀ (i v : Word) (s : State), s.fault = false → s.box.Good → i < s.box.len →
    ∃ t, exec (.set i v) s = .next t ∧
      (∃ u, exec (.get i) t = .next u ∧ u.rsp = 0#4 ++ v) ∧
      (∀ j : Word, j ≠ i → j < s.box.len → ∃ u w, exec (.get j) t = .next u ∧ exec (.get j) s = .next w ∧
        u.rsp = w.rsp) ∧
      v ≤ t.box.mask ∧ t.box.len = s.box.len ∧
      t.box.mask = if s.box.mask < (minWidth v).maskOf then (minWidth v).maskOf else s.box.mask) ∧
  (∀ (a b v : Word) (s : State), s.fault = false → s.box.Good → a ≤ b → b ≤ s.box.len →
    ∃ t, exec (.setr a b v) s = .next t ∧
      (∀ k : Word, a ≤ k → k < b → ∃ u, exec (.get k) t = .next u ∧ u.rsp = 0#4 ++ v) ∧
      (∀ k : Word, k < a ∨ b ≤ k → k < s.box.len → ∃ u w, exec (.get k) t = .next u ∧
        exec (.get k) s = .next w ∧ u.rsp = w.rsp) ∧
      v ≤ t.box.mask ∧ t.box.len = s.box.len ∧
      t.box.mask = if s.box.mask < (minWidth v).maskOf then (minWidth v).maskOf else s.box.mask)

/-- R142: writing exactly 15 at W4, 255 at W8, 65535 at W16 or 4294967295 at W32, by SET or by SETR,
upscales nothing. -/
def Obligations.WritingTheMaskNeverUpscales : Prop :=
  ∀ (s : State) (v : Word), s.fault = false → s.box.mask = s.box.tag.maskOf →
    ((s.box.tag = .w4 ∧ v = 15) ∨ (s.box.tag = .w8 ∧ v = 255) ∨ (s.box.tag = .w16 ∧ v = 65535) ∨
      (s.box.tag = .w32 ∧ v = 4294967295)) →
    (∀ i : Word, i < s.box.len → ∃ t, exec (.set i v) s = .next t ∧ t.box.tag = s.box.tag ∧
      t.box.mask = s.box.mask ∧ t.box.buf = repSet s.box.tag s.box.buf i.toNat v) ∧
    (∀ a b : Word, a ≤ b → b ≤ s.box.len → ∃ t, exec (.setr a b v) s = .next t ∧
      t.box.tag = s.box.tag ∧ t.box.mask = s.box.mask ∧
      t.box.buf = repFill s.box.tag s.box.buf a.toNat b.toNat v)

/-- R121: ITER at beat level. The command's work sets CNT to 0 and goes to STREAM, or answers at once
for an empty container; in STREAM the beat of element CNT is presented, marked last at LEN - 1, and
each beat taken moves CNT on, or after the last one answers OK. -/
def Obligations.IterSendsBeatByBeat : Prop :=
  (∀ s : State, s.fault = false → s.box.len = 0 → ∃ t, exec .iter s = .next t ∧
    t.answers s.snapshot 0 ∧ t.cnt = 0) ∧
  (∀ s : State, s.fault = false → s.box.len ≠ 0 → ∃ t, exec .iter s = .next t ∧
    t.snapshot = s.snapshot ∧ t.cnt = 0 ∧ t.phase = .stream) ∧
  (∀ s : State, s.phase = .stream → (s.outputs false).cmdReady = false ∧ (s.outputs false).dout =
    some ((if s.cnt = s.box.len - 1 then 1#1 else 0#1) ++ repGet s.box.tag s.box.buf s.cnt.toNat)) ∧
  (∀ (s : State) (p : PortIn), s.phase = .stream → s.cnt < s.box.len → p.doutReady = false →
    s.advance p = .next s) ∧
  (∀ (s : State) (p : PortIn), s.phase = .stream → s.cnt < s.box.len → p.doutReady = true →
    s.cnt ≠ s.box.len - 1 → ∃ t, s.advance p = .next t ∧ t.snapshot = s.snapshot ∧ t.phase = .stream ∧
      t.cnt = s.cnt + 1 ∧ some t.env.gotDout = (s.outputs false).dout.map fun d => s.env.gotDout ++ [d]) ∧
  (∀ (s : State) (p : PortIn), s.phase = .stream → s.cnt < s.box.len → p.doutReady = true →
    s.cnt = s.box.len - 1 → ∃ t, s.advance p = .next t ∧ t.answers s.snapshot 0 ∧
      some t.env.gotDout = (s.outputs false).dout.map fun d => s.env.gotDout ++ [d]) ∧
  (∀ a b v : Word, decode (assembleFields 0x7 a b v) = .iter)

/-- R122: MASK answers the mask, which tells the width and is the largest value a SET can write
without an upscale. -/
def Obligations.MaskAnswersTheMask : Prop :=
  (∀ s : State, s.fault = false → ∃ t, exec .mask s = .next t ∧ t.answers s.snapshot (0#4 ++ s.box.mask)) ∧
  (∀ s : State, s.box.mask = s.box.tag.maskOf →
    (s.box.tag = .w4 ↔ s.box.mask = 15) ∧ (s.box.tag = .w8 ↔ s.box.mask = 255) ∧
    (s.box.tag = .w16 ↔ s.box.mask = 65535) ∧ (s.box.tag = .w32 ↔ s.box.mask = 4294967295)) ∧
  (∀ (i v : Word) (s t : State), s.fault = false → s.box.mask = s.box.tag.maskOf → i < s.box.len →
    exec (.set i v) s = .next t → (t.box.tag = s.box.tag ↔ v ≤ s.box.mask)) ∧
  (∀ a b v : Word, decode (assembleFields 0x8 a b v) = .mask)

/-- R123: LEN answers the length, which no SET, SETR or upscale changes. -/
def Obligations.LenAnswersTheLength : Prop :=
  (∀ s : State, s.fault = false → ∃ t, exec .len s = .next t ∧ t.answers s.snapshot (0#4 ++ s.box.len)) ∧
  (∀ (i a b v : Word) (s t : State), exec (.set i v) s = .next t ∨ exec (.setr a b v) s = .next t →
    t.box.len = s.box.len) ∧
  (∀ (c : Container) (t : Width), (c.upscale t).len = c.len) ∧
  (∀ a b v : Word, decode (assembleFields 0x9 a b v) = .len)

/-- R150: each of the seven reserved opcodes raises ERR_ILLEGAL, whatever its other fields. -/
def Obligations.ReservedOpcodesRaiseIllegal : Prop :=
  (∀ (i : Instr) (s : State), s.fault = false →
    i ∈ [Instr.reserved0, .reservedA, .reservedB, .reservedC, .reservedD, .reservedE, .reservedF] →
    exec i s = .next { s with fault := true, cause := 0x1, rsp := 0x100000000, phase := .resp }) ∧
  (∀ w : CmdWord, opField w = 0 ∨ 9 < opField w →
    decode w ∈ [Instr.reserved0, .reservedA, .reservedB, .reservedC, .reservedD, .reservedE, .reservedF])

/-! ### Faults -/

/-- R153: fault entry, on every state; after the response is taken the block is IDLE and halted. -/
def Obligations.FaultEntry : Prop :=
  (∀ (c : Cause) (s : State),
    s.raise c = { s with fault := true, cause := if s.fault then s.cause else c.code,
                         rsp := c.code ++ 0#32, phase := .resp }) ∧
  (∀ (c : Cause) (s : State) (p : PortIn), p.rspReady = true → ∃ t, (s.raise c).advance p = .next t ∧
    t.phase = .idle ∧ t.snapshot = (s.raise c).snapshot ∧ t.fault = true ∧
    t.env.gotRsp = s.env.gotRsp ++ [c.code ++ 0#32])

/-- R154, R157: while FAULT is 1 every command is answered ERR_HALTED and has no other effect; and from
a good state (R24) nothing but reset clears FAULT, changes CAUSE or touches the container of a halted
block, in any clock cycle, which transfers no beat either. -/
def Obligations.HaltedBlockStaysHalted : Prop :=
  (∀ (i : Instr) (s : State), s.fault = true →
    exec i s = .next { s with rsp := 0xF00000000, phase := .resp }) ∧
  (∀ s t : State, s.fault = true → s.Good → s.thisInput.rst = false → step s = .next t →
    t.snapshot = s.snapshot ∧ t.env.gotDout = s.env.gotDout ∧ t.acc = s.acc) ∧
  (∀ s t : State, s.fault = true → s.thisInput.rst = true → step s = .next t → t.fault = false)

/-- R156: a command that faults changes only FAULT, CAUSE, RSP and PHASE. -/
def Obligations.FaultsLeaveTheContainer : Prop :=
  ∀ (i : Instr) (s t : State), s.fault = false → exec i s = .next t → t.fault = true →
    t = { s with fault := true, cause := t.cause, rsp := t.rsp, phase := .resp } ∧
    (t.cause = 1 ∨ t.cause = 2 ∨ t.cause = 3 ∨ t.cause = 4) ∧ t.rsp = t.cause ++ 0#32

/-- R161: what is not a fault: a value above MASK or equal to it, an empty range, a length of 0, a
constructor on a live container, ITER of an empty container, nonzero bits in an unused field, and a
DIN beat offered outside LOAD, which waits. -/
def Obligations.WhatIsNotAFault : Prop :=
  (∀ (i v : Word) (s t : State), s.fault = false → i < s.box.len → exec (.set i v) s = .next t →
    t.fault = false ∧ t.cause = s.cause) ∧
  (∀ (a b v : Word) (s t : State), s.fault = false → a ≤ b → b ≤ s.box.len → exec (.setr a b v) s = .next t →
    t.fault = false ∧ t.cause = s.cause) ∧
  (∀ (v : Word) (i : Instr) (s t : State), s.fault = false → i ∈ [.new 0, .filled 0 v, .fromBeats 0, .iter] →
    exec i s = .next t → t.fault = false ∧ t.cause = s.cause) ∧
  (∀ (lmax n v : Word) (s : State), s.fault = false → n ≤ lmax →
    (newAt lmax n s).fault = false ∧ (newAt lmax n s).cause = s.cause ∧
    (filledAt lmax n v s).fault = false ∧ (filledAt lmax n v s).cause = s.cause ∧
    (fromAt lmax n s).fault = false ∧ (fromAt lmax n s).cause = s.cause) ∧
  (∀ (op : BitVec 4) (a b v : Word), (decode (assembleFields op a b v)).opcode = op) ∧
  (∀ (s : State) (d : Word) (p : PortIn), s.phase ≠ .load →
    s.advance { p with dinValid := true, dinData := d } = s.advance { p with dinValid := false } ∧
    (s.noteOffers { p with dinValid := true, dinData := d }).env.heldDin = some d)

/-! ### Invariants -/

/-- R24, R29, R31, R34, R35: every clock cycle that answers a next state keeps a good state good. -/
def Obligations.GoodStatesStayGood : Prop := ∀ s t : State, s.Good → step s = .next t → t.Good

/-- R24, R145, 93 U6: from a good state a clock cycle always answers a next state, but where the host
breaks the handshake, which the model refuses (log 7). The model's own fault (log 9) is never reached. -/
def Obligations.GoodStatesNeverStop : Prop :=
  ∀ s : State, s.Good →
    (∃ t, step s = .next t) ∨
    (step s = .refused .hostBrokeHandshake ∧ s.thisInput.rst = false ∧
      s.hostKeepsOffers s.thisInput = false)

/-- R29, R50: TAG, MASK, LEN and BUF change only by reset, by the work of a constructor, SET or SETR of
a block that is not halted, or at the last beat of a FROM. -/
def Obligations.ContainerChangesOnlyAtCommits : Prop :=
  ∀ s t : State, step s = .next t → t.box ≠ s.box →
    s.thisInput.rst = true ∨
    (s.phase = .exec ∧ s.done = none ∧ s.wait = 0 ∧ s.fault = false ∧
      (isConstructor (decode s.cmd) = true ∨ (∃ i v, decode s.cmd = .set i v) ∨
        ∃ a b v, decode s.cmd = .setr a b v)) ∨
    (s.phase = .load ∧ s.thisInput.dinValid = true ∧ s.cnt + 1 = s.nreq)

/-- R21, R32, R36: between constructor commits and resets LEN does not change and TAG never
decreases. -/
def Obligations.WidthNeverNarrows : Prop :=
  ∀ s t : State, s.Good → step s = .next t → s.thisInput.rst = false →
    (s.phase = .exec → isConstructor (decode s.cmd) = false) →
    (s.phase = .load → s.thisInput.dinValid = true → s.cnt + 1 ≠ s.nreq) →
    t.box.len = s.box.len ∧ s.box.tag.code.toNat ≤ t.box.tag.code.toNat

/-- R137: over any commands that are no constructors, one container undergoes at most three upscales,
counted as changes of TAG: each of them raises TAG, and TAG never falls. -/
def Obligations.AtMostThreeUpscales : Prop :=
  ∀ (lmax : Word) (k : Snapshot) (cs : List Command), k.box.Good →
    (∀ c ∈ cs, c.isConstructor = false) →
    widthChanges lmax k cs ≤ 3 ∧
    k.box.tag.code.toNat + widthChanges lmax k cs ≤ (transactAll lmax k cs).box.tag.code.toNat

/-- R53: GET, ITER, MASK and LEN write none of TAG, MASK, LEN, BUF, and a read that raises no fault
leaves every later read the result it would have had before: the same answer, or the same stream. -/
def Obligations.ReadsKeepTheContainer : Prop :=
  (∀ (k : Word) (i : Instr) (s t : State), i ∈ [.get k, .iter, .mask, .len] → exec i s = .next t →
    t.box = s.box) ∧
  (∀ (k l : Word) (i j : Instr) (s t u w : State), i ∈ [.get k, .iter, .mask, .len] →
    j ∈ [.get l, .iter, .mask, .len] → exec i s = .next t → t.fault = s.fault →
    exec j t = .next u → exec j s = .next w →
    u.snapshot = w.snapshot ∧ u.phase = w.phase ∧ (u.phase = .resp → u.rsp = w.rsp) ∧
    (u.phase = .stream → u.cnt = w.cnt ∧ (u.outputs false).dout = (w.outputs false).dout))

/-- The frame of a command's work around the registers R29 and R153 name: NREQ and ACC are written by
FROM alone, CNT by FROM and ITER alone (R24, R25), CMD, DIN, DOUT and RSP transfer nothing. That CNT,
NREQ and ACC keep their values where the spec leaves them open, and the model's own fields, are the
model's choice (log 3, 4, 5, 11). -/
def Obligations.WorkTouchesOnlyItsRegisters : Prop :=
  ∀ (i : Instr) (s t : State), exec i s = .next t →
    t.cmd = s.cmd ∧ t.wait = s.wait ∧ t.rest = s.rest ∧ t.done = s.done ∧ t.tick = s.tick ∧
    t.env = s.env ∧ (t.phase = .load ∨ t.phase = .stream ∨ t.phase = .resp) ∧
    ((∀ n, i ≠ .fromBeats n) → t.nreq = s.nreq ∧ t.acc = s.acc ∧ (i ≠ .iter → t.cnt = s.cnt))

/-! ### Clock cycles, handshake and reset -/

/-- R23, R70 (log 2, 3, 4): when the command register decodes to `i` and its work is due, the clock
cycle is the work of `i` on the state with the host's pins noted; where no further cycle of EXEC is
due, it is exactly that. -/
def Obligations.StepRunsTheDecodedInstruction : Prop :=
  ∀ (s : State) (i : Instr), s.phase = .exec → s.done = none → s.wait = 0 →
    s.thisInput.rst = false → s.hostKeepsOffers s.thisInput = true → decode s.cmd = i →
    step s = settleOutcome (exec i (s.dropInput.noteOffers s.thisInput)) ∧
    (s.rest = 0 → step s = exec i (s.dropInput.noteOffers s.thisInput))

/-- Log 13: after `withFetchWord` the very next clock cycle is the work of the word's instruction. -/
def Obligations.FetchWordRunsItsInstruction : Prop :=
  ∀ (s : State) (n w : Nat),
    step (s.withFetchWord n w) = exec (decode (BitVec.ofNat 100 w)) (s.holding (BitVec.ofNat 100 w))

/-- R23, R61, R70, R180: the moves of IDLE, EXEC and RESP. In IDLE a word offered is taken and EXEC
begins with it. In EXEC the cycles before and after the work only count down, the work is done in one
cycle, and then the block leaves for the phase the work chose. In RESP the response is handed over once
and the block is IDLE, or it waits. Every other register is kept. The register that holds the word and
the cycle counts are the model's own (log 3, 4), and so is the record of the transfers (log 11). -/
def Obligations.IdleExecAndRespMove : Prop :=
  (∀ (s : State) (p : PortIn), s.phase = .idle →
    (p.cmdValid = true → s.advance p = .next { s with
      phase := .exec, cmd := p.cmdWord, done := none, wait := Config.cyclesBefore s.tick
      rest := Config.cyclesAfter s.tick, tick := s.tick + 1
      env := { s.env with gaveCmd := s.env.gaveCmd ++ [p.cmdWord] } }) ∧
    (p.cmdValid = false → s.advance p = .next s)) ∧
  (∀ (s : State) (p : PortIn), s.phase = .exec →
    (s.done = none → s.wait ≠ 0 → s.advance p = .next { s with wait := s.wait - 1 }) ∧
    (s.done = none → s.wait = 0 → ∃ t, exec (decode s.cmd) s = .next t ∧
      s.advance p = .next (if s.rest = 0 then t
        else { t with phase := .exec, done := some t.phase, rest := s.rest - 1 })) ∧
    (∀ q, s.done = some q →
      s.advance p = .next (if s.rest = 0 then { s with phase := q, done := none }
        else { s with rest := s.rest - 1 }))) ∧
  (∀ (s : State) (p : PortIn), s.phase = .resp →
    (p.rspReady = true → s.advance p = .next { s with
      phase := .idle, env := { s.env with gotRsp := s.env.gotRsp ++ [s.rsp] } }) ∧
    (p.rspReady = false → s.advance p = .next s)) ∧
  (∀ s : State, s.thisInput.rst = false → s.hostKeepsOffers s.thisInput = true →
    step s = (s.dropInput.noteOffers s.thisInput).advance s.thisInput)

/-- R61, R165: outside reset each `ready` and `valid` is 1 in exactly its own phase, and the response
shown is RSP. In every clock cycle each port transfers exactly when its `valid` and `ready` are both 1,
and the payload of that cycle; while `rst = 1` nothing is transferred. The four records of transfers are
the model's (log 11). -/
def Obligations.HandshakeFollowsPhase : Prop :=
  (∀ s : State,
    ((s.outputs false).cmdReady = true ↔ s.phase = .idle) ∧
    ((s.outputs false).dinReady = true ↔ s.phase = .load) ∧
    ((s.outputs false).dout.isSome = true ↔ s.phase = .stream) ∧
    ((s.outputs false).rsp.isSome = true ↔ s.phase = .resp) ∧
    (s.phase = .resp → (s.outputs false).rsp = some s.rsp)) ∧
  (∀ s t : State, step s = .next t →
    let p := s.thisInput
    let o := s.outputs p.rst
    t.env.gaveCmd = s.env.gaveCmd ++ (if p.cmdValid = true ∧ o.cmdReady = true then [p.cmdWord] else []) ∧
    t.env.gaveDin = s.env.gaveDin ++ (if p.dinValid = true ∧ o.dinReady = true then [p.dinData] else []) ∧
    t.env.gotDout = s.env.gotDout ++ (if p.doutReady = true then o.dout.toList else []) ∧
    t.env.gotRsp = s.env.gotRsp ++ (if p.rspReady = true then o.rsp.toList else []))

/-- R28: the status pins are the registers, and MASK and LEN answer what two of them show. -/
def Obligations.StatusPinsShowTheRegisters : Prop :=
  ∀ (s : State) (rst : Bool),
    (s.outputs rst).stTag = s.box.tag.code ∧ (s.outputs rst).stMask = s.box.mask ∧
    (s.outputs rst).stLen = s.box.len ∧ (s.outputs rst).stFault = s.fault ∧
    (s.outputs rst).stCause = s.cause ∧ ((s.outputs rst).stBusy = true ↔ s.phase ≠ .idle) ∧
    (s.fault = false → ∃ t u, exec .mask s = .next t ∧ exec .len s = .next u ∧
      t.rsp = 0#4 ++ (s.outputs rst).stMask ∧ u.rsp = 0#4 ++ (s.outputs rst).stLen)

/-- R165, R166, R167 (log 3, 8): a clock edge with `rst = 1` takes every register of the block to its reset value
from any state whatever; no response and no beat is transferred in it, and while `rst = 1` the block
accepts nothing and offers nothing. The model's own `done` is cleared too (log 3), and the host need not
keep an offer in a reset cycle (log 8). -/
def Obligations.ResetWinsOverEverything : Prop :=
  (∀ s : State, s.thisInput.rst = true →
    ∃ t, step s = .next t ∧ t.box = { tag := .w4, mask := 15, len := 0, buf := [] } ∧ t.fault = false ∧
      t.cause = 0 ∧ t.phase = .idle ∧ t.cnt = 0 ∧ t.nreq = 0 ∧ t.acc = [] ∧ t.rsp = 0 ∧ t.done = none ∧
      t.env.gotRsp = s.env.gotRsp ∧ t.env.gotDout = s.env.gotDout) ∧
  (∀ s : State, (s.outputs true).cmdReady = false ∧ (s.outputs true).dinReady = false ∧
    (s.outputs true).dout = none ∧ (s.outputs true).rsp = none)

/-- R171, 93 U6 (log 7, 8): outside reset, a cycle in which the host drops or changes an offer that was
not taken is refused by name. -/
def Obligations.BrokenHandshakeIsRefused : Prop :=
  ∀ s : State, s.thisInput.rst = false →
    ((∃ w, s.env.heldCmd = some w ∧ ¬ (s.thisInput.cmdValid = true ∧ s.thisInput.cmdWord = w)) ∨
     (∃ d, s.env.heldDin = some d ∧ ¬ (s.thisInput.dinValid = true ∧ s.thisInput.dinData = d))) →
    step s = .refused .hostBrokeHandshake

/-- R172, R173, R174 (log 10): a block whose host does not supply the beat, take the beat or take the
response it waits for stays where it is for as long as that lasts, with every register unchanged. -/
def Obligations.UnservedBlockWaits : Prop :=
  ∀ (s t : State) (ins : List PortIn), s.runOn ins = .next t →
    ((s.phase = .load ∧ ∀ p ∈ ins, p.rst = false ∧ p.dinValid = false) ∨
     (s.phase = .stream ∧ s.cnt < s.box.len ∧ ∀ p ∈ ins, p.rst = false ∧ p.doutReady = false) ∨
     (s.phase = .resp ∧ ∀ p ∈ ins, p.rst = false ∧ p.rspReady = false)) →
    t = { s with env := t.env } ∧ t.env.gotRsp = s.env.gotRsp ∧ t.env.gotDout = s.env.gotDout

/-- R24, R104, D33 (log 17): from the start of LOAD, whatever the host's pace, the block takes the beats it is
offered in order, exactly NREQ of them, and the last one commits the container of R103. A host that
takes no response is enough to stop at that point. That the last beat, the commit and the answer share
one cycle is the model's reading (log 17). -/
def Obligations.LoadBuildsTheSequenceAtAnyPace : Prop :=
  ∀ (s t : State) (ins : List PortIn),
    s.phase = .load → s.cnt = 0 → s.acc = [] → s.nreq ≠ 0 →
    (∀ p ∈ ins, p.rst = false ∧ p.rspReady = false) → s.runOn ins = .next t →
    let beats := (ins.filter (·.dinValid)).map (·.dinData)
    (beats.length < s.nreq.toNat → t.phase = .load ∧ t.box = s.box ∧ t.acc = beats) ∧
    (s.nreq.toNat ≤ beats.length → t.phase = .resp ∧ t.rsp = 0 ∧
      t.box = Container.ofSeq (beats.take s.nreq.toNat))

/-- R120, R121, R124: from the start of STREAM, whatever the host's pace, the beats transferred are the
logical contents in order, the last one marked, exactly LEN of them, and the container is unchanged. -/
def Obligations.StreamEmitsTheContentsAtAnyPace : Prop :=
  ∀ (s t : State) (ins : List PortIn),
    s.phase = .stream → s.cnt = 0 → s.box.len ≠ 0 →
    (∀ p ∈ ins, p.rst = false ∧ p.rspReady = false) → s.runOn ins = .next t →
    let taken := (ins.filter (·.doutReady)).length
    t.box = s.box ∧
    (taken < s.box.len.toNat → t.phase = .stream ∧
      t.env.gotDout = s.env.gotDout ++ (markLast s.box.logical).take taken) ∧
    (s.box.len.toNat ≤ taken → t.phase = .resp ∧ t.rsp = 0 ∧
      t.env.gotDout = s.env.gotDout ++ markLast s.box.logical)

/-- R70, R178, 92 D22: the clock cycles refine the transaction level. In every run without reset from IDLE
to IDLE in which the words transferred on CMD are those of the commands `cs` (a word's unused fields
aside, R65) and the beats transferred on DIN are theirs, the container, FAULT and CAUSE, the responses
and the output beats are those of `cs` applied in order. Every single command has such a run, in which
the host offers its word and its beats and nothing else (R180). A run is over, at IDLE with nothing held,
exactly when no later cycle takes a command, and has gone wrong exactly when FAULT is then 1 (R178). The
record of transfers is the model's (log 11). -/
def Obligations.ClockCyclesRefineTransactions : Prop :=
  (∀ (s t : State) (ins : List PortIn) (ws : List CmdWord) (cs : List Command),
    s.phase = .idle → (∀ p ∈ ins, p.rst = false) → s.runOn ins = .next t → t.phase = .idle →
    (∀ c ∈ cs, c.wellFormed = true) → ws.map decode = cs.map (fun c => decode c.word) →
    let r := transcript Config.lmax s.snapshot cs
    t.env.gaveCmd = s.env.gaveCmd ++ ws → t.env.gaveDin = s.env.gaveDin ++ r.taken →
    t.snapshot = r.final ∧ t.env.gotRsp = s.env.gotRsp ++ r.answers ∧
      t.env.gotDout = s.env.gotDout ++ r.sent) ∧
  (∀ (s : State) (c : Command), s.phase = .idle → s.env.heldCmd = none → s.env.heldDin = none →
    c.wellFormed = true →
    let r := transcript Config.lmax s.snapshot [c]
    ∃ (ins : List PortIn) (t : State),
      (∀ p ∈ ins, p.rst = false) ∧ (ins.filter (·.cmdValid)).map (·.cmdWord) = [c.word] ∧
      (ins.filter (·.dinValid)).map (·.dinData) = r.taken ∧
      s.runOn ins = .next t ∧ t.phase = .idle ∧
      t.env.gaveCmd = s.env.gaveCmd ++ [c.word] ∧ t.env.gaveDin = s.env.gaveDin ++ r.taken ∧
      t.runOver ∧ (t.goneWrong ↔ r.final.fault = true)) ∧
  (∀ (s t : State) (ins : List PortIn), s.phase = .idle → s.env.heldCmd = none →
    (∀ p ∈ ins, p.rst = false) → s.runOn ins = .next t →
    ((s.fed ins).runOver ↔ t.env.gaveCmd = s.env.gaveCmd) ∧
    ((s.fed ins).runOver → t.phase = .idle ∧ t.snapshot = s.snapshot ∧
      ((s.fed ins).goneWrong ↔ s.fault = true)))
end

