-- ==== Sys2Proof/Laws/Assembler.lean ====
section
/-! SUPPORT. The text form of a line, piece by piece: numbers, words, lists, blanks and comments
(R73, log 15). -/

namespace Sys2Proof.Machine

/-- Digits read in two parts. -/
theorem digits_append (b acc : Nat) (xs ys : List Char) : digits b acc (xs ++ ys) =
    (digits b acc xs).bind fun a => digits b a ys := by
  induction xs generalizing acc with
  | nil => rfl
  | cons c cs ih =>
    simp only [List.cons_append, digits]
    cases digitValue b c <;> simp [ih]

/-- The digit that Lean prints for a value reads as that value. -/
theorem digit_char {b d : Nat} (hb : b = 10 ∨ b = 16) (hd : d < b) : digitValue b
    (Nat.digitChar d) = some d := by
  rcases hb with rfl | rfl <;> interval_cases d <;> decide

/-- A number printed in base 10 or 16 reads as itself. -/
theorem digits_toDigits {b : Nat} (hb : b = 10 ∨ b = 16) (n : Nat) : digits b 0
    (Nat.toDigits b n) = some n := by
  have hb1 : 1 < b := by rcases hb with rfl | rfl <;> decide
  induction n using Nat.strongRecOn with
  | ind n ih =>
    by_cases h : n < b
    · rw [Nat.toDigits_of_lt_base h]
      simp [digits, digit_char hb h]
    · rw [Nat.toDigits_of_base_le hb1 (by omega), digits_append, ih (n / b) (Nat.div_lt_self
          (by omega) hb1)]
      simp only [Option.bind_some, digits]
      rw [digit_char hb (Nat.mod_lt _ (by omega))]
      simp only [Option.bind_some]
      rw [Nat.mul_comm, Nat.div_add_mod]

/-- A character that ends no word of a line (log 15). -/
def wordChar (c : Char) : Prop := c ≠ ';' ∧ c ≠ ' ' ∧ c ≠ '\t' ∧ c ≠ ',' ∧ c ≠ '[' ∧ c ≠ ']'

/-- Digits are characters of one word. -/
theorem digits_chars {b acc : Nat} {cs : List Char} {n} (h : digits b acc cs = some n) : ∀ c ∈ cs,
    wordChar c := by
  induction cs generalizing acc with
  | nil => simp
  | cons c cs ih =>
    simp only [digits, Option.bind_eq_some_iff] at h
    obtain ⟨d, h1, h2⟩ := h
    intro x hx
    rcases List.mem_cons.mp hx with rfl | hx
    · have : (48 ≤ x.toNat ∧ x.toNat ≤ 57) ∨ (65 ≤ x.toNat ∧ x.toNat ≤ 70) ∨ (97 ≤ x.toNat ∧
          x.toNat ≤ 102) := by
        by_contra hn
        simp only [not_or] at hn
        simp [digitValue, hn.1, hn.2.1, hn.2.2] at h1
      refine ⟨?_, ?_, ?_, ?_, ?_, ?_⟩ <;> rintro rfl <;> revert this <;> decide
    · exact ih h2 x hx

/-- A number is one word, and does not begin with a capital letter. -/
theorem number_chars {cs : List Char} {n} (h : number cs = some n) : cs ≠ [] ∧ (∀ c ∈ cs,
    wordChar c) ∧ ∃ c r, cs = c :: r ∧ ¬ (65 ≤ c.toNat ∧ c.toNat ≤ 90) := by
  have first : ∀ c r, digits 10 0 (c :: r) = some n → ¬ (65 ≤ c.toNat ∧ c.toNat ≤ 90) := by
    intro c r h hc
    simp only [digits, Option.bind_eq_some_iff] at h
    obtain ⟨d, h1, h2⟩ := h
    have h48 : ¬ (48 ≤ c.toNat ∧ c.toNat ≤ 57) := by omega
    have h97 : ¬ (97 ≤ c.toNat ∧ c.toNat ≤ 102) := by omega
    by_cases h65 : 65 ≤ c.toNat ∧ c.toNat ≤ 70
    · simp [digitValue, h48, h65] at h1; omega
    · simp [digitValue, h48, h65, h97] at h1
  match cs, h with
  | [c], h => exact ⟨by simp, digits_chars h, c, [], rfl, first c [] h⟩
  | c :: x :: ds, h =>
    simp only [number] at h
    split at h
    · next hh =>
      obtain ⟨rfl, rfl⟩ := hh
      split at h
      · cases h
      · refine ⟨by simp, ?_, '0', _, rfl, by decide⟩
        intro c hc
        rcases List.mem_cons.mp hc with rfl | hc
        · unfold wordChar; decide
        · rcases List.mem_cons.mp hc with rfl | hc
          · unfold wordChar; decide
          · exact digits_chars h c hc
    · exact ⟨by simp, digits_chars h, c, _, rfl, first _ _ h⟩

/-- A word is gathered character by character. -/
theorem tokens_word (cur w rest : List Char) (h : ∀ c ∈ w, wordChar c) : tokens cur
    (w ++ rest) = tokens (w.reverse ++ cur) rest := by
  induction w generalizing cur with
  | nil => rfl
  | cons c w ih =>
    have hc := h c (by simp)
    simp only [List.cons_append, tokens]
    rw [if_neg hc.1, if_neg (by rintro (h | h); exact hc.2.1 h; exact hc.2.2.1 h),
        if_neg hc.2.2.2.1, if_neg hc.2.2.2.2.1, if_neg hc.2.2.2.2.2, ih _ fun x hx => h x
        (by simp [hx])]
    simp

/-- The token of a number. -/
theorem word_num {cs : List Char} {n} (h : number cs = some n) : wordToken cs = some (.num n) := by
  obtain ⟨_, _, c, r, rfl, hc⟩ := number_chars h
  simp only [wordToken]; rw [if_neg hc, h]; rfl

/-- The end of a number closes its token. -/
theorem close_num {cs : List Char} {n} (h : number cs = some n)
    (rest) : closeWord cs.reverse rest = rest.map (.num n :: ·) := by
  unfold closeWord
  rw [if_neg (by simpa using (number_chars h).1), List.reverse_reverse, word_num h]; rfl

/-- A number at the end of a line. -/
theorem tokens_num_end {cs : List Char} {n} (h : number cs = some n) : tokens [] cs = some [.num n]
    := by
  have := tokens_word [] cs [] (number_chars h).2.1
  rw [List.append_nil, List.append_nil] at this
  rw [this, tokens, close_num h]; rfl

/-- A number before a comma. -/
theorem tokens_num_comma {cs : List Char} {n} (h : number cs = some n) (rest : List Char) :
   tokens [] (cs ++ ',' :: ' ' :: rest) = (tokens [] rest).map
       (fun ts => .num n :: .comma :: ts) := by
  rw [tokens_word [] cs _ (number_chars h).2.1, List.append_nil]
  have e1 : tokens cs.reverse (',' :: ' ' :: rest) = closeWord cs.reverse ((tokens []
      (' ' :: rest)).map (.comma :: ·)) := by
    simp [tokens]
  have e2 : tokens [] (' ' :: rest) = tokens [] rest := by simp [tokens, closeWord]
  rw [e1, close_num h, e2]
  cases tokens [] rest <;> rfl

/-- A number before the end of a list. -/
theorem tokens_num_close {cs : List Char} {n} (h : number cs = some n) :
   tokens [] (cs ++ [']']) = some [.num n, .closeList] := by
  rw [tokens_word [] cs _ (number_chars h).2.1, List.append_nil]
  have e1 : tokens cs.reverse [']'] = closeWord cs.reverse (some [.closeList]) := by
    simp [tokens, closeWord]
  rw [e1, close_num h]; rfl

/-- A name before its operands. -/
theorem tokens_name (nm : List Char) (h : ∀ c ∈ nm, wordChar c) (rest : List Char) : tokens []
    (nm ++ ' ' :: rest) = closeWord nm.reverse (tokens [] rest) := by
  rw [tokens_word [] nm _ h, List.append_nil]; simp [tokens]

/-- Whether a text is one word, decided. -/
theorem wordChars_of_all (s : List Char) (h : s.all (fun c => c ≠ ';' && c ≠ ' ' && c ≠ '\t' && c ≠
    ',' && c ≠ '[' && c ≠ ']') = true) : ∀ c ∈ s, wordChar c := by
  intro c hc
  have := List.all_eq_true.mp h c hc
  simpa [wordChar, and_assoc] using this

/-- A line of text whose first word is a name. -/
theorem text_name (nm : String) (ts : List Token) (rest : List Char) (h : ∀ c ∈ nm.toList,
    wordChar c) (hn : wordToken nm.toList = some (.name nm.toList)) (h0 : nm.toList ≠ [])
   (hr : tokens [] rest = some ts) : assembleText (nm.toList ++ ' ' :: rest) =
       (lineOf nm.toList ts).bind assemble := by
  unfold assembleText
  rw [tokens_name _ h, hr, closeWord, if_neg (by simpa using h0), List.reverse_reverse, hn]; rfl

/-- A comment is dropped. -/
theorem tokens_comment (line rest : List Char) (h : ';' ∉ line) (cur) : tokens cur
    (line ++ ';' :: rest) = tokens cur line := by
  induction line generalizing cur with
  | nil => simp [tokens]
  | cons c cs ih =>
    have hc : c ≠ ';' := fun e => h (by simp [e])
    have ih := fun cur => ih (fun m => h (by simp [m])) cur
    simp only [List.cons_append, tokens, ih]

/-- Two blanks are one. -/
theorem tokens_blank (line rest : List Char) (cur) : tokens cur
    (line ++ ' ' :: ' ' :: rest) = tokens cur (line ++ ' ' :: rest) := by
  induction line generalizing cur with
  | nil => simp [tokens, closeWord]
  | cons c cs ih => simp only [List.cons_append, tokens, ih]

/-- The tokens of a list of numbers. -/
def interleave (vs : List Nat) : List Token := match vs with
  | [] => []
  | [v] => [.num v]
  | v :: w :: vs => .num v :: .comma :: interleave (w :: vs)

/-- The operands of a list of numbers. -/
theorem operands_interleave (vs : List Nat) : operands (interleave vs) = some vs := by
  induction vs using interleave.induct with
  | case1 => rfl
  | case2 v => rfl
  | case3 v w vs ih =>
    cases vs with
    | nil => rfl
    | cons x xs =>
      have : interleave (v :: w :: x :: xs) = .num v :: .comma :: (.num w :: .comma :: interleave
          (x :: xs)) := rfl
      rw [this, operands]
      have e : (.num w :: .comma :: interleave (x :: xs)) = interleave (w :: x :: xs) := rfl
      rw [e, ih]; rfl

/-- The tokens of the text of a list of numbers. -/
theorem tokens_list (ts : List (List Char)) (vs : List Nat) (h : ts.map number = vs.map some) :
   tokens [] ((ts.intersperse ", ".toList).flatten ++ "]".toList) = some
       (interleave vs ++ [.closeList]) := by
  have c2 : ", ".toList = [',', ' '] := rfl
  have c3 : "]".toList = [']'] := rfl
  rw [c2, c3]
  induction ts generalizing vs with
  | nil =>
    cases vs with
    | nil => decide
    | cons _ _ => simp at h
  | cons t ts ih =>
    cases vs with
    | nil => simp at h
    | cons v vs =>
      simp only [List.map_cons, List.cons.injEq] at h
      cases ts with
      | nil =>
        cases vs with
        | nil => simpa [interleave] using tokens_num_close h.1
        | cons _ _ => simp at h
      | cons t2 ts =>
        cases vs with
        | nil => simp at h
        | cons v2 vs =>
          have := ih (v2 :: vs) h.2
          rw [List.intersperse_cons_cons]
          simp only [List.flatten_cons]
          have e : (t ++ ([',', ' '] ++ ((t2 :: ts).intersperse [',',
              ' ']).flatten)) ++ [']'] = t ++ ',' :: ' ' :: (((t2 :: ts).intersperse [',',
              ' ']).flatten ++ [']']) := by simp
          rw [e, tokens_num_comma h.1, this]; rfl

end Sys2Proof.Machine
end

