-- ==== Sys2Proof/Laws/Memory.lean ====
section
/-! SUPPORT. The byte view: canonical form, read after write, and equality by reading. -/

namespace Sys2Proof.Machine

theorem Mem.read_put (a : Nat) (v : Byte) (m : Mem) (b : Nat) (h : a = b → Mem.read m b = 0) :
    Mem.read (Mem.put a v m) b = if a = b then v else Mem.read m b := by
  unfold Mem.put
  split
  · next hv => subst hv; split <;> simp_all
  · simp [Mem.read]

theorem Mem.sortedFrom_mono {lo lo' : Nat} {m : Mem} (h : Mem.sortedFrom lo m = true) (hl : lo' ≤ lo) :
    Mem.sortedFrom lo' m = true := by
  cases m with
  | nil => rfl
  | cons c m =>
    simp only [Mem.sortedFrom, Bool.and_eq_true, decide_eq_true_eq] at h ⊢
    exact ⟨⟨by omega, h.1.2⟩, h.2⟩

theorem Mem.read_below {lo : Nat} {m : Mem} (h : Mem.sortedFrom lo m = true) {a : Nat} (ha : a < lo) :
    Mem.read m a = 0 := by
  induction m generalizing lo with
  | nil => rfl
  | cons c m ih =>
    simp only [Mem.sortedFrom, Bool.and_eq_true, decide_eq_true_eq] at h
    have : c.1 ≠ a := by omega
    simp only [Mem.read, this, if_false]
    exact ih h.2 (by omega)

theorem Mem.sortedFrom_put {lo a : Nat} {v : Byte} {m : Mem} (hl : lo ≤ a)
    (h : Mem.sortedFrom (a + 1) m = true) : Mem.sortedFrom lo (Mem.put a v m) = true := by
  unfold Mem.put
  split
  · exact Mem.sortedFrom_mono h (by omega)
  · simp_all [Mem.sortedFrom]

theorem Mem.sortedFrom_write {lo : Nat} {m : Mem} (h : Mem.sortedFrom lo m = true) {a : Nat}
    (hl : lo ≤ a) (v : Byte) : Mem.sortedFrom lo (Mem.write m a v) = true := by
  induction m generalizing lo with
  | nil => exact Mem.sortedFrom_put hl rfl
  | cons c m ih =>
    have h' := h
    simp only [Mem.sortedFrom, Bool.and_eq_true, decide_eq_true_eq] at h'
    unfold Mem.write
    split
    · refine Mem.sortedFrom_put hl ?_
      simp only [Mem.sortedFrom, Bool.and_eq_true, decide_eq_true_eq]
      exact ⟨⟨by omega, h'.1.2⟩, h'.2⟩
    · split
      · next e => subst e; exact Mem.sortedFrom_put hl h'.2
      · simp only [Mem.sortedFrom, Bool.and_eq_true, decide_eq_true_eq]
        exact ⟨h'.1, ih h'.2 (by omega)⟩

theorem Mem.read_write_from {lo : Nat} {m : Mem} (h : Mem.sortedFrom lo m = true) (a b : Nat) (v : Byte) :
    Mem.read (Mem.write m a v) b = if a = b then v else Mem.read m b := by
  induction m generalizing lo with
  | nil => simpa [Mem.write, Mem.read] using Mem.read_put a v [] b (fun _ => rfl)
  | cons c m ih =>
    have h' := h
    simp only [Mem.sortedFrom, Bool.and_eq_true, decide_eq_true_eq] at h'
    unfold Mem.write
    split
    · next hlt =>
      apply Mem.read_put
      rintro rfl
      have hs : Mem.sortedFrom c.1 (c :: m) = true := by
        simp only [Mem.sortedFrom, Bool.and_eq_true, decide_eq_true_eq]
        exact ⟨⟨le_refl _, h'.1.2⟩, h'.2⟩
      exact Mem.read_below hs hlt
    · split
      · next e =>
        subst e
        rw [Mem.read_put _ _ _ _ (fun e => Mem.read_below h'.2 (by omega))]
        simp only [Mem.read]
        split <;> rfl
      · simp only [Mem.read, ih h'.2]
        split <;> split <;> simp_all

/-- Two canonical buffers that read alike are equal. -/
theorem Mem.ext_from {lo : Nat} {m m' : Mem} (h : Mem.sortedFrom lo m = true)
    (h' : Mem.sortedFrom lo m' = true) (hr : ∀ a, Mem.read m a = Mem.read m' a) : m = m' := by
  induction m generalizing lo m' with
  | nil =>
    cases m' with
    | nil => rfl
    | cons c m' =>
      simp only [Mem.sortedFrom, Bool.and_eq_true, decide_eq_true_eq] at h'
      have := hr c.1
      simp only [Mem.read, if_true] at this
      exact absurd this.symm h'.1.2
  | cons c m ih =>
    cases m' with
    | nil =>
      simp only [Mem.sortedFrom, Bool.and_eq_true, decide_eq_true_eq] at h
      have := hr c.1
      simp only [Mem.read, if_true] at this
      exact absurd this h.1.2
    | cons d m' =>
      simp only [Mem.sortedFrom, Bool.and_eq_true, decide_eq_true_eq] at h h'
      have hc := hr c.1
      have hd := hr d.1
      simp only [Mem.read, if_true] at hc hd
      have e1 : c.1 = d.1 := by
        rcases Nat.lt_trichotomy c.1 d.1 with hlt | heq | hgt
        · rw [if_neg (by omega), Mem.read_below h'.2 (by omega)] at hc
          exact absurd hc h.1.2
        · exact heq
        · rw [if_neg (by omega), Mem.read_below h.2 (by omega)] at hd
          exact absurd hd.symm h'.1.2
      rw [if_pos e1.symm] at hc
      have ecd : c = d := Prod.ext e1 hc
      subst ecd
      congr 1
      refine ih h.2 h'.2 fun a => ?_
      have := hr a
      simp only [Mem.read] at this
      by_cases ha : c.1 = a
      · rw [Mem.read_below h.2 (by omega), Mem.read_below h'.2 (by omega)]
      · simpa [ha] using this

/-- Reading a byte after a write (R12, R46). -/
theorem Mem.read_write {m : Mem} (h : Mem.wf m = true) (a b : Nat) (v : Byte) :
    Mem.read (Mem.write m a v) b = if a = b then v else Mem.read m b :=
  Mem.read_write_from h a b v

theorem Mem.wf_write {m : Mem} (h : Mem.wf m = true) (a : Nat) (v : Byte) :
    Mem.wf (Mem.write m a v) = true :=
  Mem.sortedFrom_write h (Nat.zero_le a) v

theorem Mem.ext {m m' : Mem} (h : Mem.wf m = true) (h' : Mem.wf m' = true)
    (hr : ∀ a, Mem.read m a = Mem.read m' a) : m = m' :=
  Mem.ext_from h h' hr

theorem Mem.wf_nil : Mem.wf [] = true := rfl

/-- `within` says that reading at or beyond the bound gives 0x00, for a canonical buffer. -/
theorem Mem.read_beyond {n : Nat} {m : Mem} (h : Mem.within n m = true) {a : Nat} (ha : n ≤ a) :
    Mem.read m a = 0 := by
  induction m with
  | nil => rfl
  | cons c m ih =>
    simp only [Mem.within, List.all_cons, Bool.and_eq_true, decide_eq_true_eq] at h
    have : c.1 ≠ a := by omega
    simp only [Mem.read, this, if_false]
    exact ih h.2

theorem Mem.within_of_read {lo n : Nat} {m : Mem} (hs : Mem.sortedFrom lo m = true)
    (h : ∀ a, n ≤ a → Mem.read m a = 0) : Mem.within n m = true := by
  induction m generalizing lo with
  | nil => rfl
  | cons c m ih =>
    simp only [Mem.sortedFrom, Bool.and_eq_true, decide_eq_true_eq] at hs
    have hc : c.1 < n := by
      by_contra hge
      have := h c.1 (by omega)
      simp only [Mem.read, if_true] at this
      exact hs.1.2 this
    simp only [Mem.within, List.all_cons, Bool.and_eq_true, decide_eq_true_eq]
    refine ⟨hc, ih hs.2 fun a ha => ?_⟩
    have := h a ha
    have hne : c.1 ≠ a := by omega
    simpa [Mem.read, hne] using this

theorem Mem.within_iff {n : Nat} {m : Mem} (hs : Mem.wf m = true) :
    Mem.within n m = true ↔ ∀ a, n ≤ a → Mem.read m a = 0 :=
  ⟨fun h _ ha => Mem.read_beyond h ha, Mem.within_of_read hs⟩

theorem Mem.within_write {n : Nat} {m : Mem} (hs : Mem.wf m = true) (h : Mem.within n m = true) {a : Nat}
    (ha : a < n) (v : Byte) : Mem.within n (Mem.write m a v) = true := by
  rw [Mem.within_iff (Mem.wf_write hs a v)]
  intro b hb
  rw [Mem.read_write hs, if_neg (by omega), Mem.read_beyond h hb]

theorem Mem.sortedFrom_ofBytes (base : Nat) (bs : List Byte) :
    Mem.sortedFrom base (Mem.ofBytes base bs) = true := by
  induction bs generalizing base with
  | nil => rfl
  | cons b bs ih => exact Mem.sortedFrom_put (le_refl _) (ih _)

theorem Mem.wf_ofBytes (base : Nat) (bs : List Byte) : Mem.wf (Mem.ofBytes base bs) = true :=
  Mem.sortedFrom_mono (Mem.sortedFrom_ofBytes base bs) (Nat.zero_le _)

theorem Mem.read_ofBytes (base : Nat) (bs : List Byte) (a : Nat) :
    Mem.read (Mem.ofBytes base bs) (base + a) = bs.getD a 0 := by
  induction bs generalizing base a with
  | nil => rfl
  | cons b bs ih =>
    rw [Mem.ofBytes, Mem.read_put _ _ _ _
      (fun e => Mem.read_below (Mem.sortedFrom_ofBytes _ _) (by omega))]
    cases a with
    | zero => simp
    | succ a =>
      rw [if_neg (by omega), show base + (a + 1) = base + 1 + a by omega, ih]
      simp

theorem memRead_lt (m : Mem) (addr n : Nat) : memRead m addr n < 256 ^ n := by
  induction n generalizing addr with
  | zero => simp [memRead]
  | succ n ih =>
    have h1 := (Mem.read m addr).isLt
    have h2 := ih (addr + 1)
    simp only [memRead, Nat.pow_succ]
    omega

theorem memRead_congr {m m' : Mem} {addr n : Nat}
    (h : ∀ k, k < n → Mem.read m (addr + k) = Mem.read m' (addr + k)) :
    memRead m addr n = memRead m' addr n := by
  induction n generalizing addr with
  | zero => rfl
  | succ n ih =>
    have h0 := h 0 (by omega)
    simp only [memRead, Nat.add_zero] at h0 ⊢
    rw [h0, ih fun k hk => by
      have := h (k + 1) (by omega)
      rwa [show addr + (k + 1) = addr + 1 + k by omega] at this]

theorem wf_memWrite {m : Mem} (h : Mem.wf m = true) (addr n v : Nat) :
    Mem.wf (memWrite m addr n v) = true := by
  induction n generalizing m addr v with
  | zero => exact h
  | succ n ih => exact ih (Mem.wf_write h _ _) _ _

/-- Reading a byte after a multi-byte write (R46). -/
theorem read_memWrite {m : Mem} (h : Mem.wf m = true) (addr n v b : Nat) :
    Mem.read (memWrite m addr n v) b =
      if addr ≤ b ∧ b < addr + n then BitVec.ofNat 8 (v / 256 ^ (b - addr)) else Mem.read m b := by
  induction n generalizing m addr v with
  | zero => rw [if_neg (by omega)]; rfl
  | succ n ih =>
    rw [memWrite, ih (Mem.wf_write h _ _), Mem.read_write h]
    by_cases h1 : addr = b
    · subst h1; rw [if_neg (by omega), if_pos rfl, if_pos (by omega)]; simp
    · by_cases h2 : addr + 1 ≤ b ∧ b < addr + 1 + n
      · rw [if_pos h2, if_pos (by omega), Nat.div_div_eq_div_mul,
          show b - addr = (b - (addr + 1)) + 1 by omega, Nat.pow_succ, Nat.mul_comm 256]
      · rw [if_neg h2, if_neg h1, if_neg (by omega)]

theorem memRead_bytes {m : Mem} {addr n v : Nat}
    (h : ∀ k, k < n → Mem.read m (addr + k) = BitVec.ofNat 8 (v / 256 ^ k)) :
    memRead m addr n = v % 256 ^ n := by
  induction n generalizing addr v with
  | zero => simp [memRead, Nat.mod_one]
  | succ n ih =>
    have h0 := h 0 (by omega)
    simp only [Nat.add_zero, Nat.pow_zero, Nat.div_one] at h0
    rw [memRead, h0, ih (v := v / 256) fun k hk => by
      have := h (k + 1) (by omega)
      rw [show addr + (k + 1) = addr + 1 + k by omega] at this
      rw [this, Nat.div_div_eq_div_mul, Nat.pow_succ, Nat.mul_comm 256]]
    rw [BitVec.toNat_ofNat, show 256 ^ (n + 1) = 256 * 256 ^ n by rw [Nat.pow_succ, Nat.mul_comm], Nat.mod_mul]

/-- A read of what a write of the same width just stored (R12, R46). -/
theorem memRead_memWrite_same {m : Mem} (h : Mem.wf m = true) (addr n v : Nat) :
    memRead (memWrite m addr n v) addr n = v % 256 ^ n := by
  apply memRead_bytes
  intro k hk
  rw [read_memWrite h, if_pos (by omega), Nat.add_sub_cancel_left]

/-- A write elsewhere does not change what is read. -/
theorem memRead_memWrite_disjoint {m : Mem} (h : Mem.wf m = true) {addr n v addr' n' : Nat}
    (hd : addr + n ≤ addr' ∨ addr' + n' ≤ addr) :
    memRead (memWrite m addr n v) addr' n' = memRead m addr' n' := by
  apply memRead_congr
  intro k hk
  rw [read_memWrite h, if_neg (by omega)]

theorem within_memWrite {N : Nat} {m : Mem} (hs : Mem.wf m = true) (h : Mem.within N m = true)
    {addr n : Nat} (ha : addr + n ≤ N) (v : Nat) : Mem.within N (memWrite m addr n v) = true := by
  rw [Mem.within_iff (wf_memWrite hs _ _ _)]
  intro b hb
  rw [read_memWrite hs, if_neg (by omega), Mem.read_beyond h hb]

end Sys2Proof.Machine
end

