-- ==== Sys2Proof/Laws/Representation.lean ====
section
/-! SUPPORT. The primitives: nibble arithmetic (R93), decode after encode (R95), a write of one
element leaves the others alone (R83, R84), and the unit-level fills equal the loop (R88). -/

namespace Sys2Proof.Machine

/-! ### Widths -/

theorem Width.toNat_maskOf (t : Width) : t.maskOf.toNat = 2 ^ t.bits - 1 := by cases t <;> rfl

theorem Width.unitBytes_pos (t : Width) : 0 < t.unitBytes := by cases t <;> decide

theorem laneOf_w4 (i : Nat) : laneOf .w4 i = i % 2 := by simp [laneOf, parityMask, Nat.and_one_is_mod]

/-- An index below the length has its unit in the buffer (R45). -/
theorem unitOf_lt {t : Width} {i n : Nat} (h : i < n) : unitOf t i < t.nUnits n := by
  cases t <;> simp only [unitOf, Width.nUnits, nibPerUnit] <;> omega

theorem byteOff_add_le {t : Width} {i n : Nat} (h : i < n) : byteOff t i + t.unitBytes ≤ t.nBytes n := by
  have := unitOf_lt (t := t) h
  cases t <;> simp only [byteOff, unitOff, Width.nBytes, Width.unitBytes] at this ⊢ <;> omega

/-- Two indices share a unit only at W4, and then they are the two lanes of it (R41, R42). -/
theorem eq_or_lane_ne {t : Width} {i j : Nat} (h : unitOf t i = unitOf t j) :
    i = j ∨ (t = .w4 ∧ i % 2 ≠ j % 2) := by
  cases t <;> simp only [unitOf, nibPerUnit] at h
  · by_cases e : i = j
    · exact .inl e
    · exact .inr ⟨rfl, by omega⟩
  all_goals exact .inl h

/-! ### Nibbles (R93) -/

theorem nibOf_toNat (v : Word) : (nibOf v).toNat = v.toNat % 16 := by
  simp [nibOf, nibBits]
  omega

theorem low_setLow (u : Byte) (v : Word) : setLow u (nibOf v) &&& nibMask = nibOf v := by
  ext i hi
  simp only [setLow, nibOf, nibMask, nibBits]
  interval_cases i <;> simp [BitVec.getElem_setWidth]

theorem high_setLow (u : Byte) (v : Word) : setLow u (nibOf v) >>> nibBits = u >>> nibBits := by
  ext i hi
  simp only [setLow, nibOf, nibMask, nibBits]
  interval_cases i <;> simp [BitVec.getElem_setWidth]

theorem low_setHigh (u : Byte) (v : Word) : setHigh u (nibOf v) &&& nibMask = u &&& nibMask := by
  ext i hi
  simp only [setHigh, nibOf, nibMask, nibBits]
  interval_cases i <;> simp [BitVec.getElem_setWidth]

theorem high_setHigh (u : Byte) (v : Word) : setHigh u (nibOf v) >>> nibBits = nibOf v := by
  ext i hi
  simp only [setHigh, nibOf, nibMask, nibBits]
  interval_cases i <;> simp [BitVec.getElem_setWidth]

theorem low_pair (v w : Word) : (nibOf v ||| (nibOf w <<< nibBits)) &&& nibMask = nibOf v := by
  ext i hi
  simp only [nibOf, nibMask, nibBits]
  interval_cases i <;> simp [BitVec.getElem_setWidth]

theorem high_pair (v w : Word) : (nibOf v ||| (nibOf w <<< nibBits)) >>> nibBits = nibOf w := by
  ext i hi
  simp only [nibOf, nibBits]
  interval_cases i <;> simp [BitVec.getElem_setWidth]

theorem low_nibOf (v : Word) : nibOf v &&& nibMask = nibOf v := by
  ext i hi
  simp only [nibOf, nibMask, nibBits]
  interval_cases i <;> simp [BitVec.getElem_setWidth]

theorem high_nibOf (v : Word) : nibOf v >>> nibBits = 0 := by
  ext i hi
  simp only [nibOf, nibBits]
  interval_cases i <;> simp [BitVec.getElem_setWidth]

/-- A byte is its two nibbles. -/
theorem nibble_ext {u w : Byte} (hl : u &&& nibMask = w &&& nibMask)
    (hh : u >>> nibBits = w >>> nibBits) : u = w := by
  ext i hi
  have hl' := congrArg (fun x => x.getLsbD i) hl
  have hh' := congrArg (fun x => x.getLsbD (i - 4)) hh
  simp only [nibMask, nibBits] at hl' hh'
  interval_cases i <;> simp_all

theorem setWidth_nibOf (v : Word) : (nibOf v).setWidth 32 = BitVec.ofNat 32 (v.toNat % 16) := by
  apply BitVec.eq_of_toNat_eq
  simp [nibOf_toNat]

theorem setWidth_byte_inj {u w : Byte} (h : u.setWidth 32 = w.setWidth 32) : u = w := by
  have := congrArg BitVec.toNat h
  have h1 := u.isLt
  have h2 := w.isLt
  simp only [BitVec.toNat_setWidth] at this
  exact BitVec.eq_of_toNat_eq (by omega)

/-! ### One element -/

/-- A value cut to the width of one element: what an encoder stores of it (R83, R84, R95). -/
def cut (t : Width) (v : Word) : Word := BitVec.ofNat 32 (v.toNat % 2 ^ t.bits)

/-- Under the precondition of every encoder the cut removes nothing (R95). -/
theorem cut_of_le {t : Width} {v : Word} (h : v ≤ t.maskOf) : cut t v = v := by
  have h' : v.toNat ≤ 2 ^ t.bits - 1 := by rw [← Width.toNat_maskOf]; exact h
  apply BitVec.eq_of_toNat_eq
  have := v.isLt
  have hp : 0 < 2 ^ t.bits := Nat.two_pow_pos _
  rw [cut, BitVec.toNat_ofNat, Nat.mod_eq_of_lt (a := v.toNat) (by omega), Nat.mod_eq_of_lt this]

theorem cut_zero (t : Width) : cut t 0 = 0 := by cases t <;> rfl

theorem cut_le (t : Width) (v : Word) : cut t v ≤ t.maskOf := by
  show (cut t v).toNat ≤ t.maskOf.toNat
  rw [Width.toNat_maskOf, cut, BitVec.toNat_ofNat]
  have hp : 0 < 2 ^ t.bits := Nat.two_pow_pos _
  have h1 := Nat.mod_lt v.toNat hp
  have h2 := Nat.mod_le (v.toNat % 2 ^ t.bits) (2 ^ 32)
  omega

theorem repGet4_even (m : Mem) {i : Nat} (h : i % 2 = 0) :
    repGet .w4 m i = (Mem.read m (i / 2) &&& nibMask).setWidth 32 := by
  simp [repGet, repGet4, laneOf_w4, h, nibUnit, unitOff, unitOf, Width.unitBytes, nibPerUnit]

theorem repGet4_odd (m : Mem) {i : Nat} (h : i % 2 = 1) :
    repGet .w4 m i = (Mem.read m (i / 2) >>> nibBits).setWidth 32 := by
  simp [repGet, repGet4, laneOf_w4, h, nibUnit, unitOff, unitOf, Width.unitBytes, nibPerUnit]

theorem repGet_wide {t : Width} (h : t ≠ .w4) (m : Mem) (i : Nat) :
    repGet t m i = BitVec.ofNat 32 (memRead m (i * t.unitBytes) t.unitBytes) := by
  cases t
  · exact absurd rfl h
  all_goals rfl

theorem repSet4_even (m : Mem) {i : Nat} (h : i % 2 = 0) (v : Word) :
    repSet .w4 m i v = Mem.write m (i / 2) (setLow (Mem.read m (i / 2)) (nibOf v)) := by
  simp [repSet, repSet4, byteOff, laneOf_w4, h, nibUnit, unitOff, unitOf, Width.unitBytes, nibPerUnit]

theorem repSet4_odd (m : Mem) {i : Nat} (h : i % 2 = 1) (v : Word) :
    repSet .w4 m i v = Mem.write m (i / 2) (setHigh (Mem.read m (i / 2)) (nibOf v)) := by
  simp [repSet, repSet4, byteOff, laneOf_w4, h, nibUnit, unitOff, unitOf, Width.unitBytes, nibPerUnit]

theorem repSet_wide {t : Width} (h : t ≠ .w4) (m : Mem) (i : Nat) (v : Word) :
    repSet t m i v = memWrite m (i * t.unitBytes) t.unitBytes v.toNat := by
  cases t
  · exact absurd rfl h
  all_goals rfl

theorem Width.pow_unitBytes {t : Width} (h : t ≠ .w4) : 256 ^ t.unitBytes = 2 ^ t.bits := by
  cases t
  · exact absurd rfl h
  all_goals rfl

theorem Width.pow_unitBytes_le (t : Width) : 256 ^ t.unitBytes ≤ 2 ^ 32 := by cases t <;> decide

/-- REP_GET never exceeds the mask of its width, whatever the buffer holds (R33). -/
theorem repGet_le (t : Width) (m : Mem) (i : Nat) : repGet t m i ≤ t.maskOf := by
  show (repGet t m i).toNat ≤ t.maskOf.toNat
  by_cases ht : t = .w4
  · subst ht
    rcases Nat.mod_two_eq_zero_or_one i with h | h
    · rw [repGet4_even m h, BitVec.toNat_setWidth, BitVec.toNat_and]
      refine le_trans (Nat.mod_le _ _) ?_
      exact Nat.and_le_right
    · rw [repGet4_odd m h, BitVec.toNat_setWidth, BitVec.toNat_ushiftRight]
      have := (Mem.read m (i / 2)).isLt
      refine le_trans (Nat.mod_le _ _) ?_
      simp only [nibBits, Nat.shiftRight_eq_div_pow, Width.maskOf]
      show _ ≤ 15
      omega
  · rw [repGet_wide ht, Width.toNat_maskOf, BitVec.toNat_ofNat, ← Width.pow_unitBytes ht]
    have h1 := memRead_lt m (i * t.unitBytes) t.unitBytes
    have h2 := Nat.mod_le (memRead m (i * t.unitBytes) t.unitBytes) (2 ^ 32)
    omega

theorem memRead_inj {m m' : Mem} {addr n : Nat} (h : memRead m addr n = memRead m' addr n) :
    ∀ k, k < n → Mem.read m (addr + k) = Mem.read m' (addr + k) := by
  induction n generalizing addr with
  | zero => intro k hk; omega
  | succ n ih =>
    have h1 := (Mem.read m addr).isLt
    have h2 := (Mem.read m' addr).isLt
    simp only [memRead] at h
    intro k hk
    cases k with
    | zero => exact BitVec.eq_of_toNat_eq (by simp only [Nat.add_zero]; omega)
    | succ k =>
      have := ih (addr := addr + 1) (by omega) k (by omega)
      rwa [show addr + (k + 1) = addr + 1 + k by omega]

/-- Two canonical buffers that decode alike at every index are equal. -/
theorem repGet_ext {t : Width} {m m' : Mem} (h : Mem.wf m = true) (h' : Mem.wf m' = true)
    (hr : ∀ i, repGet t m i = repGet t m' i) : m = m' := by
  refine Mem.ext h h' fun a => ?_
  by_cases ht : t = .w4
  · subst ht
    have he := hr (2 * a)
    have ho := hr (2 * a + 1)
    rw [repGet4_even _ (by omega), repGet4_even _ (by omega)] at he
    rw [repGet4_odd _ (by omega), repGet4_odd _ (by omega)] at ho
    rw [show 2 * a / 2 = a by omega] at he
    rw [show (2 * a + 1) / 2 = a by omega] at ho
    exact nibble_ext (setWidth_byte_inj he) (setWidth_byte_inj ho)
  · have hi := hr (a / t.unitBytes)
    rw [repGet_wide ht, repGet_wide ht] at hi
    have hp := Width.pow_unitBytes_le t
    have h1 := memRead_lt m (a / t.unitBytes * t.unitBytes) t.unitBytes
    have h2 := memRead_lt m' (a / t.unitBytes * t.unitBytes) t.unitBytes
    have hn := congrArg BitVec.toNat hi
    simp only [BitVec.toNat_ofNat] at hn
    rw [Nat.mod_eq_of_lt (by omega), Nat.mod_eq_of_lt (by omega)] at hn
    have := memRead_inj hn (a % t.unitBytes) (Nat.mod_lt _ t.unitBytes_pos)
    rwa [Nat.mul_comm, Nat.div_add_mod] at this

theorem wf_repSet {m : Mem} (h : Mem.wf m = true) (t : Width) (i : Nat) (v : Word) :
    Mem.wf (repSet t m i v) = true := by
  cases t
  · exact Mem.wf_write h _ _
  all_goals exact wf_memWrite h _ _ _

theorem within_repSet {m : Mem} {t : Width} {i n : Nat} (h : Mem.wf m = true)
    (hw : Mem.within (t.nBytes n) m = true) (hi : i < n) (v : Word) :
    Mem.within (t.nBytes n) (repSet t m i v) = true := by
  have hb := byteOff_add_le (t := t) hi
  cases t
  · refine Mem.within_write h hw ?_ _
    simp only [Width.unitBytes] at hb
    omega
  all_goals exact within_memWrite h hw hb _

/-- The bytes a write of one element leaves alone: all but the unit of its index (R83, R84). -/
theorem read_repSet_outside {m : Mem} (h : Mem.wf m = true) (t : Width) (i : Nat) (v : Word) {a : Nat}
    (ha : a < byteOff t i ∨ byteOff t i + t.unitBytes ≤ a) :
    Mem.read (repSet t m i v) a = Mem.read m a := by
  cases t
  · simp only [Width.unitBytes] at ha
    rw [repSet, repSet4, Mem.read_write h, if_neg (by omega)]
  all_goals
    simp only [byteOff] at ha
    rw [repSet, repSetUnit, unitWrite, read_memWrite h, if_neg (by omega)]

/-- Decode after the encode of one element: that element is the value, every other index is
unchanged (R83, R84, R95). -/
theorem repGet_repSet {m : Mem} (h : Mem.wf m = true) (t : Width) (i j : Nat) (v : Word) :
    repGet t (repSet t m i v) j = if i = j then cut t v else repGet t m j := by
  by_cases ht : t = .w4
  · subst ht
    rcases Nat.mod_two_eq_zero_or_one i with hi | hi <;> rcases Nat.mod_two_eq_zero_or_one j with hj | hj
    · rw [repSet4_even m hi, repGet4_even _ hj, repGet4_even _ hj, Mem.read_write h]
      by_cases e : i = j
      · subst e; rw [if_pos rfl, if_pos rfl, low_setLow, setWidth_nibOf]; rfl
      · rw [if_neg (by omega), if_neg e]
    · rw [repSet4_even m hi, repGet4_odd _ hj, repGet4_odd _ hj, Mem.read_write h, if_neg (by omega : i ≠ j)]
      split
      · next e => rw [high_setLow, e]
      · rfl
    · rw [repSet4_odd m hi, repGet4_even _ hj, repGet4_even _ hj, Mem.read_write h, if_neg (by omega : i ≠ j)]
      split
      · next e => rw [low_setHigh, e]
      · rfl
    · rw [repSet4_odd m hi, repGet4_odd _ hj, repGet4_odd _ hj, Mem.read_write h]
      by_cases e : i = j
      · subst e; rw [if_pos rfl, if_pos rfl, high_setHigh, setWidth_nibOf]; rfl
      · rw [if_neg (by omega), if_neg e]
  · rw [repGet_wide ht, repGet_wide ht, repSet_wide ht]
    by_cases e : i = j
    · subst e
      rw [if_pos rfl, memRead_memWrite_same h, Width.pow_unitBytes ht]; rfl
    · rw [if_neg e, memRead_memWrite_disjoint h]
      rcases Nat.lt_or_gt_of_ne e with hlt | hgt
      · left
        have := Nat.mul_le_mul_right t.unitBytes (show i + 1 ≤ j from hlt)
        rw [Nat.add_mul, Nat.one_mul] at this; exact this
      · right
        have := Nat.mul_le_mul_right t.unitBytes (show j + 1 ≤ i from hgt)
        rw [Nat.add_mul, Nat.one_mul] at this; exact this

end Sys2Proof.Machine
end

