-- ==== Sys2Proof/Laws/Sequence.lean ====
section
/-! SUPPORT. The primitives over many elements: REP_FILL against its meaning (R85 to R88), REP_ITER
(R89) and pack (R90). -/

namespace Sys2Proof.Machine

/-! ### REP_FILL -/

theorem wf_repFillLoop {m : Mem} (h : Mem.wf m = true) (t : Width) (start : Nat) (v : Word) (n : Nat) :
    Mem.wf (repFillLoop t m start v n) = true := by
  induction n generalizing m start with
  | zero => exact h
  | succ n ih => exact ih (wf_repSet h _ _ _) _

/-- The loop of R85 writes exactly the indices of its range. -/
theorem repGet_repFillLoop {m : Mem} (h : Mem.wf m = true) (t : Width) (start : Nat) (v : Word)
    (n j : Nat) :
    repGet t (repFillLoop t m start v n) j =
      if start ≤ j ∧ j < start + n then cut t v else repGet t m j := by
  induction n generalizing m start with
  | zero => rw [if_neg (by omega)]; rfl
  | succ n ih =>
    rw [repFillLoop, ih (wf_repSet h _ _ _), repGet_repSet h]
    by_cases h1 : start = j
    · rw [if_neg (by omega), if_pos h1, if_pos (by omega)]
    · by_cases h2 : start + 1 ≤ j ∧ j < start + 1 + n
      · rw [if_pos h2, if_pos (by omega)]
      · rw [if_neg h2, if_neg h1, if_neg (by omega)]

theorem wf_fillUnits {m : Mem} (h : Mem.wf m = true) (t : Width) (u v n : Nat) :
    Mem.wf (fillUnits t m u v n) = true := by
  induction n generalizing m u with
  | zero => exact h
  | succ n ih => exact ih (wf_memWrite h _ _ _) _

theorem read_fillUnits4 {m : Mem} (h : Mem.wf m = true) (u v n b : Nat) :
    Mem.read (fillUnits .w4 m u v n) b =
      if u ≤ b ∧ b < u + n then BitVec.ofNat 8 v else Mem.read m b := by
  induction n generalizing m u with
  | zero => rw [if_neg (by omega)]; rfl
  | succ n ih =>
    have hu : unitWrite .w4 m u v = Mem.write m u (BitVec.ofNat 8 v) := by
      simp [unitWrite, unitOff, Width.unitBytes, memWrite]
    rw [fillUnits, hu, ih (Mem.wf_write h _ _), Mem.read_write h]
    by_cases h1 : u = b
    · rw [if_neg (by omega), if_pos h1, if_pos (by omega)]
    · by_cases h2 : u + 1 ≤ b ∧ b < u + 1 + n
      · rw [if_pos h2, if_pos (by omega)]
      · rw [if_neg h2, if_neg h1, if_neg (by omega)]

theorem wf_fillHead {m : Mem} (h : Mem.wf m = true) (start : Nat) (n : Byte) :
    Mem.wf (fillHead m start n) = true := by
  unfold fillHead; split
  · exact Mem.wf_write h _ _
  · exact h

theorem wf_fillTail {m : Mem} (h : Mem.wf m = true) (stop : Nat) (n : Byte) :
    Mem.wf (fillTail m stop n) = true := by
  unfold fillTail; split
  · exact Mem.wf_write h _ _
  · exact h

theorem read_fillHead {m : Mem} (h : Mem.wf m = true) (start : Nat) (n : Byte) (b : Nat) :
    Mem.read (fillHead m start n) b =
      if start % 2 = 1 ∧ b = start / 2 then setHigh (Mem.read m b) n else Mem.read m b := by
  unfold fillHead
  rw [laneOf_w4]
  simp only [byteOff, nibUnit, unitOff, unitOf, Width.unitBytes, nibPerUnit, Nat.mul_one]
  split
  · rw [Mem.read_write h]
    split
    · next e => rw [if_pos (by omega), e]
    · rw [if_neg (by omega)]
  · rw [if_neg (by omega)]

theorem read_fillTail {m : Mem} (h : Mem.wf m = true) (stop : Nat) (n : Byte) (b : Nat) :
    Mem.read (fillTail m stop n) b =
      if (stop - 1) % 2 = 0 ∧ b = (stop - 1) / 2 then setLow (Mem.read m b) n else Mem.read m b := by
  unfold fillTail
  rw [laneOf_w4]
  simp only [byteOff, nibUnit, unitOff, unitOf, Width.unitBytes, nibPerUnit, Nat.mul_one]
  split
  · rw [Mem.read_write h]
    split
    · next e => rw [if_pos (by omega), e]
    · rw [if_neg (by omega)]
  · rw [if_neg (by omega)]

theorem wf_repFill4 {m : Mem} (h : Mem.wf m = true) (start stop : Nat) (v : Word) :
    Mem.wf (repFill4 m start stop v) = true := by
  unfold repFill4; split
  · exact h
  · exact wf_fillUnits (wf_fillTail (wf_fillHead h _ _) _ _) _ _ _ _

/-- The unit-level fill of R87, index by index. -/
theorem repGet_repFill4 {m : Mem} (h : Mem.wf m = true) {start stop : Nat} (hs : start ≤ stop) (v : Word)
    (j : Nat) :
    repGet .w4 (repFill4 m start stop v) j =
      if start ≤ j ∧ j < stop then cut .w4 v else repGet .w4 m j := by
  unfold repFill4
  split
  · rw [if_neg (by omega)]
  · have h1 := wf_fillHead h start (nibOf v)
    have h2 := wf_fillTail h1 stop (nibOf v)
    have hb : BitVec.ofNat 8 (bothNibbles (nibOf v)).toNat = bothNibbles (nibOf v) := by simp
    rcases Nat.mod_two_eq_zero_or_one j with hj | hj
    · rw [repGet4_even _ hj, repGet4_even _ hj, read_fillUnits4 h2, read_fillTail h1, read_fillHead h, hb]
      by_cases hin : start ≤ j ∧ j < stop
      · rw [if_pos hin]
        by_cases hint : (start + 1) / 2 ≤ j / 2 ∧ j / 2 < (start + 1) / 2 + (stop / 2 - (start + 1) / 2)
        · rw [if_pos hint, bothNibbles, low_pair, setWidth_nibOf]; rfl
        · rw [if_neg hint, if_pos (by omega), low_setLow, setWidth_nibOf]; rfl
      · rw [if_neg hin, if_neg (by omega), if_neg (by omega)]
        split
        · rw [low_setHigh]
        · rfl
    · rw [repGet4_odd _ hj, repGet4_odd _ hj, read_fillUnits4 h2, read_fillTail h1, read_fillHead h, hb]
      by_cases hin : start ≤ j ∧ j < stop
      · rw [if_pos hin]
        by_cases hint : (start + 1) / 2 ≤ j / 2 ∧ j / 2 < (start + 1) / 2 + (stop / 2 - (start + 1) / 2)
        · rw [if_pos hint, bothNibbles, high_pair, setWidth_nibOf]; rfl
        · rw [if_neg hint, if_neg (by omega), if_pos (by omega), high_setHigh, setWidth_nibOf]; rfl
      · rw [if_neg hin, if_neg (by omega)]
        split
        · rw [high_setLow, if_neg (by omega)]
        · rw [if_neg (by omega)]

theorem fillUnits_eq_loop (t : Width) (ht : t ≠ .w4) (m : Mem) (u : Nat) (v : Word) (n : Nat) :
    fillUnits t m u v.toNat n = repFillLoop t m u v n := by
  induction n generalizing m u with
  | zero => rfl
  | succ n ih =>
    rw [fillUnits, repFillLoop, ← ih]
    cases t
    · exact absurd rfl ht
    all_goals rfl

theorem repFill_wide {t : Width} (ht : t ≠ .w4) (m : Mem) (start stop : Nat) (v : Word) :
    repFill t m start stop v = repFillLoop t m start v (stop - start) := by
  rw [← fillUnits_eq_loop t ht]
  cases t
  · exact absurd rfl ht
  all_goals rfl

theorem wf_repFill {m : Mem} (h : Mem.wf m = true) (t : Width) (start stop : Nat) (v : Word) :
    Mem.wf (repFill t m start stop v) = true := by
  by_cases ht : t = .w4
  · subst ht; exact wf_repFill4 h _ _ _
  · rw [repFill_wide ht]; exact wf_repFillLoop h _ _ _ _

/-- REP_FILL at every width, index by index (R85, R87). -/
theorem repGet_repFill {m : Mem} (h : Mem.wf m = true) (t : Width) {start stop : Nat} (hs : start ≤ stop)
    (v : Word) (j : Nat) :
    repGet t (repFill t m start stop v) j =
      if start ≤ j ∧ j < stop then cut t v else repGet t m j := by
  by_cases ht : t = .w4
  · subst ht; exact repGet_repFill4 h hs v j
  · rw [repFill_wide ht, repGet_repFillLoop h, show start + (stop - start) = stop by omega]

/-! ### Reading beyond the length -/

/-- Within `n` elements, and with the padding nibble 0, every index from `n` up decodes to 0. -/
theorem repGet_beyond {m : Mem} {t : Width} {n j : Nat} (hw : Mem.within (t.nBytes n) m = true)
    (hp : t = .w4 → n % 2 = 1 → Mem.read m (n / 2) >>> nibBits = 0) (hj : n ≤ j) : repGet t m j = 0 := by
  by_cases ht : t = .w4
  · subst ht
    have hlim : (n + 1) / 2 ≤ j / 2 → Mem.read m (j / 2) = 0 := fun hle =>
      Mem.read_beyond hw (by simpa [Width.nBytes, Width.nUnits, Width.unitBytes, nibPerUnit] using hle)
    rcases Nat.mod_two_eq_zero_or_one j with h | h
    · rw [repGet4_even _ h, hlim (by omega)]; rfl
    · rw [repGet4_odd _ h]
      by_cases hle : (n + 1) / 2 ≤ j / 2
      · rw [hlim hle]; rfl
      · rw [show j / 2 = n / 2 by omega, hp rfl (by omega)]; rfl
  · rw [repGet_wide ht]
    have hz : memRead m (j * t.unitBytes) t.unitBytes = 0 := by
      have : memRead m (j * t.unitBytes) t.unitBytes = 0 % 256 ^ t.unitBytes := by
        apply memRead_bytes
        intro k _
        rw [Mem.read_beyond hw, Nat.zero_div]; · rfl
        have hu : t.nUnits n = n := by
          cases t
          · exact absurd rfl ht
          all_goals rfl
        rw [Width.nBytes, hu]
        have := Nat.mul_le_mul_right t.unitBytes hj
        omega
      rwa [Nat.zero_mod] at this
    rw [hz]; rfl

/-- The converse: when every index from `n` up decodes to 0, the buffer holds no more than `n`
elements. -/
theorem within_of_repGet {m : Mem} {t : Width} {n : Nat} (h : Mem.wf m = true)
    (hz : ∀ j, n ≤ j → repGet t m j = 0) : Mem.within (t.nBytes n) m = true := by
  rw [Mem.within_iff h]
  intro a ha
  by_cases ht : t = .w4
  · subst ht
    have ha' : (n + 1) / 2 ≤ a := by
      simpa [Width.nBytes, Width.nUnits, Width.unitBytes, nibPerUnit] using ha
    have he := hz (2 * a) (by omega)
    have ho := hz (2 * a + 1) (by omega)
    rw [repGet4_even _ (by omega), show 2 * a / 2 = a by omega] at he
    rw [repGet4_odd _ (by omega), show (2 * a + 1) / 2 = a by omega] at ho
    exact nibble_ext (setWidth_byte_inj he) (setWidth_byte_inj ho)
  · have hu : t.nUnits n = n := by
      cases t
      · exact absurd rfl ht
      all_goals rfl
    rw [Width.nBytes, hu] at ha
    have hi := hz (a / t.unitBytes) ((Nat.le_div_iff_mul_le t.unitBytes_pos).mpr ha)
    rw [repGet_wide ht] at hi
    have hp := Width.pow_unitBytes_le t
    have h1 := memRead_lt m (a / t.unitBytes * t.unitBytes) t.unitBytes
    have hn := congrArg BitVec.toNat hi
    simp only [BitVec.toNat_ofNat] at hn
    rw [Nat.mod_eq_of_lt (by omega)] at hn
    have h0 : memRead [] (a / t.unitBytes * t.unitBytes) t.unitBytes = 0 := by
      have := memRead_bytes (m := []) (addr := a / t.unitBytes * t.unitBytes) (n := t.unitBytes) (v := 0)
        (fun k _ => by rw [Nat.zero_div]; rfl)
      rwa [Nat.zero_mod] at this
    have hn' : memRead m (a / t.unitBytes * t.unitBytes) t.unitBytes =
        memRead [] (a / t.unitBytes * t.unitBytes) t.unitBytes := by
      rw [h0]; simpa using hn
    have := memRead_inj hn' (a % t.unitBytes) (Nat.mod_lt _ t.unitBytes_pos)
    rw [Nat.mul_comm, Nat.div_add_mod] at this
    exact this

/-! ### REP_ITER -/

theorem length_repIter (t : Width) (m : Mem) (n : Nat) : (repIter t m n).length = n := by
  simp [repIter]

theorem getD_repIter (t : Width) (m : Mem) (n i : Nat) :
    (repIter t m n).getD i 0 = if i < n then repGet t m i else 0 := by
  unfold repIter
  split
  · next h => simp [List.getD_eq_getElem?_getD, h]
  · next h => simp [List.getD_eq_getElem?_getD, h]

theorem repIter_congr {t t' : Width} {m m' : Mem} {n : Nat}
    (h : ∀ i, i < n → repGet t m i = repGet t' m' i) : repIter t m n = repIter t' m' n := by
  unfold repIter
  apply List.map_congr_left
  intro i hi
  exact h i (List.mem_range.mp hi)

/-! ### pack -/

theorem wf_pack (t : Width) (vs : List Word) : Mem.wf (pack t vs) = true := Mem.wf_ofBytes _ _

theorem getD_packNibbles (vs : List Word) (u : Nat) :
    (packNibbles vs).getD u 0 = nibOf (vs.getD (2 * u) 0) ||| (nibOf (vs.getD (2 * u + 1) 0) <<< nibBits) := by
  induction vs using packNibbles.induct generalizing u with
  | case1 => simp [packNibbles]; decide
  | case2 lo =>
    cases u with
    | zero =>
      have h0 : nibOf 0#32 <<< nibBits = 0#8 := by decide
      simp [packNibbles, h0]
    | succ u => simp [packNibbles, show 2 * (u + 1) = 2 * u + 1 + 1 by omega]; decide
  | case3 lo hi vs ih =>
    cases u with
    | zero => simp [packNibbles]
    | succ u =>
      rw [packNibbles, List.getD_cons_succ, ih, show 2 * (u + 1) = 2 * u + 1 + 1 by omega,
        List.getD_cons_succ, List.getD_cons_succ, List.getD_cons_succ, List.getD_cons_succ]

theorem length_leBytes (v n : Nat) : (leBytes v n).length = n := by
  induction n generalizing v with
  | zero => rfl
  | succ n ih => simp [leBytes, ih]

theorem getD_leBytes (v n k : Nat) (hk : k < n) : (leBytes v n).getD k 0 = BitVec.ofNat 8 (v / 256 ^ k) := by
  induction n generalizing v k with
  | zero => omega
  | succ n ih =>
    cases k with
    | zero => simp [leBytes]
    | succ k =>
      rw [leBytes, List.getD_cons_succ, ih _ _ (by omega), Nat.div_div_eq_div_mul, Nat.pow_succ,
        Nat.mul_comm 256]

theorem getD_packUnits (t : Width) (vs : List Word) (i k : Nat) (hk : k < t.unitBytes) :
    (packUnits t vs).getD (i * t.unitBytes + k) 0 = BitVec.ofNat 8 ((vs.getD i 0).toNat / 256 ^ k) := by
  induction vs generalizing i with
  | nil => simp [packUnits]
  | cons v vs ih =>
    rw [packUnits]
    cases i with
    | zero =>
      rw [List.getD_append _ _ _ _ (by rw [length_leBytes]; omega), Nat.zero_mul, Nat.zero_add,
        getD_leBytes _ _ _ hk, List.getD_cons_zero]
    | succ i =>
      rw [List.getD_append_right _ _ _ _ (by rw [length_leBytes, Nat.add_mul]; omega), length_leBytes,
        show (i + 1) * t.unitBytes + k - t.unitBytes = i * t.unitBytes + k by rw [Nat.add_mul]; omega, ih,
        List.getD_cons_succ]

theorem pack_wide {t : Width} (ht : t ≠ .w4) (vs : List Word) : pack t vs = Mem.ofBytes 0 (packUnits t vs) := by
  cases t
  · exact absurd rfl ht
  all_goals rfl

/-- Decode after pack (R90, R95). -/
theorem repGet_pack (t : Width) (vs : List Word) (i : Nat) :
    repGet t (pack t vs) i = cut t (vs.getD i 0) := by
  by_cases ht : t = .w4
  · subst ht
    have hr : ∀ a, Mem.read (pack .w4 vs) a =
        nibOf (vs.getD (2 * a) 0) ||| (nibOf (vs.getD (2 * a + 1) 0) <<< nibBits) := fun a => by
      have := Mem.read_ofBytes 0 (packNibbles vs) a
      rw [Nat.zero_add] at this
      rw [← getD_packNibbles]; exact this
    rcases Nat.mod_two_eq_zero_or_one i with h | h
    · rw [repGet4_even _ h, hr, low_pair, setWidth_nibOf, show 2 * (i / 2) = i by omega]; rfl
    · rw [repGet4_odd _ h, hr, high_pair, setWidth_nibOf, show 2 * (i / 2) + 1 = i by omega]; rfl
  · rw [repGet_wide ht, pack_wide ht, memRead_bytes (v := (vs.getD i 0).toNat) fun k hk => by
      rw [← Nat.zero_add (i * t.unitBytes + k), Mem.read_ofBytes, getD_packUnits _ _ _ _ hk],
      Width.pow_unitBytes ht]
    rfl

theorem within_pack (t : Width) (vs : List Word) : Mem.within (t.nBytes vs.length) (pack t vs) = true := by
  apply within_of_repGet (wf_pack t vs)
  intro j hj
  rw [repGet_pack, List.getD_eq_default _ _ hj, cut_zero]

/-- The padding nibble of a packed W4 buffer of odd length is 0 (R44). -/
theorem pad_pack (vs : List Word) (h : vs.length % 2 = 1) :
    Mem.read (pack .w4 vs) (vs.length / 2) >>> nibBits = 0 := by
  have := repGet_pack .w4 vs vs.length
  rw [repGet4_odd _ h, List.getD_eq_default _ _ (le_refl _), cut_zero] at this
  exact setWidth_byte_inj this

/-- REP_ITER after pack gives the sequence back (R90). -/
theorem repIter_pack {t : Width} {vs : List Word} (h : ∀ v ∈ vs, v ≤ t.maskOf) :
    repIter t (pack t vs) vs.length = vs := by
  apply List.ext_getElem
  · rw [length_repIter]
  · intro i h1 h2
    have hg := repGet_pack t vs i
    rw [List.getD_eq_getElem _ _ h2, cut_of_le (h _ (List.getElem_mem h2))] at hg
    simpa [repIter] using hg

/-! ### Elements encoded one by one -/

theorem repGet_nil (t : Width) (j : Nat) : repGet t [] j = 0 :=
  repGet_beyond (n := 0) rfl (fun _ h => by omega) (Nat.zero_le _)

theorem wf_setAll {m : Mem} (h : Mem.wf m = true) (t : Width) (i : Nat) (vs : List Word) :
    Mem.wf (setAll t m i vs) = true := by
  induction vs generalizing m i with
  | nil => exact h
  | cons v vs ih => exact ih (wf_repSet h _ _ _) _

theorem repGet_setAll {m : Mem} (h : Mem.wf m = true) (t : Width) (i : Nat) (vs : List Word) (j : Nat) :
    repGet t (setAll t m i vs) j =
      if i ≤ j ∧ j < i + vs.length then cut t (vs.getD (j - i) 0) else repGet t m j := by
  induction vs generalizing m i with
  | nil => rw [if_neg (by simp)]; rfl
  | cons v vs ih =>
    rw [setAll, ih (wf_repSet h _ _ _), repGet_repSet h, List.length_cons]
    by_cases h1 : i = j
    · subst h1
      rw [if_neg (by omega), if_pos rfl, if_pos (by omega)]
      simp
    · by_cases h2 : i + 1 ≤ j ∧ j < i + 1 + vs.length
      · rw [if_pos h2, if_pos (by omega), show j - i = (j - (i + 1)) + 1 by omega, List.getD_cons_succ]
      · rw [if_neg h2, if_neg h1, if_neg (by omega)]

/-! ### What a fill leaves alone -/

theorem byteOff_mono {t : Width} {i j : Nat} (h : i ≤ j) : byteOff t i ≤ byteOff t j := by
  cases t <;> simp only [byteOff, unitOff, unitOf, Width.unitBytes, nibPerUnit] <;> omega

/-- The loop of R85 stores to no byte outside the units of its first and last index. -/
theorem read_repFillLoop_outside {m : Mem} (h : Mem.wf m = true) (t : Width) (start : Nat) (v : Word)
    (n : Nat) {a : Nat}
    (ha : a < byteOff t start ∨ byteOff t (start + n - 1) + t.unitBytes ≤ a) :
    Mem.read (repFillLoop t m start v n) a = Mem.read m a := by
  induction n generalizing m start with
  | zero => rfl
  | succ n ih =>
    have h1 := byteOff_mono (t := t) (show start ≤ start + (n + 1) - 1 by omega)
    rw [repFillLoop]
    cases n with
    | zero => exact read_repSet_outside h _ _ _ (by simpa using ha)
    | succ n =>
      have h2 := byteOff_mono (t := t) (show start ≤ start + 1 by omega)
      rw [ih (wf_repSet h _ _ _)]
      · exact read_repSet_outside h _ _ _ (by omega)
      · rw [show start + 1 + (n + 1) - 1 = start + (n + 1 + 1) - 1 by omega]; omega

end Sys2Proof.Machine
end

