-- ==== Sys2Proof/Laws/Container.lean ====
section
/-! SUPPORT. What the container operations do: they keep the invariants of a container, and their
effect on the logical contents (R101 to R103, R111 to R114, R133, R138, R139). -/

namespace Sys2Proof.Machine

/-! ### Width selection -/

theorem le_maskOf_minWidth (v : Word) : v ≤ (minWidth v).maskOf := by
  have := v.isLt
  unfold minWidth
  split
  · assumption
  · split
    · assumption
    · split
      · assumption
      · show v.toNat ≤ 4294967295
        omega

theorem le_maskOf_upWidth (v : Word) : v ≤ (upWidth v).maskOf := by
  have := v.isLt
  unfold upWidth
  split
  · assumption
  · split
    · assumption
    · show v.toNat ≤ 4294967295
      omega

/-- Above 15 the two width selections agree (R14). -/
theorem upWidth_eq_minWidth {v : Word} (h : 15 < v) : upWidth v = minWidth v := by
  have : ¬ v ≤ 15 := by
    intro h'
    have h1 : (15 : Word).toNat < v.toNat := h
    have h2 : v.toNat ≤ (15 : Word).toNat := h'
    omega
  rw [minWidth, if_neg this]; rfl

theorem Width.fifteen_le_maskOf (t : Width) : (15 : Word) ≤ t.maskOf := by cases t <;> decide

theorem lt_of_le_of_lt_word {a b c : Word} (h : a ≤ b) (h' : b < c) : a < c :=
  Nat.lt_of_le_of_lt (show a.toNat ≤ b.toNat from h) (show b.toNat < c.toNat from h')

theorem le_trans_word {a b c : Word} (h : a ≤ b) (h' : b ≤ c) : a ≤ c :=
  Nat.le_trans (show a.toNat ≤ b.toNat from h) (show b.toNat ≤ c.toNat from h')

theorem le_of_lt_word {a b : Word} (h : a < b) : a ≤ b :=
  Nat.le_of_lt (show a.toNat < b.toNat from h)

theorem le_of_not_lt_word {a b : Word} (h : ¬ b < a) : a ≤ b :=
  Nat.le_of_not_lt (show ¬ b.toNat < a.toNat from h)

/-- The width a value selects is the narrowest: any width whose mask covers it has the larger mask. -/
theorem maskOf_minWidth_le {t : Width} {v : Word} (h : v ≤ t.maskOf) :
    (minWidth v).maskOf ≤ t.maskOf := by
  have h' : v.toNat ≤ t.maskOf.toNat := h
  unfold minWidth
  split
  · cases t <;> decide
  · next h1 =>
    have h1' : ¬ v.toNat ≤ 15 := h1
    split
    · cases t
      · exact absurd h' h1'
      all_goals decide
    · next h2 =>
      have h2' : ¬ v.toNat ≤ 255 := h2
      split
      · cases t
        · exact absurd h' h1'
        · exact absurd h' h2'
        all_goals decide
      · next h3 =>
        have h3' : ¬ v.toNat ≤ 65535 := h3
        cases t
        · exact absurd h' h1'
        · exact absurd h' h2'
        · exact absurd h' h3'
        · decide

theorem Width.maskOf_inj {t t' : Width} (h : t.maskOf = t'.maskOf) : t = t' := by
  cases t <;> cases t' <;> first | rfl | (revert h; decide)

/-! ### Good containers -/

theorem setWidth_nibble_zero {u : Byte} (h : u.setWidth 32 = (0 : Word)) : u = 0 := setWidth_byte_inj h

/-- In a good container every index from LEN up decodes to 0. -/
theorem Container.Good.beyond {c : Container} (h : c.Good) {j : Nat}
    (hj : c.len.toNat ≤ j) : repGet c.tag c.buf j = 0 :=
  repGet_beyond h.sized h.padded hj

/-- The invariants of a container, from its elements alone. -/
theorem Container.good_of {c : Container} (hc : Mem.wf c.buf = true)
    (hb : ∀ j, c.len.toNat ≤ j → repGet c.tag c.buf j = 0) (hm : c.mask = c.tag.maskOf) :
    c.Good where
  canonical := hc
  sized := within_of_repGet hc hb
  masked := hm
  padded := fun ht ho => by
    have := hb c.len.toNat (le_refl _)
    rw [ht, repGet4_odd _ ho] at this
    exact setWidth_nibble_zero this

theorem Container.length_logical (c : Container) : c.logical.length = c.len.toNat := length_repIter _ _ _

theorem Container.getD_logical (c : Container) (i : Nat) :
    c.logical.getD i 0 = if i < c.len.toNat then repGet c.tag c.buf i else 0 := getD_repIter _ _ _ _

theorem Container.Good.getD_logical {c : Container} (h : c.Good) (i : Nat) :
    c.logical.getD i 0 = repGet c.tag c.buf i := by
  rw [Container.getD_logical]
  split
  · rfl
  · exact (h.beyond (by omega)).symm

/-- Every element is at most the mask of its width (R33). -/
theorem Container.mem_logical_le (c : Container) : ∀ v ∈ c.logical, v ≤ c.tag.maskOf := by
  intro v hv
  obtain ⟨i, _, rfl⟩ := List.mem_map.mp hv
  exact repGet_le _ _ _

/-- BUF is a function of the width and the logical contents (R35). -/
theorem Container.Good.buf_eq_pack {c : Container} (h : c.Good) :
    c.buf = pack c.tag c.logical := by
  apply repGet_ext (t := c.tag) h.canonical (wf_pack _ _)
  intro i
  rw [repGet_pack, h.getD_logical, cut_of_le (repGet_le _ _ _)]

theorem Container.good_packed {t : Width} {n : Word} {vs : List Word}
    (hn : n.toNat = vs.length) : (Container.packed t n vs).Good :=
  Container.good_of (wf_pack t vs)
    (fun j hj => by
      show repGet t (pack t vs) j = 0
      rw [repGet_pack, List.getD_eq_default _ _ (by rw [← hn]; exact hj), cut_zero])
    rfl

theorem Container.logical_packed {t : Width} {n : Word} {vs : List Word} (hn : n.toNat = vs.length)
    (h : ∀ v ∈ vs, v ≤ t.maskOf) : (Container.packed t n vs).logical = vs := by
  show repIter t (pack t vs) n.toNat = vs
  rw [hn]; exact repIter_pack h

theorem pack_zeros (t : Width) (n : Nat) : pack t (List.replicate n 0) = [] := by
  apply repGet_ext (t := t) (wf_pack _ _) Mem.wf_nil
  intro i
  rw [repGet_pack]
  have h1 : (List.replicate n (0 : Word)).getD i 0 = 0 := by
    simp only [List.getD_eq_getElem?_getD, List.getElem?_replicate]
    split <;> rfl
  have h2 : pack t [] = [] := by cases t <;> rfl
  have h3 := repGet_pack t [] i
  rw [h2] at h3
  rw [h1, h3]; rfl

/-- NEW builds the packed buffer of a sequence of zeros (R101). -/
theorem Container.zeros_eq_packed (n : Word) :
    Container.zeros n = Container.packed .w4 n (List.replicate n.toNat 0) := by
  rw [Container.packed, pack_zeros]; rfl

theorem Container.good_zeros (n : Word) : (Container.zeros n).Good := by
  rw [Container.zeros_eq_packed]
  exact Container.good_packed (by simp)

theorem Container.logical_zeros (n : Word) : (Container.zeros n).logical = List.replicate n.toNat 0 := by
  rw [Container.zeros_eq_packed]
  refine Container.logical_packed (by simp) fun v hv => ?_
  rw [List.eq_of_mem_replicate hv]
  decide

theorem Container.good_filled (n v : Word) : (Container.filled n v).Good :=
  Container.good_packed (by simp)

theorem Container.logical_filled (n v : Word) : (Container.filled n v).logical = List.replicate n.toNat v := by
  refine Container.logical_packed (by simp) fun w hw => ?_
  rw [List.eq_of_mem_replicate hw]
  exact le_maskOf_minWidth v

/-! ### FROM -/

theorem le_maxWord {vs : List Word} {v : Word} (h : v ∈ vs) : v ≤ maxWord vs := by
  induction vs with
  | nil => cases h
  | cons w vs ih =>
    simp only [maxWord]
    rcases List.mem_cons.mp h with rfl | h
    · split
      · assumption
      · exact Nat.le_refl _
    · split
      · exact ih h
      · next hn => exact le_trans_word (ih h) (le_of_lt_word (Nat.lt_of_not_le hn))

theorem maxWord_mem {vs : List Word} (h : vs ≠ []) : maxWord vs ∈ vs := by
  induction vs with
  | nil => exact absurd rfl h
  | cons w vs ih =>
    simp only [maxWord]
    split
    · by_cases hv : vs = []
      · subst hv
        next hw =>
        have : w = 0 := BitVec.eq_of_toNat_eq (Nat.le_zero.mp (show w.toNat ≤ (0 : Word).toNat from hw))
        simp [maxWord, this]
      · exact List.mem_cons_of_mem _ (ih hv)
    · exact List.mem_cons_self ..

theorem seqWidth_eq (vs : List Word) : seqWidth vs = minWidth (maxWord vs) := by
  cases vs <;> rfl

theorem le_maskOf_seqWidth {vs : List Word} {v : Word} (h : v ∈ vs) : v ≤ (seqWidth vs).maskOf := by
  rw [seqWidth_eq]
  exact le_trans_word (le_maxWord h) (le_maskOf_minWidth _)

theorem toNat_ofNat_length {vs : List Word} (h : vs.length < 2 ^ 32) :
    (BitVec.ofNat 32 vs.length).toNat = vs.length := by
  rw [BitVec.toNat_ofNat, Nat.mod_eq_of_lt h]

theorem Container.good_ofSeq {vs : List Word} (h : vs.length < 2 ^ 32) :
    (Container.ofSeq vs).Good :=
  Container.good_packed (toNat_ofNat_length h)

/-- After FROM the logical contents are the sequence (R103). -/
theorem Container.logical_ofSeq {vs : List Word} (h : vs.length < 2 ^ 32) :
    (Container.ofSeq vs).logical = vs :=
  Container.logical_packed (toNat_ofNat_length h) fun _ hv => le_maskOf_seqWidth hv

/-! ### The upscale -/

theorem Container.upscale_eq (t : Width) (c : Container) :
    c.upscale t = Container.packed t c.len c.logical := rfl

theorem Container.good_upscale (c : Container) (t : Width) :
    (c.upscale t).Good :=
  Container.good_packed c.length_logical.symm

/-- The upscale keeps the logical contents (R139), because the new mask is at least the old (R138). -/
theorem Container.logical_upscale {c : Container} {t : Width} (h : c.tag.maskOf ≤ t.maskOf) :
    (c.upscale t).logical = c.logical :=
  Container.logical_packed c.length_logical.symm fun v hv => le_trans_word (c.mem_logical_le v hv) h

theorem Container.fit_of_le {c : Container} {v : Word} (h : v ≤ c.mask) : c.fit v = c := by
  have : needsUpscale c.mask v = false := by
    simp only [needsUpscale, decide_eq_false_iff_not]
    exact fun h' => absurd (show c.mask.toNat < v.toNat from h') (Nat.not_lt.mpr h)
  rw [Container.fit, this]; rfl

theorem Container.fit_of_gt {c : Container} {v : Word} (h : c.mask < v) :
    c.fit v = c.upscale (upWidth v) := by
  have : needsUpscale c.mask v = true := by simp only [needsUpscale, decide_eq_true_eq]; exact h
  rw [Container.fit, this]; rfl

@[simp] theorem Container.len_fit (v : Word) (c : Container) : (c.fit v).len = c.len := by
  unfold Container.fit; split <;> rfl

theorem Container.good_fit {c : Container} (h : c.Good) (v : Word) :
    (c.fit v).Good := by
  unfold Container.fit; split
  · exact Container.good_upscale c _
  · exact h

/-- After the upscale-first step the value fits the mask (R113). -/
theorem Container.le_mask_fit (c : Container) (v : Word) : v ≤ (c.fit v).mask := by
  by_cases h : c.mask < v
  · rw [Container.fit_of_gt h]; exact le_maskOf_upWidth v
  · have hle := le_of_not_lt_word h
    rw [Container.fit_of_le hle]; exact hle

/-- The target of an upscale is wider than the live width (R132). -/
theorem Container.maskOf_le_upWidth {c : Container} {v : Word} (hm : c.mask = c.tag.maskOf)
    (h : c.mask < v) : c.tag.maskOf ≤ (upWidth v).maskOf := by
  rw [← hm]; exact le_of_lt_word (lt_of_lt_of_le (show c.mask.toNat < v.toNat from h) (le_maskOf_upWidth v))

theorem Container.logical_fit {c : Container} (hm : c.mask = c.tag.maskOf) (v : Word) :
    (c.fit v).logical = c.logical := by
  by_cases h : c.mask < v
  · rw [Container.fit_of_gt h, Container.logical_upscale (Container.maskOf_le_upWidth hm h)]
  · rw [Container.fit_of_le (le_of_not_lt_word h)]

theorem Container.Good.repGet_fit {c : Container} (h : c.Good) (v : Word) (i : Nat) :
    repGet (c.fit v).tag (c.fit v).buf i = repGet c.tag c.buf i := by
  rw [← (Container.good_fit h v).getD_logical, Container.logical_fit h.masked, h.getD_logical]

/-! ### SET and SETR -/

theorem Container.set_def (i v : Word) (c : Container) :
    c.set i v = { c.fit v with buf := repSet (c.fit v).tag (c.fit v).buf i.toNat v } := rfl

theorem Container.Good.repGet_set {c : Container} (h : c.Good) (i v : Word) (j : Nat) :
    repGet (c.set i v).tag (c.set i v).buf j = if i.toNat = j then v else repGet c.tag c.buf j := by
  have hf := Container.good_fit h v
  show repGet (c.fit v).tag (repSet (c.fit v).tag (c.fit v).buf i.toNat v) j = _
  rw [repGet_repSet hf.canonical, cut_of_le (by rw [← hf.masked]; exact c.le_mask_fit v), h.repGet_fit]

theorem Container.Good.repGet_setr {c : Container} (h : c.Good) {a b : Word}
    (hab : a ≤ b) (v : Word) (j : Nat) :
    repGet (c.setr a b v).tag (c.setr a b v).buf j =
      if a.toNat ≤ j ∧ j < b.toNat then v else repGet c.tag c.buf j := by
  have hf := Container.good_fit h v
  show repGet (c.fit v).tag (repFill (c.fit v).tag (c.fit v).buf a.toNat b.toNat v) j = _
  rw [repGet_repFill hf.canonical _ hab, cut_of_le (by rw [← hf.masked]; exact c.le_mask_fit v),
    h.repGet_fit]

@[simp] theorem Container.len_set (i v : Word) (c : Container) : (c.set i v).len = c.len := by
  simp [Container.set]

@[simp] theorem Container.len_setr (a b v : Word) (c : Container) : (c.setr a b v).len = c.len := by
  simp [Container.setr]

theorem Container.good_set {c : Container} (h : c.Good) {i : Word} (hi : i < c.len)
    (v : Word) : (c.set i v).Good := by
  have hf := Container.good_fit h v
  refine Container.good_of (wf_repSet hf.canonical _ _ _) (fun j hj => ?_) hf.masked
  rw [Container.len_set] at hj
  have hlt : i.toNat < c.len.toNat := hi
  rw [h.repGet_set, if_neg (by omega), h.beyond hj]

theorem Container.good_setr {c : Container} (h : c.Good) {a b : Word} (hab : a ≤ b)
    (hb : b ≤ c.len) (v : Word) : (c.setr a b v).Good := by
  have hf := Container.good_fit h v
  refine Container.good_of (wf_repFill hf.canonical _ _ _ _) (fun j hj => ?_) hf.masked
  rw [Container.len_setr] at hj
  have hle : b.toNat ≤ c.len.toNat := hb
  rw [h.repGet_setr hab, if_neg (by omega), h.beyond hj]

/-! ### FROM built beat by beat (R105) -/

theorem maxWord_append (vs : List Word) (v : Word) :
    maxWord (vs ++ [v]) = if maxWord vs ≤ v then v else maxWord vs := by
  apply BitVec.eq_of_toNat_eq
  induction vs with
  | nil =>
    have h0 : (0 : Word) ≤ v := Nat.zero_le _
    show (if v ≤ (0 : Word) then (0 : Word) else v).toNat = (if (0 : Word) ≤ v then v else 0).toNat
    rw [if_pos h0]
    by_cases h : v ≤ (0 : Word)
    · rw [if_pos h]; exact (Nat.le_zero.mp (show v.toNat ≤ (0 : Word).toNat from h)).symm
    · rw [if_neg h]
  | cons w vs ih =>
    simp only [List.cons_append, maxWord]
    simp only [BitVec.le_def] at ih ⊢
    split <;> split at ih <;> split <;> (try split) <;> omega

theorem Container.push_packed {vs : List Word} (h : vs.length + 1 < 2 ^ 32) (v : Word) :
    (Container.ofSeq vs).push v = Container.ofSeq (vs ++ [v]) := by
  have hn := toNat_ofNat_length (vs := vs) (by omega)
  have hg : (Container.ofSeq vs).Good := Container.good_ofSeq (by omega)
  have hf := Container.good_fit hg v
  have htag : ((Container.ofSeq vs).fit v).tag = seqWidth (vs ++ [v]) := by
    rw [seqWidth_eq, maxWord_append]
    by_cases hgt : (Container.ofSeq vs).mask < v
    · rw [Container.fit_of_gt hgt]
      have h1 : maxWord vs ≤ (Container.ofSeq vs).mask := by
        show maxWord vs ≤ (seqWidth vs).maskOf
        rw [seqWidth_eq]; exact le_maskOf_minWidth _
      rw [if_pos (le_of_lt_word (lt_of_le_of_lt_word h1 hgt))]
      exact upWidth_eq_minWidth (lt_of_le_of_lt_word (Width.fifteen_le_maskOf (seqWidth vs)) hgt)
    · have hle : v ≤ (minWidth (maxWord vs)).maskOf := by
        have := le_of_not_lt_word hgt
        rw [← seqWidth_eq]; exact this
      rw [Container.fit_of_le (le_of_not_lt_word hgt)]
      show seqWidth vs = _
      rw [seqWidth_eq]
      split
      · next hmv =>
        apply Width.maskOf_inj
        have ha : (minWidth v).maskOf.toNat ≤ (minWidth (maxWord vs)).maskOf.toNat := maskOf_minWidth_le hle
        have hb : (minWidth (maxWord vs)).maskOf.toNat ≤ (minWidth v).maskOf.toNat :=
          maskOf_minWidth_le (le_trans_word hmv (le_maskOf_minWidth v))
        exact BitVec.eq_of_toNat_eq (by omega)
      · rfl
  have hbuf : repSet ((Container.ofSeq vs).fit v).tag ((Container.ofSeq vs).fit v).buf
      ((Container.ofSeq vs).fit v).len.toNat v = pack (seqWidth (vs ++ [v])) (vs ++ [v]) := by
    rw [← htag]
    apply repGet_ext (t := ((Container.ofSeq vs).fit v).tag) (wf_repSet hf.canonical _ _ _) (wf_pack _ _)
    intro j
    have hold := hg.repGet_fit v j
    rw [← hg.getD_logical, Container.logical_ofSeq (by omega)] at hold
    rw [repGet_repSet hf.canonical, repGet_pack, Container.len_fit, hold]
    have hlen : (Container.ofSeq vs).len.toNat = vs.length := hn
    rw [hlen]
    by_cases e : vs.length = j
    · subst e
      rw [if_pos rfl, List.getD_append_right _ _ _ _ (le_refl _), Nat.sub_self]; rfl
    · rw [if_neg e]
      rcases Nat.lt_or_gt_of_ne e with hlt | hgt
      · rw [List.getD_eq_default _ _ (by omega), List.getD_eq_default _ _ (by simp; omega), cut_zero]
      · rw [List.getD_append _ _ _ _ hgt, cut_of_le]
        have : vs.getD j 0 ∈ (Container.ofSeq vs).logical := by
          rw [Container.logical_ofSeq (by omega), List.getD_eq_getElem _ _ hgt]
          exact List.getElem_mem hgt
        rw [← hold]; exact repGet_le _ _ _
  have hlen : ((Container.ofSeq vs).fit v).len + 1 = BitVec.ofNat 32 (vs ++ [v]).length := by
    rw [Container.len_fit]
    apply BitVec.eq_of_toNat_eq
    show ((BitVec.ofNat 32 vs.length) + 1).toNat = _
    simp
  have hmask : ((Container.ofSeq vs).fit v).mask = (seqWidth (vs ++ [v])).maskOf := by
    rw [hf.masked, htag]
  rw [Container.push, hbuf, hlen]
  show Container.mk _ _ _ _ = Container.mk _ _ _ _
  rw [htag, hmask]

theorem Container.pushAll_ofSeq {us vs : List Word} (h : us.length + vs.length < 2 ^ 32) :
    (Container.ofSeq us).pushAll vs = Container.ofSeq (us ++ vs) := by
  induction vs generalizing us with
  | nil => rw [List.append_nil]; rfl
  | cons v vs ih =>
    rw [List.length_cons] at h
    rw [Container.pushAll, Container.push_packed (by omega), ih (by simp; omega)]
    simp

end Sys2Proof.Machine
end

