-- ==== Sys2Proof/Laws/Encoding.lean ====
section
/-! SUPPORT. The fields of an assembled command word (R62). -/

namespace Sys2Proof

theorem opField_assemble (op : BitVec 4) (a b v : Word) : opField (assembleFields op a b v) = op := by
  ext i hi
  simp only [opField, assembleFields, BitVec.getElem_extractLsb', BitVec.getLsbD_append]
  rw [if_neg (by omega), if_neg (by omega), if_neg (by omega),
    show 96 + i - 32 - 32 - 32 = i by omega, BitVec.getLsbD_eq_getElem hi]

theorem aField_assemble (op : BitVec 4) (a b v : Word) : aField (assembleFields op a b v) = a := by
  ext i hi
  simp only [aField, assembleFields, BitVec.getElem_extractLsb', BitVec.getLsbD_append]
  rw [if_neg (by omega), if_neg (by omega), if_pos (by omega), show 64 + i - 32 - 32 = i by omega,
    BitVec.getLsbD_eq_getElem hi]

theorem bField_assemble (op : BitVec 4) (a b v : Word) : bField (assembleFields op a b v) = b := by
  ext i hi
  simp only [bField, assembleFields, BitVec.getElem_extractLsb', BitVec.getLsbD_append]
  rw [if_neg (by omega), if_pos (by omega), show 32 + i - 32 = i by omega, BitVec.getLsbD_eq_getElem hi]

theorem vField_assemble (op : BitVec 4) (a b v : Word) : vField (assembleFields op a b v) = v := by
  ext i hi
  simp only [vField, assembleFields, BitVec.getElem_extractLsb', BitVec.getLsbD_append]
  rw [if_pos (by omega), show 0 + i = i by omega, BitVec.getLsbD_eq_getElem hi]

/-- A word is its four fields (R62). -/
theorem assemble_fields (w : CmdWord) :
    assembleFields (opField w) (aField w) (bField w) (vField w) = w := by
  apply BitVec.eq_of_getLsbD_eq
  intro i hi
  simp only [assembleFields, opField, aField, bField, vField, BitVec.getLsbD_append,
    BitVec.getLsbD_extractLsb']
  split
  · next h => simp [h]
  · split
    · next h => simp [h]; congr 1; omega
    · split
      · next h => simp [h]; congr 1; omega
      · have h : i - 32 - 32 - 32 < 4 := by omega
        simp [h]; congr 1; omega

/-- The decoder on a word given by its fields (R62, R64, R65). -/
theorem decode_assemble (op : BitVec 4) (a b v : Word) : decode (assembleFields op a b v) =
    match op.toNat with
    | 0x0 => .reserved0
    | 0x1 => .new a
    | 0x2 => .filled a v
    | 0x3 => .fromBeats a
    | 0x4 => .get a
    | 0x5 => .set a v
    | 0x6 => .setr a b v
    | 0x7 => .iter
    | 0x8 => .mask
    | 0x9 => .len
    | 0xA => .reservedA
    | 0xB => .reservedB
    | 0xC => .reservedC
    | 0xD => .reservedD
    | 0xE => .reservedE
    | _ => .reservedF := by
  simp only [decode, opField_assemble, aField_assemble, bField_assemble, vField_assemble] <;> rfl

end Sys2Proof
end

