-- ==== Sys2Proof/Laws/State.lean ====
section
/-! SUPPORT. One lemma per field per named update of the state: what the update makes of the field. -/

namespace Sys2Proof.Machine

/-! ### respond -/

@[simp] theorem State.box_respond (s : State) (st : Status) (d : Word) : (s.respond st d).box = s.box := rfl
@[simp] theorem State.fault_respond (s : State) (st : Status) (d : Word) : (s.respond st d).fault = s.fault := rfl
@[simp] theorem State.cause_respond (s : State) (st : Status) (d : Word) : (s.respond st d).cause = s.cause := rfl
@[simp] theorem State.phase_respond (s : State) (st : Status) (d : Word) : (s.respond st d).phase = .resp := rfl
@[simp] theorem State.cnt_respond (s : State) (st : Status) (d : Word) : (s.respond st d).cnt = s.cnt := rfl
@[simp] theorem State.nreq_respond (s : State) (st : Status) (d : Word) : (s.respond st d).nreq = s.nreq := rfl
@[simp] theorem State.acc_respond (s : State) (st : Status) (d : Word) : (s.respond st d).acc = s.acc := rfl
@[simp] theorem State.rsp_respond (s : State) (st : Status) (d : Word) : (s.respond st d).rsp = st.code ++ d := rfl
@[simp] theorem State.cmd_respond (s : State) (st : Status) (d : Word) : (s.respond st d).cmd = s.cmd := rfl
@[simp] theorem State.wait_respond (s : State) (st : Status) (d : Word) : (s.respond st d).wait = s.wait := rfl
@[simp] theorem State.rest_respond (s : State) (st : Status) (d : Word) : (s.respond st d).rest = s.rest := rfl
@[simp] theorem State.done_respond (s : State) (st : Status) (d : Word) : (s.respond st d).done = s.done := rfl
@[simp] theorem State.tick_respond (s : State) (st : Status) (d : Word) : (s.respond st d).tick = s.tick := rfl
@[simp] theorem State.env_respond (s : State) (st : Status) (d : Word) : (s.respond st d).env = s.env := rfl

/-! ### commit -/

@[simp] theorem State.box_commit (s : State) (c : Container) : (s.commit c).box = c := rfl
@[simp] theorem State.fault_commit (s : State) (c : Container) : (s.commit c).fault = s.fault := rfl
@[simp] theorem State.cause_commit (s : State) (c : Container) : (s.commit c).cause = s.cause := rfl
@[simp] theorem State.phase_commit (s : State) (c : Container) : (s.commit c).phase = s.phase := rfl
@[simp] theorem State.cnt_commit (s : State) (c : Container) : (s.commit c).cnt = s.cnt := rfl
@[simp] theorem State.nreq_commit (s : State) (c : Container) : (s.commit c).nreq = s.nreq := rfl
@[simp] theorem State.acc_commit (s : State) (c : Container) : (s.commit c).acc = s.acc := rfl
@[simp] theorem State.rsp_commit (s : State) (c : Container) : (s.commit c).rsp = s.rsp := rfl
@[simp] theorem State.cmd_commit (s : State) (c : Container) : (s.commit c).cmd = s.cmd := rfl
@[simp] theorem State.wait_commit (s : State) (c : Container) : (s.commit c).wait = s.wait := rfl
@[simp] theorem State.rest_commit (s : State) (c : Container) : (s.commit c).rest = s.rest := rfl
@[simp] theorem State.done_commit (s : State) (c : Container) : (s.commit c).done = s.done := rfl
@[simp] theorem State.tick_commit (s : State) (c : Container) : (s.commit c).tick = s.tick := rfl
@[simp] theorem State.env_commit (s : State) (c : Container) : (s.commit c).env = s.env := rfl

/-! ### raise -/

@[simp] theorem State.box_raise (s : State) (c : Cause) : (s.raise c).box = s.box := rfl
@[simp] theorem State.fault_raise (s : State) (c : Cause) : (s.raise c).fault = true := rfl
@[simp] theorem State.cause_raise (s : State) (c : Cause) : (s.raise c).cause = if s.fault then s.cause else c.code := rfl
@[simp] theorem State.phase_raise (s : State) (c : Cause) : (s.raise c).phase = .resp := rfl
@[simp] theorem State.cnt_raise (s : State) (c : Cause) : (s.raise c).cnt = s.cnt := rfl
@[simp] theorem State.nreq_raise (s : State) (c : Cause) : (s.raise c).nreq = s.nreq := rfl
@[simp] theorem State.acc_raise (s : State) (c : Cause) : (s.raise c).acc = s.acc := rfl
@[simp] theorem State.rsp_raise (s : State) (c : Cause) : (s.raise c).rsp = c.code ++ (0 : Word) := rfl
@[simp] theorem State.cmd_raise (s : State) (c : Cause) : (s.raise c).cmd = s.cmd := rfl
@[simp] theorem State.wait_raise (s : State) (c : Cause) : (s.raise c).wait = s.wait := rfl
@[simp] theorem State.rest_raise (s : State) (c : Cause) : (s.raise c).rest = s.rest := rfl
@[simp] theorem State.done_raise (s : State) (c : Cause) : (s.raise c).done = s.done := rfl
@[simp] theorem State.tick_raise (s : State) (c : Cause) : (s.raise c).tick = s.tick := rfl
@[simp] theorem State.env_raise (s : State) (c : Cause) : (s.raise c).env = s.env := rfl

/-! ### startFrom -/

@[simp] theorem State.box_startFrom (s : State) (n : Word) : (s.startFrom n).box = s.box := rfl
@[simp] theorem State.fault_startFrom (s : State) (n : Word) : (s.startFrom n).fault = s.fault := rfl
@[simp] theorem State.cause_startFrom (s : State) (n : Word) : (s.startFrom n).cause = s.cause := rfl
@[simp] theorem State.phase_startFrom (s : State) (n : Word) : (s.startFrom n).phase = s.phase := rfl
@[simp] theorem State.cnt_startFrom (s : State) (n : Word) : (s.startFrom n).cnt = 0 := rfl
@[simp] theorem State.nreq_startFrom (s : State) (n : Word) : (s.startFrom n).nreq = n := rfl
@[simp] theorem State.acc_startFrom (s : State) (n : Word) : (s.startFrom n).acc = [] := rfl
@[simp] theorem State.rsp_startFrom (s : State) (n : Word) : (s.startFrom n).rsp = s.rsp := rfl
@[simp] theorem State.cmd_startFrom (s : State) (n : Word) : (s.startFrom n).cmd = s.cmd := rfl
@[simp] theorem State.wait_startFrom (s : State) (n : Word) : (s.startFrom n).wait = s.wait := rfl
@[simp] theorem State.rest_startFrom (s : State) (n : Word) : (s.startFrom n).rest = s.rest := rfl
@[simp] theorem State.done_startFrom (s : State) (n : Word) : (s.startFrom n).done = s.done := rfl
@[simp] theorem State.tick_startFrom (s : State) (n : Word) : (s.startFrom n).tick = s.tick := rfl
@[simp] theorem State.env_startFrom (s : State) (n : Word) : (s.startFrom n).env = s.env := rfl

/-! ### hardReset -/

@[simp] theorem State.box_hardReset (s : State) : (s.hardReset).box = State.reset.box := rfl
@[simp] theorem State.fault_hardReset (s : State) : (s.hardReset).fault = State.reset.fault := rfl
@[simp] theorem State.cause_hardReset (s : State) : (s.hardReset).cause = State.reset.cause := rfl
@[simp] theorem State.phase_hardReset (s : State) : (s.hardReset).phase = State.reset.phase := rfl
@[simp] theorem State.cnt_hardReset (s : State) : (s.hardReset).cnt = State.reset.cnt := rfl
@[simp] theorem State.nreq_hardReset (s : State) : (s.hardReset).nreq = State.reset.nreq := rfl
@[simp] theorem State.acc_hardReset (s : State) : (s.hardReset).acc = State.reset.acc := rfl
@[simp] theorem State.rsp_hardReset (s : State) : (s.hardReset).rsp = State.reset.rsp := rfl
@[simp] theorem State.cmd_hardReset (s : State) : (s.hardReset).cmd = State.reset.cmd := rfl
@[simp] theorem State.wait_hardReset (s : State) : (s.hardReset).wait = State.reset.wait := rfl
@[simp] theorem State.rest_hardReset (s : State) : (s.hardReset).rest = State.reset.rest := rfl
@[simp] theorem State.done_hardReset (s : State) : (s.hardReset).done = State.reset.done := rfl
@[simp] theorem State.tick_hardReset (s : State) : (s.hardReset).tick = s.tick := rfl
@[simp] theorem State.env_hardReset (s : State) : (s.hardReset).env = s.env := rfl

/-! ### noteOffers -/

@[simp] theorem State.box_noteOffers (s : State) (p : PortIn) : (s.noteOffers p).box = s.box := rfl
@[simp] theorem State.fault_noteOffers (s : State) (p : PortIn) : (s.noteOffers p).fault = s.fault := rfl
@[simp] theorem State.cause_noteOffers (s : State) (p : PortIn) : (s.noteOffers p).cause = s.cause := rfl
@[simp] theorem State.phase_noteOffers (s : State) (p : PortIn) : (s.noteOffers p).phase = s.phase := rfl
@[simp] theorem State.cnt_noteOffers (s : State) (p : PortIn) : (s.noteOffers p).cnt = s.cnt := rfl
@[simp] theorem State.nreq_noteOffers (s : State) (p : PortIn) : (s.noteOffers p).nreq = s.nreq := rfl
@[simp] theorem State.acc_noteOffers (s : State) (p : PortIn) : (s.noteOffers p).acc = s.acc := rfl
@[simp] theorem State.rsp_noteOffers (s : State) (p : PortIn) : (s.noteOffers p).rsp = s.rsp := rfl
@[simp] theorem State.cmd_noteOffers (s : State) (p : PortIn) : (s.noteOffers p).cmd = s.cmd := rfl
@[simp] theorem State.wait_noteOffers (s : State) (p : PortIn) : (s.noteOffers p).wait = s.wait := rfl
@[simp] theorem State.rest_noteOffers (s : State) (p : PortIn) : (s.noteOffers p).rest = s.rest := rfl
@[simp] theorem State.done_noteOffers (s : State) (p : PortIn) : (s.noteOffers p).done = s.done := rfl
@[simp] theorem State.tick_noteOffers (s : State) (p : PortIn) : (s.noteOffers p).tick = s.tick := rfl
@[simp] theorem State.input_noteOffers (s : State) (p : PortIn) : (s.noteOffers p).env.input = s.env.input := rfl
@[simp] theorem State.gaveCmd_noteOffers (s : State) (p : PortIn) : (s.noteOffers p).env.gaveCmd = s.env.gaveCmd := rfl
@[simp] theorem State.gaveDin_noteOffers (s : State) (p : PortIn) : (s.noteOffers p).env.gaveDin = s.env.gaveDin := rfl
@[simp] theorem State.gotDout_noteOffers (s : State) (p : PortIn) : (s.noteOffers p).env.gotDout = s.env.gotDout := rfl
@[simp] theorem State.gotRsp_noteOffers (s : State) (p : PortIn) : (s.noteOffers p).env.gotRsp = s.env.gotRsp := rfl
@[simp] theorem State.heldCmd_noteOffers (s : State) (p : PortIn) : (s.noteOffers p).env.heldCmd =
    stillHeld (s.outputs p.rst).cmdReady p.cmdValid p.cmdWord := rfl
@[simp] theorem State.heldDin_noteOffers (s : State) (p : PortIn) : (s.noteOffers p).env.heldDin =
    stillHeld (s.outputs p.rst).dinReady p.dinValid p.dinData := rfl

/-! ### dropInput -/

@[simp] theorem State.box_dropInput (s : State) : (s.dropInput).box = s.box := rfl
@[simp] theorem State.fault_dropInput (s : State) : (s.dropInput).fault = s.fault := rfl
@[simp] theorem State.cause_dropInput (s : State) : (s.dropInput).cause = s.cause := rfl
@[simp] theorem State.phase_dropInput (s : State) : (s.dropInput).phase = s.phase := rfl
@[simp] theorem State.cnt_dropInput (s : State) : (s.dropInput).cnt = s.cnt := rfl
@[simp] theorem State.nreq_dropInput (s : State) : (s.dropInput).nreq = s.nreq := rfl
@[simp] theorem State.acc_dropInput (s : State) : (s.dropInput).acc = s.acc := rfl
@[simp] theorem State.rsp_dropInput (s : State) : (s.dropInput).rsp = s.rsp := rfl
@[simp] theorem State.cmd_dropInput (s : State) : (s.dropInput).cmd = s.cmd := rfl
@[simp] theorem State.wait_dropInput (s : State) : (s.dropInput).wait = s.wait := rfl
@[simp] theorem State.rest_dropInput (s : State) : (s.dropInput).rest = s.rest := rfl
@[simp] theorem State.done_dropInput (s : State) : (s.dropInput).done = s.done := rfl
@[simp] theorem State.tick_dropInput (s : State) : (s.dropInput).tick = s.tick := rfl
@[simp] theorem State.env_dropInput (s : State) : (s.dropInput).env = { s.env with input := s.env.input.tail } := rfl

/-! ### accept -/

@[simp] theorem State.box_accept (s : State) (w : CmdWord) : (s.accept w).box = s.box := rfl
@[simp] theorem State.fault_accept (s : State) (w : CmdWord) : (s.accept w).fault = s.fault := rfl
@[simp] theorem State.cause_accept (s : State) (w : CmdWord) : (s.accept w).cause = s.cause := rfl
@[simp] theorem State.phase_accept (s : State) (w : CmdWord) : (s.accept w).phase = .exec := rfl
@[simp] theorem State.cnt_accept (s : State) (w : CmdWord) : (s.accept w).cnt = s.cnt := rfl
@[simp] theorem State.nreq_accept (s : State) (w : CmdWord) : (s.accept w).nreq = s.nreq := rfl
@[simp] theorem State.acc_accept (s : State) (w : CmdWord) : (s.accept w).acc = s.acc := rfl
@[simp] theorem State.rsp_accept (s : State) (w : CmdWord) : (s.accept w).rsp = s.rsp := rfl
@[simp] theorem State.cmd_accept (s : State) (w : CmdWord) : (s.accept w).cmd = w := rfl
@[simp] theorem State.wait_accept (s : State) (w : CmdWord) : (s.accept w).wait = Config.cyclesBefore s.tick := rfl
@[simp] theorem State.rest_accept (s : State) (w : CmdWord) : (s.accept w).rest = Config.cyclesAfter s.tick := rfl
@[simp] theorem State.done_accept (s : State) (w : CmdWord) : (s.accept w).done = none := rfl
@[simp] theorem State.tick_accept (s : State) (w : CmdWord) : (s.accept w).tick = s.tick + 1 := rfl
@[simp] theorem State.env_accept (s : State) (w : CmdWord) : (s.accept w).env =
    { s.env with gaveCmd := s.env.gaveCmd ++ [w] } := rfl

/-! ### addBeat -/

@[simp] theorem State.box_addBeat (s : State) (d : Word) : (s.addBeat d).box = s.box := rfl
@[simp] theorem State.fault_addBeat (s : State) (d : Word) : (s.addBeat d).fault = s.fault := rfl
@[simp] theorem State.cause_addBeat (s : State) (d : Word) : (s.addBeat d).cause = s.cause := rfl
@[simp] theorem State.phase_addBeat (s : State) (d : Word) : (s.addBeat d).phase = s.phase := rfl
@[simp] theorem State.cnt_addBeat (s : State) (d : Word) : (s.addBeat d).cnt = s.cnt + 1 := rfl
@[simp] theorem State.nreq_addBeat (s : State) (d : Word) : (s.addBeat d).nreq = s.nreq := rfl
@[simp] theorem State.acc_addBeat (s : State) (d : Word) : (s.addBeat d).acc = s.acc ++ [d] := rfl
@[simp] theorem State.rsp_addBeat (s : State) (d : Word) : (s.addBeat d).rsp = s.rsp := rfl
@[simp] theorem State.cmd_addBeat (s : State) (d : Word) : (s.addBeat d).cmd = s.cmd := rfl
@[simp] theorem State.wait_addBeat (s : State) (d : Word) : (s.addBeat d).wait = s.wait := rfl
@[simp] theorem State.rest_addBeat (s : State) (d : Word) : (s.addBeat d).rest = s.rest := rfl
@[simp] theorem State.done_addBeat (s : State) (d : Word) : (s.addBeat d).done = s.done := rfl
@[simp] theorem State.tick_addBeat (s : State) (d : Word) : (s.addBeat d).tick = s.tick := rfl
@[simp] theorem State.env_addBeat (s : State) (d : Word) : (s.addBeat d).env = { s.env with gaveDin := s.env.gaveDin ++ [d] } := rfl

/-! ### deliver -/

@[simp] theorem State.box_deliver (s : State) : (s.deliver).box = s.box := rfl
@[simp] theorem State.fault_deliver (s : State) : (s.deliver).fault = s.fault := rfl
@[simp] theorem State.cause_deliver (s : State) : (s.deliver).cause = s.cause := rfl
@[simp] theorem State.phase_deliver (s : State) : (s.deliver).phase = .idle := rfl
@[simp] theorem State.cnt_deliver (s : State) : (s.deliver).cnt = s.cnt := rfl
@[simp] theorem State.nreq_deliver (s : State) : (s.deliver).nreq = s.nreq := rfl
@[simp] theorem State.acc_deliver (s : State) : (s.deliver).acc = s.acc := rfl
@[simp] theorem State.rsp_deliver (s : State) : (s.deliver).rsp = s.rsp := rfl
@[simp] theorem State.cmd_deliver (s : State) : (s.deliver).cmd = s.cmd := rfl
@[simp] theorem State.wait_deliver (s : State) : (s.deliver).wait = s.wait := rfl
@[simp] theorem State.rest_deliver (s : State) : (s.deliver).rest = s.rest := rfl
@[simp] theorem State.done_deliver (s : State) : (s.deliver).done = s.done := rfl
@[simp] theorem State.tick_deliver (s : State) : (s.deliver).tick = s.tick := rfl
@[simp] theorem State.env_deliver (s : State) : (s.deliver).env = { s.env with gotRsp := s.env.gotRsp ++ [s.rsp] } := rfl

/-! ### holding -/

@[simp] theorem State.box_holding (s : State) (w : CmdWord) : (s.holding w).box = s.box := rfl
@[simp] theorem State.fault_holding (s : State) (w : CmdWord) : (s.holding w).fault = s.fault := rfl
@[simp] theorem State.cause_holding (s : State) (w : CmdWord) : (s.holding w).cause = s.cause := rfl
@[simp] theorem State.phase_holding (s : State) (w : CmdWord) : (s.holding w).phase = .exec := rfl
@[simp] theorem State.cnt_holding (s : State) (w : CmdWord) : (s.holding w).cnt = s.cnt := rfl
@[simp] theorem State.nreq_holding (s : State) (w : CmdWord) : (s.holding w).nreq = s.nreq := rfl
@[simp] theorem State.acc_holding (s : State) (w : CmdWord) : (s.holding w).acc = s.acc := rfl
@[simp] theorem State.rsp_holding (s : State) (w : CmdWord) : (s.holding w).rsp = s.rsp := rfl
@[simp] theorem State.cmd_holding (s : State) (w : CmdWord) : (s.holding w).cmd = w := rfl
@[simp] theorem State.wait_holding (s : State) (w : CmdWord) : (s.holding w).wait = 0 := rfl
@[simp] theorem State.rest_holding (s : State) (w : CmdWord) : (s.holding w).rest = 0 := rfl
@[simp] theorem State.done_holding (s : State) (w : CmdWord) : (s.holding w).done = none := rfl
@[simp] theorem State.tick_holding (s : State) (w : CmdWord) : (s.holding w).tick = s.tick := rfl
@[simp] theorem State.env_holding (s : State) (w : CmdWord) : (s.holding w).env = { s.env with input := [] } := rfl

end Sys2Proof.Machine
end

