-- ==== Sys2Proof/Laws/Exec.lean ====
section
/-! SUPPORT. The shared operations of a command's work, said once: the order of checks (R155), and
that whatever answers a next state answers a good one. -/

namespace Sys2Proof.Machine

/-! ### The order of checks (R155) -/

theorem State.unlessHalted_halted {s : State} (ok : State) (h : s.fault = true) :
    s.unlessHalted ok = s.respond .halted 0 := by simp [State.unlessHalted, h]

theorem State.unlessHalted_running {s : State} (ok : State) (h : s.fault = false) :
    s.unlessHalted ok = ok := by simp [State.unlessHalted, h]

theorem State.checked_halted {s : State} (bad : Bool) (c : Cause) (ok : State) (h : s.fault = true) :
    s.checked bad c ok = s.respond .halted 0 := State.unlessHalted_halted _ h

theorem State.checked_bad {s : State} {bad : Bool} (c : Cause) (ok : State) (h : s.fault = false)
    (hb : bad = true) : s.checked bad c ok = s.raise c := by
  simp [State.checked, State.unlessHalted, h, hb]

theorem State.checked_good {s : State} {bad : Bool} (c : Cause) (ok : State) (h : s.fault = false)
    (hb : bad = false) : s.checked bad c ok = ok := by
  simp [State.checked, State.unlessHalted, h, hb]

/-- Everything a checked command can answer: the halted answer, its fault, or its effect. -/
theorem State.checked_cases (s : State) (bad : Bool) (c : Cause) (ok : State) :
    (s.fault = true ∧ s.checked bad c ok = s.respond .halted 0) ∨
    (s.fault = false ∧ bad = true ∧ s.checked bad c ok = s.raise c) ∨
    (s.fault = false ∧ bad = false ∧ s.checked bad c ok = ok) := by
  cases hf : s.fault
  · cases bad
    · exact .inr (.inr ⟨rfl, rfl, State.checked_good c ok hf rfl⟩)
    · exact .inr (.inl ⟨rfl, rfl, State.checked_bad c ok hf rfl⟩)
  · exact .inl ⟨rfl, State.checked_halted bad c ok hf⟩

theorem State.unlessHalted_cases (s ok : State) :
    (s.fault = true ∧ s.unlessHalted ok = s.respond .halted 0) ∨
    (s.fault = false ∧ s.unlessHalted ok = ok) := by
  cases hf : s.fault
  · exact .inr ⟨rfl, State.unlessHalted_running ok hf⟩
  · exact .inl ⟨rfl, State.unlessHalted_halted ok hf⟩

@[simp] theorem overCapacity_eq_false {lmax a : Word} : overCapacity lmax a = false ↔ a ≤ lmax := by
  simp [overCapacity]

@[simp] theorem overCapacity_eq_true {lmax a : Word} : overCapacity lmax a = true ↔ lmax < a := by
  simp [overCapacity]

@[simp] theorem badIndex_eq_false {len a : Word} : badIndex len a = false ↔ a < len := by
  simp [badIndex]

@[simp] theorem badIndex_eq_true {len a : Word} : badIndex len a = true ↔ len ≤ a := by
  simp [badIndex]

@[simp] theorem badRange_eq_false {len a b : Word} : badRange len a b = false ↔ a ≤ b ∧ b ≤ len := by
  simp [badRange]

@[simp] theorem badRange_eq_true {len a b : Word} : badRange len a b = true ↔ b < a ∨ len < b := by
  simp [badRange]

/-! ### Good states -/

theorem State.nextPhase_of_done_none {s : State} (h : s.done = none) : s.nextPhase = s.phase := by
  simp [State.nextPhase, h]

theorem legal_ok (d : Word) : LegalResponse (Status.ok.code ++ d) :=
  ⟨.ok, d, rfl, fun h => absurd rfl h⟩

theorem legal_zero (st : Status) : LegalResponse (st.code ++ (0 : Word)) := ⟨st, 0, rfl, fun _ => rfl⟩

/-- A state that is waiting to deliver a legal response is good when its container, FAULT and CAUSE are. -/
theorem State.good_resp {s : State} (hb : s.box.Good) (hcap : s.box.len ≤ Config.lmax)
    (hc : if s.fault then ∃ c : Cause, s.cause = c.code else s.cause = 0) (hd : s.done = none)
    (hp : s.phase = .resp) (hr : LegalResponse s.rsp) : s.Good where
  box := hb
  capped := hcap
  cause := hc
  leaving := fun p h => by rw [hd] at h; cases h
  loading := fun h => by rw [State.nextPhase_of_done_none hd, hp] at h; cases h
  streaming := fun h => by rw [State.nextPhase_of_done_none hd, hp] at h; cases h
  responding := fun _ => hr

/-- A state that is taking the beats of a FROM is good when its counters are (R24, R25). -/
theorem State.good_load {s : State} (hb : s.box.Good) (hcap : s.box.len ≤ Config.lmax)
    (hc : if s.fault then ∃ c : Cause, s.cause = c.code else s.cause = 0) (hd : s.done = none)
    (hp : s.phase = .load) (hf : s.fault = false) (hlt : s.cnt < s.nreq) (hq : s.nreq ≤ Config.lmax)
    (hl : s.acc.length = s.cnt.toNat) : s.Good where
  box := hb
  capped := hcap
  cause := hc
  leaving := fun p h => by rw [hd] at h; cases h
  loading := fun _ => ⟨hf, hlt, hq, hl⟩
  streaming := fun h => by rw [State.nextPhase_of_done_none hd, hp] at h; cases h
  responding := fun h => by rw [State.nextPhase_of_done_none hd, hp] at h; cases h

/-- A state that is sending the beats of an ITER is good when its counter is (R24). -/
theorem State.good_stream {s : State} (hb : s.box.Good) (hcap : s.box.len ≤ Config.lmax)
    (hc : if s.fault then ∃ c : Cause, s.cause = c.code else s.cause = 0) (hd : s.done = none)
    (hp : s.phase = .stream) (hf : s.fault = false) (hlt : s.cnt < s.box.len) : s.Good where
  box := hb
  capped := hcap
  cause := hc
  leaving := fun p h => by rw [hd] at h; cases h
  loading := fun h => by rw [State.nextPhase_of_done_none hd, hp] at h; cases h
  streaming := fun _ => ⟨hf, hlt⟩
  responding := fun h => by rw [State.nextPhase_of_done_none hd, hp] at h; cases h

theorem State.Good.respond {s : State} (h : s.Good) (hd : s.done = none) (st : Status) (d : Word)
    (hr : LegalResponse (st.code ++ d)) : (s.respond st d).Good :=
  State.good_resp h.box h.capped h.cause hd rfl hr

theorem State.Good.raise {s : State} (h : s.Good) (hd : s.done = none) (hf : s.fault = false) (c : Cause) :
    (s.raise c).Good :=
  State.good_resp h.box h.capped
    (by simp only [State.fault_raise, State.cause_raise, hf, if_true]; exact ⟨c, rfl⟩) hd rfl
    (legal_zero (.err c))

theorem State.Good.checked {s : State} (h : s.Good) (hd : s.done = none) {bad : Bool} {c : Cause}
    {ok : State} (hok : s.fault = false → bad = false → ok.Good) : (s.checked bad c ok).Good := by
  rcases s.checked_cases bad c ok with ⟨_, e⟩ | ⟨hf, _, e⟩ | ⟨hf, hb, e⟩ <;> rw [e]
  · exact h.respond hd .halted 0 (legal_zero .halted)
  · exact h.raise hd hf c
  · exact hok hf hb

theorem State.Good.unlessHalted {s : State} (h : s.Good) (hd : s.done = none) {ok : State}
    (hok : s.fault = false → ok.Good) : (s.unlessHalted ok).Good := by
  rcases s.unlessHalted_cases ok with ⟨_, e⟩ | ⟨hf, e⟩ <;> rw [e]
  · exact h.respond hd .halted 0 (legal_zero .halted)
  · exact hok hf

theorem State.Good.commit_ok {s : State} (h : s.Good) (hd : s.done = none) {c : Container} (hc : c.Good)
    (hcap : c.len ≤ Config.lmax) : ((s.commit c).respond .ok 0).Good :=
  State.good_resp hc hcap h.cause hd rfl (legal_ok 0)

/-- Fault entry of a block that is not halted (R153). -/
theorem State.raise_running {s : State} (h : s.fault = false) (c : Cause) :
    s.raise c = { s with fault := true, cause := c.code, rsp := c.code ++ 0#32, phase := .resp } := by
  simp [State.raise, State.respond, h, Status.code]

end Sys2Proof.Machine
end

