-- ==== Sys2Proof/Laws/PerInstr.lean ====
section
/-! SUPPORT. Statements made per instruction: the family Encoding says that an instruction's word has
the instruction's opcode and decodes to the instruction (R62 to R64). -/

namespace Sys2Proof.Laws.Encoding

/-- The word of `i` carries its opcode in [99:96] and decodes to `i`. -/
def Statement (i : Instr) : Prop := opField (encode i) = i.opcode ∧ decode (encode i) = i

theorem new (length : Word) : Statement (.new length) :=
  ⟨opField_assemble _ _ _ _, by simp [decode, encode, Instr.opcode, opField_assemble, aField_assemble]⟩

theorem filled (length value : Word) : Statement (.filled length value) :=
  ⟨opField_assemble _ _ _ _, by simp [decode, encode, Instr.opcode, opField_assemble, aField_assemble, vField_assemble]⟩

theorem fromBeats (count : Word) : Statement (.fromBeats count) :=
  ⟨opField_assemble _ _ _ _, by simp [decode, encode, Instr.opcode, opField_assemble, aField_assemble]⟩

theorem get (index : Word) : Statement (.get index) :=
  ⟨opField_assemble _ _ _ _, by simp [decode, encode, Instr.opcode, opField_assemble, aField_assemble]⟩

theorem set (index value : Word) : Statement (.set index value) :=
  ⟨opField_assemble _ _ _ _, by simp [decode, encode, Instr.opcode, opField_assemble, aField_assemble, vField_assemble]⟩

theorem setr (start stop value : Word) : Statement (.setr start stop value) :=
  ⟨opField_assemble _ _ _ _, by simp [decode, encode, Instr.opcode, opField_assemble, aField_assemble, bField_assemble, vField_assemble]⟩

theorem iter : Statement .iter :=
  ⟨opField_assemble _ _ _ _, by simp [decode, encode, Instr.opcode, opField_assemble]⟩

theorem mask : Statement .mask :=
  ⟨opField_assemble _ _ _ _, by simp [decode, encode, Instr.opcode, opField_assemble]⟩

theorem len : Statement .len :=
  ⟨opField_assemble _ _ _ _, by simp [decode, encode, Instr.opcode, opField_assemble]⟩

theorem reserved0 : Statement .reserved0 :=
  ⟨opField_assemble _ _ _ _, by simp [decode, encode, Instr.opcode, opField_assemble]⟩

theorem reservedA : Statement .reservedA :=
  ⟨opField_assemble _ _ _ _, by simp [decode, encode, Instr.opcode, opField_assemble]⟩

theorem reservedB : Statement .reservedB :=
  ⟨opField_assemble _ _ _ _, by simp [decode, encode, Instr.opcode, opField_assemble]⟩

theorem reservedC : Statement .reservedC :=
  ⟨opField_assemble _ _ _ _, by simp [decode, encode, Instr.opcode, opField_assemble]⟩

theorem reservedD : Statement .reservedD :=
  ⟨opField_assemble _ _ _ _, by simp [decode, encode, Instr.opcode, opField_assemble]⟩

theorem reservedE : Statement .reservedE :=
  ⟨opField_assemble _ _ _ _, by simp [decode, encode, Instr.opcode, opField_assemble]⟩

theorem reservedF : Statement .reservedF :=
  ⟨opField_assemble _ _ _ _, by simp [decode, encode, Instr.opcode, opField_assemble]⟩

end Sys2Proof.Laws.Encoding
end

