-- ==== Sys2Proof/Laws/Step.lean ====
section
/-! SUPPORT. What the work of a command and one clock cycle can do, said once per operation: what
each keeps, and that each keeps a good state good. -/

namespace Sys2Proof.Machine

/-! ### The work of a command -/

/-- What the model holds around a command, its work does not touch; the phase it leaves is one of the
three R23 gives. -/
structure State.SameAround (s t : State) : Prop where
  cmd : t.cmd = s.cmd
  wait : t.wait = s.wait
  rest : t.rest = s.rest
  done : t.done = s.done
  tick : t.tick = s.tick
  env : t.env = s.env
  phase : t.phase = .load ∨ t.phase = .stream ∨ t.phase = .resp

theorem State.SameAround.respond (s : State) (st : Status) (d : Word) : s.SameAround (s.respond st d) :=
  ⟨rfl, rfl, rfl, rfl, rfl, rfl, .inr (.inr rfl)⟩

theorem State.SameAround.raise (s : State) (c : Cause) : s.SameAround (s.raise c) :=
  ⟨rfl, rfl, rfl, rfl, rfl, rfl, .inr (.inr rfl)⟩

theorem State.SameAround.commit_ok (s : State) (c : Container) :
    s.SameAround ((s.commit c).respond .ok 0) := ⟨rfl, rfl, rfl, rfl, rfl, rfl, .inr (.inr rfl)⟩

theorem State.SameAround.checked {s ok : State} (bad : Bool) (c : Cause) (h : s.SameAround ok) :
    s.SameAround (s.checked bad c ok) := by
  rcases s.checked_cases bad c ok with ⟨_, e⟩ | ⟨_, _, e⟩ | ⟨_, _, e⟩ <;> rw [e]
  · exact .respond s _ _
  · exact .raise s _
  · exact h

theorem State.SameAround.unlessHalted {s ok : State} (h : s.SameAround ok) :
    s.SameAround (s.unlessHalted ok) := by
  rcases s.unlessHalted_cases ok with ⟨_, e⟩ | ⟨_, e⟩ <;> rw [e]
  · exact .respond s _ _
  · exact h

theorem State.sameAround_startIter (s : State) : s.SameAround s.startIter := by
  unfold State.startIter
  split
  · exact ⟨rfl, rfl, rfl, rfl, rfl, rfl, .inr (.inr rfl)⟩
  · exact ⟨rfl, rfl, rfl, rfl, rfl, rfl, .inr (.inl rfl)⟩

theorem sameAround_fromAt (lmax n : Word) (s : State) : s.SameAround (fromAt lmax n s) := by
  unfold fromAt
  apply State.SameAround.checked
  split
  · exact ⟨rfl, rfl, rfl, rfl, rfl, rfl, .inr (.inr rfl)⟩
  · exact ⟨rfl, rfl, rfl, rfl, rfl, rfl, .inl rfl⟩

/-- Every instruction's work answers a next state, and touches only the registers of R16. -/
theorem exec_next (i : Instr) (s : State) : ∃ t, exec i s = .next t ∧ s.SameAround t := by
  cases i with
  | new n => exact ⟨_, rfl, .checked _ _ (.commit_ok s _)⟩
  | filled n v => exact ⟨_, rfl, .checked _ _ (.commit_ok s _)⟩
  | fromBeats n => exact ⟨_, rfl, sameAround_fromAt _ _ s⟩
  | get k => exact ⟨_, rfl, .checked _ _ (.respond s _ _)⟩
  | set k v => exact ⟨_, rfl, .checked _ _ (.commit_ok s _)⟩
  | setr a b v => exact ⟨_, rfl, .checked _ _ (.commit_ok s _)⟩
  | iter => exact ⟨_, rfl, .unlessHalted s.sameAround_startIter⟩
  | mask => exact ⟨_, rfl, .unlessHalted (.respond s _ _)⟩
  | len => exact ⟨_, rfl, .unlessHalted (.respond s _ _)⟩
  | reserved0 => exact ⟨_, rfl, .unlessHalted (.raise s _)⟩
  | reservedA => exact ⟨_, rfl, .unlessHalted (.raise s _)⟩
  | reservedB => exact ⟨_, rfl, .unlessHalted (.raise s _)⟩
  | reservedC => exact ⟨_, rfl, .unlessHalted (.raise s _)⟩
  | reservedD => exact ⟨_, rfl, .unlessHalted (.raise s _)⟩
  | reservedE => exact ⟨_, rfl, .unlessHalted (.raise s _)⟩
  | reservedF => exact ⟨_, rfl, .unlessHalted (.raise s _)⟩

theorem State.Good.fromAt {s : State} (h : s.Good) (hd : s.done = none) (n : Word) :
    (fromAt Config.lmax n s).Good := by
  refine h.checked hd fun hf hn => ?_
  rw [overCapacity_eq_false] at hn
  split
  · exact State.good_resp (Container.good_ofSeq (by decide)) (Nat.zero_le _) h.cause hd rfl (legal_ok 0)
  · next h0 =>
    refine State.good_load h.box h.capped h.cause hd rfl hf ?_ hn rfl
    show (0 : Word).toNat < n.toNat
    exact Nat.pos_of_ne_zero fun e => h0 (BitVec.eq_of_toNat_eq e)

theorem State.Good.startIter {s : State} (h : s.Good) (hd : s.done = none) (hf : s.fault = false) :
    s.startIter.Good := by
  unfold State.startIter
  split
  · exact State.good_resp h.box h.capped h.cause hd rfl (legal_ok 0)
  · next h0 =>
    refine State.good_stream h.box h.capped h.cause hd rfl hf ?_
    show (0 : Word).toNat < s.box.len.toNat
    exact Nat.pos_of_ne_zero fun e => h0 (BitVec.eq_of_toNat_eq e)

/-- The work of any command keeps a good state good. -/
theorem exec_good {i : Instr} {s t : State} (h : s.Good) (hd : s.done = none) (e : exec i s = .next t) :
    t.Good := by
  cases i with
  | new n =>
    cases e
    exact h.checked hd fun _ hn => h.commit_ok hd (Container.good_zeros n) (overCapacity_eq_false.mp hn)
  | filled n v =>
    cases e
    exact h.checked hd fun _ hn => h.commit_ok hd (Container.good_filled n v) (overCapacity_eq_false.mp hn)
  | fromBeats n => cases e; exact h.fromAt hd n
  | get k => cases e; exact h.checked hd fun _ _ => h.respond hd .ok _ (legal_ok _)
  | set k v =>
    cases e
    exact h.checked hd fun _ hk => h.commit_ok hd (Container.good_set h.box (badIndex_eq_false.mp hk) v)
      (by rw [Container.len_set]; exact h.capped)
  | setr a b v =>
    cases e
    exact h.checked hd fun _ hr => h.commit_ok hd
      (Container.good_setr h.box (badRange_eq_false.mp hr).1 (badRange_eq_false.mp hr).2 v)
      (by rw [Container.len_setr]; exact h.capped)
  | iter => cases e; exact h.unlessHalted hd fun hf => h.startIter hd hf
  | mask => cases e; exact h.unlessHalted hd fun _ => h.respond hd .ok _ (legal_ok _)
  | len => cases e; exact h.unlessHalted hd fun _ => h.respond hd .ok _ (legal_ok _)
  | reserved0 => cases e; exact h.unlessHalted hd fun hf => h.raise hd hf _
  | reservedA => cases e; exact h.unlessHalted hd fun hf => h.raise hd hf _
  | reservedB => cases e; exact h.unlessHalted hd fun hf => h.raise hd hf _
  | reservedC => cases e; exact h.unlessHalted hd fun hf => h.raise hd hf _
  | reservedD => cases e; exact h.unlessHalted hd fun hf => h.raise hd hf _
  | reservedE => cases e; exact h.unlessHalted hd fun hf => h.raise hd hf _
  | reservedF => cases e; exact h.unlessHalted hd fun hf => h.raise hd hf _

/-! ### The pieces of a clock cycle -/

/-- A good state stays good when only the model's counters and the host's side change. -/
theorem State.Good.of_same {s t : State} (h : s.Good) (hb : t.box = s.box) (hf : t.fault = s.fault)
    (hc : t.cause = s.cause) (hp : t.phase = s.phase) (hn : t.cnt = s.cnt) (hq : t.nreq = s.nreq)
    (ha : t.acc = s.acc) (hr : t.rsp = s.rsp) (hd : t.done = s.done) : t.Good := by
  have hnp : t.nextPhase = s.nextPhase := by rw [State.nextPhase, State.nextPhase, hd, hp]
  refine ⟨?_, ?_, ?_, ?_, ?_, ?_, ?_⟩
  · rw [hb]; exact h.box
  · rw [hb]; exact h.capped
  · rw [hf, hc]; exact h.cause
  · rw [hd, hp]; exact h.leaving
  · rw [hnp, hf, hn, hq, ha]; exact h.loading
  · rw [hnp, hf, hn, hb]; exact h.streaming
  · rw [hnp, hr]; exact h.responding

theorem State.Good.noteOffers {s : State} (h : s.Good) (p : PortIn) : (s.noteOffers p).Good :=
  h.of_same rfl rfl rfl rfl rfl rfl rfl rfl rfl

theorem State.Good.dropInput {s : State} (h : s.Good) : s.dropInput.Good :=
  h.of_same rfl rfl rfl rfl rfl rfl rfl rfl rfl

/-- A good state stays good when the phase the block is in, or is going to, does not change. -/
theorem State.Good.rephase {s : State} (h : s.Good) (p : Phase) (d : Option Phase) (r : Nat)
    (hn : d.getD p = s.nextPhase)
    (hl : ∀ q, d = some q → p = .exec ∧ (q = .load ∨ q = .stream ∨ q = .resp)) :
    State.Good { s with phase := p, done := d, rest := r } := by
  refine ⟨h.box, h.capped, h.cause, hl, fun e => h.loading ?_, fun e => h.streaming ?_,
    fun e => h.responding ?_⟩
  all_goals exact hn.symm.trans e

theorem State.Good.settle {s : State} (h : s.Good) (hd : s.done = none)
    (hp : s.phase = .load ∨ s.phase = .stream ∨ s.phase = .resp) : s.settle.Good := by
  unfold State.settle
  split
  · exact h
  · refine h.rephase .exec (some s.phase) _ ?_ fun q e => ?_
    · rw [State.nextPhase_of_done_none hd]; rfl
    · cases e; exact ⟨rfl, hp⟩

/-- IDLE asks nothing of CNT, NREQ, ACC and RSP. -/
theorem State.good_quiet {s : State} (hb : s.box.Good) (hcap : s.box.len ≤ Config.lmax)
    (hc : if s.fault then ∃ c : Cause, s.cause = c.code else s.cause = 0) (hd : s.done = none)
    (hp : s.phase = .idle ∨ s.phase = .exec) : s.Good := by
  have hne : ∀ q, q = Phase.load ∨ q = .stream ∨ q = .resp → s.nextPhase ≠ q := by
    rw [State.nextPhase_of_done_none hd]
    rcases hp with hp | hp <;> rw [hp] <;> rintro q (rfl | rfl | rfl) <;> decide
  exact ⟨hb, hcap, hc, fun p e => absurd (hd.symm.trans e) (by simp), fun e => absurd e (hne _ (.inl rfl)),
    fun e => absurd e (hne _ (.inr (.inl rfl))), fun e => absurd e (hne _ (.inr (.inr rfl)))⟩

theorem State.Good.accept {s : State} (h : s.Good) (w : CmdWord) : (s.accept w).Good :=
  State.good_quiet h.box h.capped h.cause rfl (.inr rfl)

theorem State.Good.deliver {s : State} (h : s.Good) (hp : s.phase = .resp) : s.deliver.Good := by
  refine State.good_quiet h.box h.capped h.cause ?_ (.inl rfl)
  show s.done = none
  cases hd : s.done with
  | none => rfl
  | some q => have := (h.leaving q hd).1; rw [hp] at this; cases this

theorem State.good_reset : State.reset.Good :=
  State.good_quiet ⟨rfl, rfl, rfl, fun _ h => by cases h⟩ (Nat.zero_le _) rfl rfl (.inl rfl)

theorem State.good_hardReset (s : State) : s.hardReset.Good :=
  State.good_reset.of_same rfl rfl rfl rfl rfl rfl rfl rfl rfl

theorem State.Good.done_none {s : State} (h : s.Good) (hp : s.phase ≠ .exec) : s.done = none := by
  cases hd : s.done with
  | none => rfl
  | some q => exact absurd (h.leaving q hd).1 hp

theorem toNat_succ_of_lt {a b : Word} (h : a < b) : (a + 1).toNat = a.toNat + 1 := by
  have h1 : a.toNat < b.toNat := h
  have h2 := b.isLt
  have h3 : (1 : Word).toNat = 1 := rfl
  rw [BitVec.toNat_add, h3]
  omega

theorem State.Good.takeBeat {s : State} (h : s.Good) (hp : s.phase = .load) (d : Word) :
    (s.takeBeat d).Good := by
  have hd := h.done_none (by rw [hp]; decide)
  obtain ⟨hf, hlt, hcap, hlen⟩ := h.loading (by rw [State.nextPhase_of_done_none hd, hp])
  have hs := toNat_succ_of_lt hlt
  have hq := s.nreq.isLt
  have hlt' : s.cnt.toNat < s.nreq.toNat := hlt
  unfold State.takeBeat
  split
  · next hlast =>
    have hle : (s.acc ++ [d]).length = s.nreq.toNat := by
      rw [← hlast, hs, List.length_append, hlen]; rfl
    refine State.good_resp (Container.good_ofSeq (by omega)) ?_ h.cause hd rfl (legal_ok 0)
    show (BitVec.ofNat 32 (s.acc ++ [d]).length).toNat ≤ Config.lmax.toNat
    rw [toNat_ofNat_length (by omega), hle]; exact hcap
  · next hne =>
    have hne' : s.cnt.toNat + 1 ≠ s.nreq.toNat := fun e =>
      hne (BitVec.eq_of_toNat_eq (by rw [hs]; exact e))
    refine State.good_load h.box h.capped h.cause hd hp hf ?_ hcap ?_
    · show (s.cnt + 1).toNat < s.nreq.toNat
      omega
    · show (s.acc ++ [d]).length = (s.cnt + 1).toNat
      rw [hs, List.length_append, hlen]; rfl

theorem State.Good.sendBeat {s : State} (h : s.Good) (hp : s.phase = .stream) : s.sendBeat.Good := by
  have hd := h.done_none (by rw [hp]; decide)
  obtain ⟨hf, hlt⟩ := h.streaming (by rw [State.nextPhase_of_done_none hd, hp])
  have hs := toNat_succ_of_lt hlt
  have hlt' : s.cnt.toNat < s.box.len.toNat := hlt
  have hq := s.box.len.isLt
  unfold State.sendBeat
  split
  · exact State.good_resp h.box h.capped h.cause hd rfl (legal_ok 0)
  · next hne =>
    have h1 : (1 : Word).toNat = 1 := rfl
    have hne' : s.cnt.toNat + 1 ≠ s.box.len.toNat := fun e => hne (BitVec.eq_of_toNat_eq (by
      rw [BitVec.toNat_sub, h1]; omega))
    refine State.good_stream h.box h.capped h.cause hd hp hf ?_
    show (s.cnt + 1).toNat < s.box.len.toNat
    omega

/-- What one EXEC cycle can answer (R23): it leaves EXEC, stays after the work, does the work, or waits
before it. -/
theorem State.execCycle_cases (s : State) :
    (∃ p, s.done = some p ∧ s.rest = 0 ∧ s.execCycle = .next { s with phase := p, done := none }) ∨
    (∃ p, s.done = some p ∧ s.rest ≠ 0 ∧ s.execCycle = .next { s with rest := s.rest - 1 }) ∨
    (s.done = none ∧ s.wait = 0 ∧
      ∃ t, exec (decode s.cmd) s = .next t ∧ s.SameAround t ∧ s.execCycle = .next t.settle) ∨
    (s.done = none ∧ s.wait ≠ 0 ∧ s.execCycle = .next { s with wait := s.wait - 1 }) := by
  unfold State.execCycle
  split
  · next p hd =>
    split
    · next hr => exact .inl ⟨p, hd, hr, rfl⟩
    · next hr => exact .inr (.inl ⟨p, hd, hr, rfl⟩)
  · next hd =>
    split
    · next hw =>
      obtain ⟨t, e, hsame⟩ := exec_next (decode s.cmd) s
      exact .inr (.inr (.inl ⟨hd, hw, t, e, hsame, by rw [e]; rfl⟩))
    · next hw => exact .inr (.inr (.inr ⟨hd, hw, rfl⟩))

/-! ### One clock cycle -/

/-- What a cycle without reset and without a broken handshake can answer, phase by phase (R23, R61). -/
theorem State.advance_cases (p : PortIn) (s : State) :
    (s.phase = .idle ∧ s.advance p = .next (if p.cmdValid then s.accept p.cmdWord else s)) ∨
    (s.phase = .exec ∧ s.advance p = s.execCycle) ∨
    (s.phase = .load ∧ s.advance p = .next (if p.dinValid then s.takeBeat p.dinData else s)) ∨
    (s.phase = .stream ∧ s.cnt < s.box.len ∧
      s.advance p = .next (if p.doutReady then s.sendBeat else s)) ∨
    (s.phase = .stream ∧ ¬ s.cnt < s.box.len ∧ s.advance p = .fault .elementOutsideBuffer) ∨
    (s.phase = .resp ∧ s.advance p = .next (if p.rspReady then s.deliver else s)) := by
  cases hp : s.phase with
  | idle => exact .inl ⟨rfl, by simp only [State.advance, hp]⟩
  | exec => exact .inr (.inl ⟨rfl, by simp only [State.advance, hp]⟩)
  | load => exact .inr (.inr (.inl ⟨rfl, by simp only [State.advance, hp]⟩))
  | stream =>
    by_cases hc : s.cnt < s.box.len
    · exact .inr (.inr (.inr (.inl ⟨rfl, hc, by simp only [State.advance, hp, hc, if_true]⟩)))
    · exact .inr (.inr (.inr (.inr (.inl ⟨rfl, hc, by simp only [State.advance, hp, hc, if_false]⟩))))
  | resp => exact .inr (.inr (.inr (.inr (.inr ⟨rfl, by simp only [State.advance, hp]⟩))))

/-- The three ways a clock cycle goes (R165, R171, R23). -/
theorem step_cases (s : State) :
    (s.thisInput.rst = true ∧ step s = .next (s.dropInput.hardReset.noteOffers s.thisInput)) ∨
    (s.thisInput.rst = false ∧ s.hostKeepsOffers s.thisInput = false ∧
      step s = .refused .hostBrokeHandshake) ∨
    (s.thisInput.rst = false ∧ s.hostKeepsOffers s.thisInput = true ∧
      step s = (s.dropInput.noteOffers s.thisInput).advance s.thisInput) := by
  unfold step State.cycle
  cases hr : s.thisInput.rst with
  | true => exact .inl ⟨rfl, rfl⟩
  | false =>
    have hk : s.dropInput.hostKeepsOffers s.thisInput = s.hostKeepsOffers s.thisInput := rfl
    cases hh : s.hostKeepsOffers s.thisInput with
    | false => exact .inr (.inl ⟨rfl, rfl, by simp [hk, hh]⟩)
    | true => exact .inr (.inr ⟨rfl, rfl, by simp [hk, hh]⟩)

/-! ### Commands that pass their check (R155 step 4) -/

theorem exec_filled_ok {n v : Word} {s : State} (hf : s.fault = false) (h : n ≤ Config.lmax) :
    exec (.filled n v) s = .next ((s.commit (Container.filled n v)).respond .ok 0) :=
  congrArg Host.Outcome.next (State.checked_good _ _ hf (overCapacity_eq_false.mpr h))

theorem exec_set_ok {i v : Word} {s : State} (hf : s.fault = false) (h : i < s.box.len) :
    exec (.set i v) s = .next ((s.commit (s.box.set i v)).respond .ok 0) :=
  congrArg Host.Outcome.next (State.checked_good _ _ hf (badIndex_eq_false.mpr h))

theorem exec_setr_ok {a b v : Word} {s : State} (hf : s.fault = false) (ha : a ≤ b) (hb : b ≤ s.box.len) :
    exec (.setr a b v) s = .next ((s.commit (s.box.setr a b v)).respond .ok 0) :=
  congrArg Host.Outcome.next (State.checked_good _ _ hf (badRange_eq_false.mpr ⟨ha, hb⟩))

end Sys2Proof.Machine
end

