-- ==== Sys2Proof/Laws/Run.lean ====
section
/-! SUPPORT. Runs of many clock cycles: `runOn` one cycle at a time (R178), and that the work of a
command does not look at the inputs to come. -/

namespace Sys2Proof.Machine

/-! ### fed -/

@[simp] theorem State.box_fed (s : State) (ins : List PortIn) : (s.fed ins).box = s.box := rfl
@[simp] theorem State.fault_fed (s : State) (ins : List PortIn) : (s.fed ins).fault = s.fault := rfl
@[simp] theorem State.cause_fed (s : State) (ins : List PortIn) : (s.fed ins).cause = s.cause := rfl
@[simp] theorem State.phase_fed (s : State) (ins : List PortIn) : (s.fed ins).phase = s.phase := rfl
@[simp] theorem State.cnt_fed (s : State) (ins : List PortIn) : (s.fed ins).cnt = s.cnt := rfl
@[simp] theorem State.nreq_fed (s : State) (ins : List PortIn) : (s.fed ins).nreq = s.nreq := rfl
@[simp] theorem State.acc_fed (s : State) (ins : List PortIn) : (s.fed ins).acc = s.acc := rfl
@[simp] theorem State.rsp_fed (s : State) (ins : List PortIn) : (s.fed ins).rsp = s.rsp := rfl
@[simp] theorem State.cmd_fed (s : State) (ins : List PortIn) : (s.fed ins).cmd = s.cmd := rfl
@[simp] theorem State.wait_fed (s : State) (ins : List PortIn) : (s.fed ins).wait = s.wait := rfl
@[simp] theorem State.rest_fed (s : State) (ins : List PortIn) : (s.fed ins).rest = s.rest := rfl
@[simp] theorem State.done_fed (s : State) (ins : List PortIn) : (s.fed ins).done = s.done := rfl
@[simp] theorem State.tick_fed (s : State) (ins : List PortIn) : (s.fed ins).tick = s.tick := rfl
@[simp] theorem State.env_fed (s : State) (ins : List PortIn) : (s.fed ins).env = { s.env with input := ins } := rfl

/-! ### The inputs to come are not touched by a cycle -/

theorem State.env_takeBeat (s : State) (d : Word) :
    (s.takeBeat d).env = { s.env with gaveDin := s.env.gaveDin ++ [d] } := by
  unfold State.takeBeat; split <;> rfl

theorem State.input_sendBeat (s : State) : s.sendBeat.env.input = s.env.input := by
  unfold State.sendBeat; split <;> rfl

theorem State.env_settle (s : State) : s.settle.env = s.env := by
  unfold State.settle; split <;> rfl

theorem State.env_execCycle {s t : State} (e : s.execCycle = .next t) : t.env = s.env := by
  rcases s.execCycle_cases with ⟨_, _, _, h⟩ | ⟨_, _, _, h⟩ | ⟨_, _, u, _, hs, h⟩ | ⟨_, _, h⟩ <;>
    rw [h] at e <;> cases e
  · rfl
  · rfl
  · rw [State.env_settle]; exact hs.env
  · rfl

theorem State.input_advance {p : PortIn} {s t : State} (e : s.advance p = .next t) :
    t.env.input = s.env.input := by
  rcases s.advance_cases p with ⟨_, h⟩ | ⟨_, h⟩ | ⟨_, h⟩ | ⟨_, _, h⟩ | ⟨_, _, h⟩ | ⟨_, h⟩ <;> rw [h] at e
  · cases e; split <;> rfl
  · rw [State.env_execCycle e]
  · cases e; split
    · rw [State.env_takeBeat]
    · rfl
  · cases e; split
    · exact State.input_sendBeat s
    · rfl
  · cases e
  · cases e; split <;> rfl

theorem State.input_cycle {p : PortIn} {s t : State} (e : s.cycle p = .next t) :
    t.env.input = s.env.input := by
  unfold State.cycle at e
  split at e
  · cases e; rfl
  · split at e
    · rw [State.input_advance e]; rfl
    · cases e

theorem State.fed_same {s : State} {ins : List PortIn} (h : s.env.input = ins) : s.fed ins = s := by
  subst h; rfl

/-! ### One cycle of a run -/

theorem run_succ (M : Host.Core) (k : Nat) {s t : M.State} (h : M.step s = .next t) :
    M.run (k + 1) s = M.run k t := by
  simp only [Host.Core.run, h]

theorem run_succ_next (M : Host.Core) (k : Nat) {s t : M.State} (h : M.run (k + 1) s = .next t) :
    ∃ u, M.step s = .next u ∧ M.run k u = .next t := by
  simp only [Host.Core.run] at h
  split at h
  · next u hu => exact ⟨u, hu, h⟩
  · cases h
  · cases h

theorem step_fed (s : State) (p : PortIn) (ins : List PortIn) : step (s.fed (p :: ins)) = (s.fed ins).cycle p :=
  rfl

theorem State.runOn_nil (s : State) : s.runOn [] = .next (s.fed []) := rfl

/-- A run whose first cycle answers a next state goes on from there. -/
theorem State.runOn_cons {s u : State} {p : PortIn} {ins : List PortIn}
    (h : (s.fed ins).cycle p = .next (u.fed ins)) : s.runOn (p :: ins) = u.runOn ins := by
  exact run_succ Sys2Proof.core ins.length (s := s.fed (p :: ins)) h

/-- A run that answers a next state went through a first cycle that did. -/
theorem State.runOn_cons_next {s t : State} {p : PortIn} {ins : List PortIn}
    (h : s.runOn (p :: ins) = .next t) :
    ∃ u, (s.fed ins).cycle p = .next u ∧ u.fed ins = u ∧ u.runOn ins = .next t := by
  obtain ⟨u, hu, hr⟩ := run_succ_next Sys2Proof.core ins.length (s := s.fed (p :: ins)) h
  have hu' : u.fed ins = u := State.fed_same (State.input_cycle (p := p) (s := s.fed ins) hu)
  refine ⟨u, hu, hu', ?_⟩
  rw [← hu'] at hr
  exact hr

/-- Without reset, a cycle that answers a next state is the phase machine's move. -/
theorem State.advance_of_cycle {p : PortIn} {s t : State} (hr : p.rst = false) (h : s.cycle p = .next t) :
    (s.noteOffers p).advance p = .next t := by
  rw [State.cycle, hr] at h
  split at h
  · next e => cases e
  · split at h
    · exact h
    · cases h

theorem State.cycle_eq {p : PortIn} {s : State} (hr : p.rst = false) (hk : s.hostKeepsOffers p = true) :
    s.cycle p = (s.noteOffers p).advance p := by
  simp [State.cycle, hr, hk]

/-- A cycle in LOAD that answers takes the beat offered, or waits (R104, R172). -/
theorem State.load_cycle {p : PortIn} {s t : State} (hr : p.rst = false) (hp : s.phase = .load)
    (h : s.cycle p = .next t) :
    t = if p.dinValid then (s.noteOffers p).takeBeat p.dinData else s.noteOffers p := by
  have e := State.advance_of_cycle hr h
  simp only [State.advance, State.phase_noteOffers, hp] at e
  exact (Host.Outcome.next.inj e).symm

/-- A cycle in STREAM that answers gives the host its beat, or waits (R121, R173). -/
theorem State.stream_cycle {p : PortIn} {s t : State} (hr : p.rst = false) (hp : s.phase = .stream)
    (h : s.cycle p = .next t) :
    s.cnt < s.box.len ∧ t = if p.doutReady then (s.noteOffers p).sendBeat else s.noteOffers p := by
  have e := State.advance_of_cycle hr h
  simp only [State.advance, State.phase_noteOffers, hp] at e
  split at e
  · next hc => exact ⟨hc, (Host.Outcome.next.inj e).symm⟩
  · cases e

/-- A cycle in RESP that answers hands the response over, or waits (R70, R173). -/
theorem State.resp_cycle {p : PortIn} {s t : State} (hr : p.rst = false) (hp : s.phase = .resp)
    (h : s.cycle p = .next t) :
    t = if p.rspReady then (s.noteOffers p).deliver else s.noteOffers p := by
  have e := State.advance_of_cycle hr h
  simp only [State.advance, State.phase_noteOffers, hp] at e
  exact (Host.Outcome.next.inj e).symm

/-- A host that has nothing on offer may drive what it likes (R61). -/
theorem State.hostKeepsOffers_free {s : State} (hc : s.env.heldCmd = none) (hd : s.env.heldDin = none)
    (p : PortIn) : s.hostKeepsOffers p = true := by
  simp [State.hostKeepsOffers, keepsOffer, hc, hd]

/-! ### The work of a command does not look at the inputs to come -/

theorem State.checked_fed (s ok : State) (bad : Bool) (c : Cause) (ins : List PortIn) :
    (s.fed ins).checked bad c (ok.fed ins) = (s.checked bad c ok).fed ins := by
  rcases s.checked_cases bad c ok with ⟨h, e⟩ | ⟨h, hb, e⟩ | ⟨h, hb, e⟩ <;> rw [e]
  · exact State.checked_halted _ _ _ h
  · exact State.checked_bad _ _ h hb
  · exact State.checked_good _ _ h hb

theorem State.unlessHalted_fed (s ok : State) (ins : List PortIn) :
    (s.fed ins).unlessHalted (ok.fed ins) = (s.unlessHalted ok).fed ins := by
  rcases s.unlessHalted_cases ok with ⟨h, e⟩ | ⟨h, e⟩ <;> rw [e]
  · exact State.unlessHalted_halted _ h
  · exact State.unlessHalted_running _ h

theorem State.startIter_fed (s : State) (ins : List PortIn) : (s.fed ins).startIter = s.startIter.fed ins := by
  unfold State.startIter
  by_cases h : s.box.len = 0
  · rw [if_pos h, if_pos (show (s.fed ins).box.len = 0 from h)]; rfl
  · rw [if_neg h, if_neg (show ¬ (s.fed ins).box.len = 0 from h)]; rfl

theorem fromAt_fed (lmax n : Word) (s : State) (ins : List PortIn) :
    fromAt lmax n (s.fed ins) = (fromAt lmax n s).fed ins := by
  unfold fromAt
  rw [← State.checked_fed]
  congr 1
  split <;> rfl

/-- The work of a command commutes with what the host will drive later. -/
theorem exec_fed {i : Instr} {s t : State} (h : exec i s = .next t) (ins : List PortIn) :
    exec i (s.fed ins) = .next (t.fed ins) := by
  cases i with
  | new n =>
    cases h
    exact congrArg Host.Outcome.next
      (s.checked_fed ((s.commit (Container.zeros n)).respond .ok 0) _ _ ins)
  | filled n v =>
    cases h
    exact congrArg Host.Outcome.next
      (s.checked_fed ((s.commit (Container.filled n v)).respond .ok 0) _ _ ins)
  | fromBeats n => cases h; exact congrArg Host.Outcome.next (fromAt_fed _ _ s ins)
  | get k =>
    cases h
    exact congrArg Host.Outcome.next (s.checked_fed (s.respond .ok (s.box.get k)) _ _ ins)
  | set k v =>
    cases h
    exact congrArg Host.Outcome.next
      (s.checked_fed ((s.commit (s.box.set k v)).respond .ok 0) _ _ ins)
  | setr a b v =>
    cases h
    exact congrArg Host.Outcome.next
      (s.checked_fed ((s.commit (s.box.setr a b v)).respond .ok 0) _ _ ins)
  | iter =>
    cases h
    show Host.Outcome.next _ = _
    rw [State.startIter_fed, State.unlessHalted_fed]
  | mask =>
    cases h; exact congrArg Host.Outcome.next (s.unlessHalted_fed (s.respond .ok s.box.mask) ins)
  | len =>
    cases h; exact congrArg Host.Outcome.next (s.unlessHalted_fed (s.respond .ok s.box.len) ins)
  | reserved0 => cases h; exact congrArg Host.Outcome.next (s.unlessHalted_fed (s.raise .illegal) ins)
  | reservedA => cases h; exact congrArg Host.Outcome.next (s.unlessHalted_fed (s.raise .illegal) ins)
  | reservedB => cases h; exact congrArg Host.Outcome.next (s.unlessHalted_fed (s.raise .illegal) ins)
  | reservedC => cases h; exact congrArg Host.Outcome.next (s.unlessHalted_fed (s.raise .illegal) ins)
  | reservedD => cases h; exact congrArg Host.Outcome.next (s.unlessHalted_fed (s.raise .illegal) ins)
  | reservedE => cases h; exact congrArg Host.Outcome.next (s.unlessHalted_fed (s.raise .illegal) ins)
  | reservedF => cases h; exact congrArg Host.Outcome.next (s.unlessHalted_fed (s.raise .illegal) ins)

/-! ### The beats of a sequence (R68) -/

theorem length_markLast (vs : List Word) : (markLast vs).length = vs.length := by
  induction vs using markLast.induct <;> simp_all [markLast]

theorem getElem_markLast (vs : List Word) (i : Nat) (h : i < (markLast vs).length) (h' : i < vs.length) :
    (markLast vs)[i] = (if i + 1 = vs.length then 1#1 else 0#1) ++ vs[i] := by
  induction vs using markLast.induct generalizing i with
  | case1 => simp at h'
  | case2 v => simp at h'; subst h'; simp [markLast]
  | case3 v w vs ih =>
    cases i with
    | zero => simp [markLast]
    | succ i =>
      simp only [markLast, List.getElem_cons_succ]
      rw [ih i (by simpa [markLast] using h) (by simpa using h')]
      simp

end Sys2Proof.Machine
end

