-- ==== Sys2Proof/Laws/Transaction.lean ====
section
/-! SUPPORT. The work of a command's word against the transaction level (R70): one lemma that says
everything the work can leave, up to the beats still to move. -/

namespace Sys2Proof.Machine

theorem ofNat_ne_zero {n : Nat} (h : n < 2 ^ 32) (h0 : n ≠ 0) : BitVec.ofNat 32 n ≠ 0 := by
  intro e
  have := congrArg BitVec.toNat e
  rw [BitVec.toNat_ofNat, Nat.mod_eq_of_lt h] at this
  exact h0 this

/-- The reserved rows (R66). -/
def reservedRows : List Instr :=
  [.reserved0, .reservedA, .reservedB, .reservedC, .reservedD, .reservedE, .reservedF]

/-- A reserved opcode with its other fields 0 decodes to a reserved row (R66). -/
theorem decode_reserved (op : BitVec 4) (h : op = 0 ∨ 9 < op) :
    decode (Command.illegal op).word ∈ reservedRows := by
  revert op; decide

/-- The work of a reserved row (R150, R155). -/
theorem exec_reserved {i : Instr} (h : i ∈ reservedRows) (s : State) :
    exec i s = .next (s.unlessHalted (s.raise .illegal)) := by
  simp only [reservedRows, List.mem_cons, List.not_mem_nil, or_false] at h
  rcases h with rfl | rfl | rfl | rfl | rfl | rfl | rfl <;> rfl

/-- What the work of a command's word leaves, up to the beats still to move. -/
inductive WorkLeaves (s : State) (c : Command) (t : State) : Prop where
  /-- The answer waits, and the command has no beats. -/
  | resp (phase : t.phase = .resp) (snapshot : t.snapshot = (transact Config.lmax c s.snapshot).1)
      (rsp : t.rsp = (transact Config.lmax c s.snapshot).2.1.word)
      (output : (transact Config.lmax c s.snapshot).2.2 = [])
      (beats : (transact Config.lmax c s.snapshot).2.1.status = .ok → c.beats = [])
  /-- A FROM is about to take its beats. -/
  | load (vs : List Word) (cmd : c = .fromSeq vs) (some : vs ≠ []) (running : s.fault = false)
      (check : c.check Config.lmax s.box = none) (phase : t.phase = .load) (acc : t.acc = [])
      (cnt : t.cnt = 0) (nreq : t.nreq.toNat = vs.length) (snapshot : t.snapshot = s.snapshot)
  /-- An ITER is about to send its beats. -/
  | stream (cmd : c = .iter) (running : s.fault = false) (phase : t.phase = .stream) (cnt : t.cnt = 0)
      (len : s.box.len ≠ 0) (snapshot : t.snapshot = s.snapshot)

theorem WorkLeaves.halted {s : State} {c : Command} (hf : s.fault = true) :
    WorkLeaves s c (s.respond .halted 0) := by
  have : transact Config.lmax c s.snapshot = (s.snapshot, ⟨.halted, 0⟩, []) := by
    unfold transact; rw [if_pos (show s.snapshot.fault = true from hf)]
  exact .resp rfl (by rw [this]; rfl) (by rw [this]; rfl) (by rw [this])
    (by rw [this]; intro h; cases h)

theorem WorkLeaves.raised {s : State} {c : Command} (hf : s.fault = false) {e : Cause}
    (hc : c.check Config.lmax s.box = some e) : WorkLeaves s c (s.raise e) := by
  have : transact Config.lmax c s.snapshot =
      ({ s.snapshot with fault := true, cause := e.code }, ⟨.err e, 0⟩, []) := by
    unfold transact; rw [if_neg (by show ¬ s.fault = true; rw [hf]; decide)]
    have hc' : c.check Config.lmax s.snapshot.box = some e := hc
    rw [hc']
  exact .resp rfl (by rw [this, State.raise, hf]; rfl) (by rw [this]; rfl) (by rw [this])
    (by rw [this]; intro h; cases h)

/-- The transaction of a command that passes its check (R155 step 4). -/
theorem transact_ok {s : State} {c : Command} (hf : s.fault = false)
    (hc : c.check Config.lmax s.box = none) :
    transact Config.lmax c s.snapshot =
      ({ s.snapshot with box := c.container s.box }, ⟨.ok, c.data s.box⟩, c.output s.box) := by
  unfold transact; rw [if_neg (by show ¬ s.fault = true; rw [hf]; decide)]
  have hc' : c.check Config.lmax s.snapshot.box = none := hc
  rw [hc']; rfl

theorem WorkLeaves.ok {s t : State} {c : Command} (hf : s.fault = false)
    (hc : c.check Config.lmax s.box = none) (hp : t.phase = .resp) (hb : t.box = c.container s.box)
    (hfa : t.fault = s.fault) (hca : t.cause = s.cause) (hr : t.rsp = Status.ok.code ++ c.data s.box)
    (ho : c.output s.box = []) (hnb : c.beats = []) : WorkLeaves s c t := by
  have := transact_ok hf hc
  refine .resp hp ?_ ?_ ?_ (fun _ => hnb)
  · rw [this]; simp [State.snapshot, hb, hfa, hca]
  · rw [this]; exact hr
  · rw [this]; exact ho

theorem WorkLeaves.checked {s ok : State} {c : Command} {bad : Bool} {e : Cause}
    (hbad : c.check Config.lmax s.box = if bad then some e else none)
    (h : s.fault = false → c.check Config.lmax s.box = none → WorkLeaves s c ok) :
    WorkLeaves s c (s.checked bad e ok) := by
  rcases s.checked_cases bad e ok with ⟨hf, x⟩ | ⟨hf, hb, x⟩ | ⟨hf, hb, x⟩ <;> rw [x]
  · exact WorkLeaves.halted hf
  · exact WorkLeaves.raised hf (by rw [hbad, hb]; rfl)
  · exact h hf (by rw [hbad, hb]; rfl)

theorem WorkLeaves.unlessHalted {s ok : State} {c : Command}
    (h : s.fault = false → WorkLeaves s c ok) : WorkLeaves s c (s.unlessHalted ok) := by
  rcases s.unlessHalted_cases ok with ⟨hf, x⟩ | ⟨hf, x⟩ <;> rw [x]
  · exact WorkLeaves.halted hf
  · exact h hf

/-- The work of a command's word, against its transaction (R70). -/
theorem exec_leaves {s t : State} {c : Command} (hw : c.wellFormed = true)
    (e : exec (decode c.word) s = .next t) : WorkLeaves s c t := by
  cases c with
  | new n =>
    rw [show decode (Command.word (.new n)) = .new n from
      decode_assemble 0x1 n 0 0] at e
    cases e
    refine WorkLeaves.checked ?_ fun hf hc => WorkLeaves.ok hf hc rfl rfl rfl rfl rfl rfl rfl
    simp [Command.check, overCapacity]
  | filled n v =>
    rw [show decode (Command.word (.filled n v)) = .filled n v from
      decode_assemble 0x2 n 0 v] at e
    cases e
    refine WorkLeaves.checked ?_ fun hf hc => WorkLeaves.ok hf hc rfl rfl rfl rfl rfl rfl rfl
    simp [Command.check, overCapacity]
  | fromSeq vs =>
    rw [show decode (Command.word (.fromSeq vs)) = .fromBeats (BitVec.ofNat 32 vs.length) from
      decode_assemble 0x3 (BitVec.ofNat 32 vs.length) 0 0] at e
    cases e
    have hlen : vs.length < 2 ^ 32 := by simpa [Command.wellFormed, fitsWord] using hw
    refine WorkLeaves.checked ?_ fun hf hc => ?_
    · simp only [Command.check, overCapacity]
      have : (Config.lmax.toNat < vs.length) ↔ Config.lmax < BitVec.ofNat 32 vs.length := by
        show _ ↔ Config.lmax.toNat < (BitVec.ofNat 32 vs.length).toNat
        rw [BitVec.toNat_ofNat, Nat.mod_eq_of_lt hlen]
      simp [this]
    · split
      · next h0 =>
        have : vs = [] := by
          by_contra hne
          exact ofNat_ne_zero hlen (fun e => hne (List.length_eq_zero_iff.mp e)) h0
        subst this
        exact WorkLeaves.ok hf hc rfl rfl rfl rfl rfl rfl rfl
      · next h0 =>
        refine .load vs rfl (fun e => h0 (by rw [e]; rfl)) hf hc rfl rfl rfl ?_ rfl
        show (BitVec.ofNat 32 vs.length).toNat = _
        rw [BitVec.toNat_ofNat, Nat.mod_eq_of_lt hlen]
  | get k =>
    rw [show decode (Command.word (.get k)) = .get k from
      decode_assemble 0x4 k 0 0] at e
    cases e
    refine WorkLeaves.checked ?_ fun hf hc => WorkLeaves.ok hf hc rfl rfl rfl rfl rfl rfl rfl
    simp [Command.check, badIndex]
  | set k v =>
    rw [show decode (Command.word (.set k v)) = .set k v from
      decode_assemble 0x5 k 0 v] at e
    cases e
    refine WorkLeaves.checked ?_ fun hf hc => WorkLeaves.ok hf hc rfl rfl rfl rfl rfl rfl rfl
    simp [Command.check, badIndex]
  | setr a b v =>
    rw [show decode (Command.word (.setr a b v)) = .setr a b v from
      decode_assemble 0x6 a b v] at e
    cases e
    refine WorkLeaves.checked ?_ fun hf hc => WorkLeaves.ok hf hc rfl rfl rfl rfl rfl rfl rfl
    simp [Command.check, badRange]
  | iter =>
    rw [show decode (Command.word .iter) = .iter from
      decode_assemble 0x7 0 0 0] at e
    cases e
    refine WorkLeaves.unlessHalted fun hf => ?_
    unfold State.startIter
    split
    · next h0 =>
      refine WorkLeaves.ok hf rfl rfl rfl rfl rfl rfl ?_ rfl
      show s.box.logical = []
      rw [← List.length_eq_zero_iff, Container.length_logical, h0]; rfl
    · next h0 => exact .stream rfl hf rfl rfl h0 rfl
  | mask =>
    rw [show decode (Command.word .mask) = .mask from
      decode_assemble 0x8 0 0 0] at e
    cases e
    exact WorkLeaves.unlessHalted fun hf => WorkLeaves.ok hf rfl rfl rfl rfl rfl rfl rfl rfl
  | len =>
    rw [show decode (Command.word .len) = .len from
      decode_assemble 0x9 0 0 0] at e
    cases e
    exact WorkLeaves.unlessHalted fun hf => WorkLeaves.ok hf rfl rfl rfl rfl rfl rfl rfl rfl
  | illegal op =>
    rw [exec_reserved (decode_reserved op (by simpa [Command.wellFormed] using hw)) s] at e
    cases e
    exact .unlessHalted fun hf => .raised hf rfl

/-- What the work leaves, seen from states that agree on what a transaction and the beats read. -/
theorem WorkLeaves.congr {s s' t t' : State} {c : Command} (h : WorkLeaves s c t)
    (hs : s'.snapshot = s.snapshot) (hp : t'.phase = t.phase) (hb : t'.snapshot = t.snapshot)
    (h1 : t'.cnt = t.cnt) (h2 : t'.nreq = t.nreq) (h3 : t'.acc = t.acc) (h4 : t'.rsp = t.rsp) :
    WorkLeaves s' c t' := by
  have sf : s'.fault = s.fault := congrArg Snapshot.fault hs
  have sb : s'.box = s.box := congrArg Snapshot.box hs
  cases h with
  | resp a b c d e =>
    exact .resp (hp.trans a) (by rw [hb, hs, b]) (by rw [h4, hs, c]) (by rw [hs, d]) (by rw [hs]; exact e)
  | load vs a b c d e f g i j =>
    exact .load vs a b (sf.trans c) (by rw [sb]; exact d) (hp.trans e) (h3.trans f) (h1.trans g)
      (by rw [h2]; exact i) (by rw [hb, hs]; exact j)
  | stream a b c d e f =>
    exact .stream a (sf.trans b) (hp.trans c) (h1.trans d) (by rw [sb]; exact e) (by rw [hb, hs]; exact f)

end Sys2Proof.Machine
end

