-- ==== Sys2Proof/Laws/Refine.lean ====
section
/-! SUPPORT. Runs without reset, phase by phase: what each phase leaves and what it moves on the four
ports, up to the lemma of one command from EXEC to IDLE (R70). -/

namespace Sys2Proof.Machine

/-- A run of input cycles, none of them a reset, from `s` to `t` (R70). -/
def Runs (s : State) (ins : List PortIn) (t : State) : Prop := (∀ p ∈ ins, p.rst = false) ∧
    s.runOn ins = .next t

/-- The first cycle of a run, and the run that is left. -/
theorem Runs.cons {s t : State} {p : PortIn} {ins} (h : Runs s (p :: ins) t) :
    ∃ u, ((s.fed ins).noteOffers p).advance p = .next u ∧ Runs u ins t := by
  obtain ⟨hr, h⟩ := h
  obtain ⟨u, hu, -, h'⟩ := State.runOn_cons_next h
  exact ⟨u, State.advance_of_cycle (hr p (by simp)) hu, fun q m => hr q (by simp [m]), h'⟩

theorem Runs.nil {s t : State} (h : Runs s [] t) : t = s.fed [] := by
  have := h.2; rw [State.runOn_nil] at this; exact (Host.Outcome.next.inj this).symm

/-- What has moved on the four ports between `s` and `u` (log 11). -/
structure Passed (s u : State) (gc : List CmdWord) (gd : List Word) (go : List DoutBeat)
    (gr : List RspWord) : Prop where
  c : u.env.gaveCmd = s.env.gaveCmd ++ gc
  d : u.env.gaveDin = s.env.gaveDin ++ gd
  o : u.env.gotDout = s.env.gotDout ++ go
  r : u.env.gotRsp = s.env.gotRsp ++ gr

theorem Passed.refl (s : State) : Passed s s [] [] [] [] := by constructor <;> simp

theorem Passed.trans {s u v gc gd go gr gc' gd' go' gr'} (h : Passed s u gc gd go gr)
    (h' : Passed u v gc' gd' go' gr') :
   Passed s v (gc ++ gc') (gd ++ gd') (go ++ go') (gr ++ gr') := by
  constructor
  · rw [h'.c, h.c, List.append_assoc]
  · rw [h'.d, h.d, List.append_assoc]
  · rw [h'.o, h.o, List.append_assoc]
  · rw [h'.r, h.r, List.append_assoc]

/-- RESP on a run to IDLE: the response goes out once and nothing else moves (R23). -/
theorem resp_runs {s t : State} {ins} (hp : s.phase = .resp) (h : Runs s ins t)
    (ht : t.phase = .idle) :
   ∃ ins2 u, ins2.length < ins.length ∧ Runs u ins2 t ∧ u.phase = .idle ∧ u.snapshot = s.snapshot ∧
       Passed s u [] [] [] [s.rsp] := by
  induction ins generalizing s with
  | nil => rw [h.nil] at ht; exact absurd (hp.symm.trans ht) (by decide)
  | cons p ins ih =>
    obtain ⟨u, hu, h'⟩ := h.cons
    have hp' : ((s.fed ins).noteOffers p).phase = .resp := hp
    simp only [State.advance, hp'] at hu
    cases hv : p.rspReady <;> rw [hv] at hu <;> cases hu
    · obtain ⟨i2, u, h1, h2, h3, h4, h5⟩ := ih (s := (s.fed ins).noteOffers p) hp' h'
      exact ⟨i2, u, Nat.lt_succ_of_lt h1, h2, h3, h4, ⟨h5.c, h5.d, h5.o, h5.r⟩⟩
    · exact ⟨ins, _, Nat.lt_succ_self _, h', rfl, rfl, by constructor <;> simp [State.fed]⟩

/-- The cycles after the work: they count down and enter the phase the work chose (R180). -/
theorem rest_runs {s t : State} {ins} {q} (hp : s.phase = .exec) (hd : s.done = some q)
    (h : Runs s ins t) (ht : t.phase = .idle) :
   ∃ ins2 u, ins2.length < ins.length ∧ Runs u ins2 t ∧ u.phase = q ∧ u.snapshot = s.snapshot ∧
       u.cnt = s.cnt ∧ u.nreq = s.nreq ∧ u.acc = s.acc ∧ u.rsp = s.rsp ∧ Passed s u [] [] [] [] :=
       by
  induction ins generalizing s with
  | nil => rw [h.nil] at ht; exact absurd (hp.symm.trans ht) (by decide)
  | cons p ins ih =>
    obtain ⟨u, hu, h'⟩ := h.cons
    have hp' : ((s.fed ins).noteOffers p).phase = .exec := hp
    have hd' : ((s.fed ins).noteOffers p).done = some q := hd
    rw [show ((s.fed ins).noteOffers p).advance p = ((s.fed ins).noteOffers p).execCycle by simp
        only [State.advance, hp']] at hu
    rcases State.execCycle_cases ((s.fed ins).noteOffers p) with ⟨q', hq, hv, hx⟩ | ⟨q', hq, hv,
        hx⟩ | ⟨hq, _⟩ | ⟨hq, _⟩
    rotate_left 2
    · rw [hd'] at hq; cases hq
    · rw [hd'] at hq; cases hq
    · rw [hd'] at hq; cases hq
      rw [hx] at hu; cases hu
      exact ⟨ins, _, Nat.lt_succ_self _, h', rfl, rfl, rfl, rfl, rfl, rfl,
          by constructor <;> simp [State.fed]⟩
    · rw [hx] at hu; cases hu
      obtain ⟨i2, u, h1, h2, h3, h4, a1, a2, a3, a4, h5⟩ := ih (s :=
          { ((s.fed ins).noteOffers p) with rest := ((s.fed ins).noteOffers p).rest - 1 }) hp' hd'
          h'
      exact ⟨i2, u, Nat.lt_succ_of_lt h1, h2, h3, h4, a1, a2, a3, a4, ⟨h5.c, h5.d, h5.o, h5.r⟩⟩

/-- EXEC on a run to IDLE: the work is done once and nothing moves (R70, R180). -/
theorem exec_runs {s t : State} {ins} {c : Command} (hw : c.wellFormed = true)
    (hp : s.phase = .exec) (hd : s.done = none) (hc : decode s.cmd = decode c.word)
    (h : Runs s ins t) (ht : t.phase = .idle) :
   ∃ ins2 u, ins2.length < ins.length ∧ Runs u ins2 t ∧ WorkLeaves s c u ∧
       Passed s u [] [] [] [] := by
  induction ins generalizing s with
  | nil => rw [h.nil] at ht; exact absurd (hp.symm.trans ht) (by decide)
  | cons p ins ih =>
    obtain ⟨u, hu, h'⟩ := h.cons
    have hp' : ((s.fed ins).noteOffers p).phase = .exec := hp
    have hd' : ((s.fed ins).noteOffers p).done = none := hd
    have hc' : decode ((s.fed ins).noteOffers p).cmd = decode c.word := hc
    rw [show ((s.fed ins).noteOffers p).advance p = ((s.fed ins).noteOffers p).execCycle by simp
        only [State.advance, hp']] at hu
    rcases State.execCycle_cases ((s.fed ins).noteOffers p) with ⟨q', hq, _⟩ | ⟨q', hq, _⟩ | ⟨hq,
        _, v, he, hs, hx⟩ | ⟨hq, _, hx⟩
    · rw [hd'] at hq; cases hq
    · rw [hd'] at hq; cases hq
    · rw [hx] at hu
      rw [hc'] at he
      have hA := exec_leaves hw he
      have hu' : u = v.settle := (Host.Outcome.next.inj hu).symm
      have hlog : Passed s v [] [] [] [] := by constructor <;> rw [hs.env] <;> simp [State.fed]
      unfold State.settle at hu'
      split at hu'
      · subst hu'
        exact ⟨ins, u, Nat.lt_succ_self _, h', hA.congr rfl rfl rfl rfl rfl rfl rfl, hlog⟩
      · subst hu'
        obtain ⟨i2, u, h1, h2, h3, h4, a1, a2, a3, a4, h5⟩ := rest_runs (q := v.phase) rfl rfl h' ht
        exact ⟨i2, u, Nat.lt_succ_of_lt h1, h2, hA.congr rfl h3 h4 a1 a2 a3 a4, hlog.trans ⟨h5.c,
            h5.d, h5.o, h5.r⟩⟩
    · rw [hx] at hu; cases hu
      obtain ⟨i2, u, h1, h2, h3, h5⟩ := ih (s :=
          { ((s.fed ins).noteOffers p) with wait := ((s.fed ins).noteOffers p).wait - 1 }) hp' hd'
          hc' h'
      exact ⟨i2, u, Nat.lt_succ_of_lt h1, h2, h3.congr rfl rfl rfl rfl rfl rfl rfl, ⟨h5.c, h5.d,
          h5.o, h5.r⟩⟩

/-- LOAD on a run to IDLE: the beats still missing are taken, and the container is theirs (R103). -/
theorem load_runs {s t : State} {ins} (hp : s.phase = .load) (hl : s.cnt.toNat < s.nreq.toNat)
    (h : Runs s ins t) (ht : t.phase = .idle) :
   ∃ ins2 u bs, ins2.length < ins.length ∧ Runs u ins2 t ∧ bs.length = s.nreq.toNat - s.cnt.toNat ∧
       u.phase = .resp ∧ u.rsp = 0 ∧ u.box = Container.ofSeq (s.acc ++ bs)
     ∧ u.fault = s.fault ∧ u.cause = s.cause ∧ Passed s u [] bs [] [] := by
  induction ins generalizing s with
  | nil => rw [h.nil] at ht; exact absurd (hp.symm.trans ht) (by decide)
  | cons p ins ih =>
    obtain ⟨u, hu, h'⟩ := h.cons
    have hp' : ((s.fed ins).noteOffers p).phase = .load := hp
    simp only [State.advance, hp'] at hu
    cases hv : p.dinValid <;> rw [hv] at hu
    · cases hu
      obtain ⟨i2, u, bs, h1, h2, h3, h4, a1, a2, a3, a4, h5⟩ := ih (s :=
          ((s.fed ins).noteOffers p)) hp' hl h'
      exact ⟨i2, u, bs, Nat.lt_succ_of_lt h1, h2, h3, h4, a1, a2, a3, a4, ⟨h5.c, h5.d, h5.o, h5.r⟩⟩
    · have hs := toNat_succ_of_lt (a := s.cnt) (b := s.nreq) hl
      have hu' : u = ((s.fed ins).noteOffers p).takeBeat p.dinData :=
          (Host.Outcome.next.inj hu).symm
      unfold State.takeBeat at hu'
      by_cases hc : s.cnt + 1 = s.nreq
      · rw [if_pos (show ((s.fed ins).noteOffers p).cnt + 1 =
            ((s.fed ins).noteOffers p).nreq from hc)] at hu'
        subst hu'
        refine ⟨ins, _, [p.dinData], Nat.lt_succ_self _, h', ?_, rfl, rfl, rfl, rfl, rfl,
            by constructor <;> simp [State.fed]⟩
        rw [← hc, hs]; simp
      · rw [if_neg (show ¬ ((s.fed ins).noteOffers p).cnt + 1 =
            ((s.fed ins).noteOffers p).nreq from hc)] at hu'
        subst hu'
        have hq : s.cnt.toNat + 1 ≠ s.nreq.toNat := fun e => hc (BitVec.eq_of_toNat_eq
            (by rw [hs]; exact e))
        obtain ⟨i2, u, bs, h1, h2, h3, h4, a1, a2, a3, a4, h5⟩ := ih (s :=
            ((s.fed ins).noteOffers p).addBeat p.dinData) hp' (by
          show (s.cnt + 1).toNat < s.nreq.toNat; omega) h'
        have h3' : bs.length = s.nreq.toNat - (s.cnt + 1).toNat := h3
        refine ⟨i2, u, p.dinData :: bs, Nat.lt_succ_of_lt h1, h2, by
          rw [List.length_cons, h3', hs]; omega, h4, a1, ?_, a3, a4, h5.c, ?_, h5.o, h5.r⟩
        · rw [a2]; simp [State.fed]
        · rw [h5.d]; simp [State.fed]

/-- The beat on DOUT is the next one still to send (R120, R121). -/
theorem drop_beat {s : State} (hlt : s.cnt < s.box.len) : (markLast s.box.logical).drop s.cnt.toNat
    = s.beat :: (markLast s.box.logical).drop (s.cnt.toNat + 1) ∧
    (s.cnt = s.box.len - 1 ↔ s.cnt.toNat + 1 = s.box.len.toNat) := by
  have hltn : s.cnt.toNat < s.box.len.toNat := hlt
  have hlen : (markLast s.box.logical).length = s.box.len.toNat := by rw [length_markLast,
      Container.length_logical]
  have h1 : (1 : Word).toNat = 1 := rfl
  have hq := s.box.len.isLt
  have hiff : s.cnt = s.box.len - 1 ↔ s.cnt.toNat + 1 = s.box.len.toNat := by
    constructor
    · intro e; rw [e, BitVec.toNat_sub, h1]; omega
    · intro e; apply BitVec.eq_of_toNat_eq; rw [BitVec.toNat_sub, h1]; omega
  refine ⟨?_, hiff⟩
  rw [List.drop_eq_getElem_cons (by omega)]
  congr 1
  rw [getElem_markLast _ _ _ (by rw [Container.length_logical]; exact hlt), State.beat]
  have hx : s.box.logical[s.cnt.toNat]'(by rw [Container.length_logical]; exact hlt) = s.box.get
      s.cnt := by simp [Container.logical, repIter, Container.get]
  rw [hx]
  simp only [hiff, Container.length_logical]

/-- STREAM on a run to IDLE: the beats still to send go out in order (R120, R121, R124). -/
theorem stream_runs {s t : State} {ins} (hp : s.phase = .stream) (hl : s.cnt < s.box.len)
    (h : Runs s ins t) (ht : t.phase = .idle) :
   ∃ ins2 u, ins2.length < ins.length ∧ Runs u ins2 t ∧ u.phase = .resp ∧ u.rsp = 0 ∧
       u.snapshot = s.snapshot ∧ Passed s u [] [] ((markLast s.box.logical).drop s.cnt.toNat) [] :=
       by
  induction ins generalizing s with
  | nil => rw [h.nil] at ht; exact absurd (hp.symm.trans ht) (by decide)
  | cons p ins ih =>
    obtain ⟨u, hu, h'⟩ := h.cons
    have hp' : ((s.fed ins).noteOffers p).phase = .stream := hp
    simp only [State.advance, hp'] at hu
    rw [if_pos (show ((s.fed ins).noteOffers p).cnt < ((s.fed ins).noteOffers p).box.len from hl)]
        at hu
    cases hv : p.doutReady <;> rw [hv] at hu
    · cases hu
      obtain ⟨i2, u, h1, h2, h3, h4, a1, h5⟩ := ih (s := ((s.fed ins).noteOffers p)) hp' hl h'
      exact ⟨i2, u, Nat.lt_succ_of_lt h1, h2, h3, h4, a1, ⟨h5.c, h5.d, h5.o, h5.r⟩⟩
    · have hs := toNat_succ_of_lt hl
      obtain ⟨hd, hiff⟩ := drop_beat hl
      have hu' : u = ((s.fed ins).noteOffers p).sendBeat := (Host.Outcome.next.inj hu).symm
      unfold State.sendBeat at hu'
      have hltn : s.cnt.toNat < s.box.len.toNat := hl
      have hlen : (markLast s.box.logical).length = s.box.len.toNat := by rw [length_markLast,
          Container.length_logical]
      by_cases hc : s.cnt = s.box.len - 1
      · rw [if_pos (show ((s.fed ins).noteOffers p).cnt = ((s.fed ins).noteOffers p).box.len - 1
            from hc)] at hu'
        subst hu'
        have hc' := hiff.mp hc
        refine ⟨ins, _, Nat.lt_succ_self _, h', rfl, rfl, rfl, ?_⟩
        rw [hd, List.drop_eq_nil_of_le (by omega)]
        exact ⟨by simp [State.fed], by simp [State.fed], rfl, by simp [State.fed]⟩
      · rw [if_neg (show ¬ ((s.fed ins).noteOffers p).cnt = ((s.fed ins).noteOffers p).box.len - 1
            from hc)] at hu'
        have hc' : ¬ _ := fun h => hc (hiff.mpr h)
        have e0 : u.cnt = s.cnt + 1 := by rw [hu']; rfl
        have e1 : u.box = s.box := by rw [hu']; rfl
        obtain ⟨i2, v, h1, h2, h3, h4, a1, h5⟩ := ih (s := u) (by rw [hu']; exact hp') (by
          rw [e0, e1]; show (s.cnt + 1).toNat < s.box.len.toNat; omega) h'
        rw [e0, e1, hs] at h5
        refine ⟨i2, v, Nat.lt_succ_of_lt h1, h2, h3, h4, by rw [a1, hu']; rfl, ?_⟩
        have hlog : Passed s u [] [] [s.beat] [] := by rw [hu']; exact ⟨by simp [State.fed],
            by simp [State.fed], rfl, by simp [State.fed]⟩
        rw [hd]; exact hlog.trans h5

/-- The word of OK with data 0 (D18). -/
theorem ok_word : (⟨Status.ok, 0⟩ : Response).word = (0 : RspWord) := by decide

/-- One command, from the start of EXEC to IDLE (R70). -/
theorem command_runs {s t : State} {ins} {c : Command} (hw : c.wellFormed = true)
    (hp : s.phase = .exec) (hd : s.done = none) (hc : decode s.cmd = decode c.word)
    (h : Runs s ins t) (ht : t.phase = .idle) :
   ∃ ins2 u bs, ins2.length < ins.length ∧ Runs u ins2 t ∧ u.phase = .idle ∧
     bs.length = (if (transact Config.lmax c s.snapshot).2.1.status = .ok then c.beats else
         []).length ∧
     (bs = (if (transact Config.lmax c s.snapshot).2.1.status = .ok then c.beats else []) →
       u.snapshot = (transact Config.lmax c s.snapshot).1 ∧
       Passed s u [] bs (markLast (transact Config.lmax c s.snapshot).2.2) [(transact Config.lmax c
           s.snapshot).2.1.word]) ∧
     u.env.gaveCmd = s.env.gaveCmd ∧ u.env.gaveDin = s.env.gaveDin ++ bs := by
  obtain ⟨i1, u1, l1, r1, hA, g1⟩ := exec_runs hw hp hd hc h ht
  cases hA with
  | resp a b e d nb =>
    obtain ⟨i2, u2, l2, r2, p2, s2, g2⟩ := resp_runs a r1 ht
    have hb' : (if (transact Config.lmax c s.snapshot).2.1.status = .ok then c.beats else []) = []
        := by
      split
      · next h => exact nb h
      · rfl
    refine ⟨i2, u2, [], by omega, r2, p2, by rw [hb'], fun _ => ⟨s2.trans b, ?_⟩, ?_, ?_⟩
    · rw [d, ← e]; exact g1.trans g2
    · have := (g1.trans g2).c; simpa using this
    · have := (g1.trans g2).d; simpa using this
  | load vs a b hf ck e f g i j =>
    have hz : u1.cnt.toNat = 0 := by rw [g]; rfl
    have hT := transact_ok (s := s) hf ck
    subst a
    obtain ⟨i2, u2, bs, l2, r2, e2, p2, q2, b2, f2, c2, g2⟩ := load_runs e (by
      rw [hz, i]; exact List.length_pos_iff.mpr b) r1 ht
    obtain ⟨i3, u3, l3, r3, p3, s3, g3⟩ := resp_runs p2 r2 ht
    have hlog := (g1.trans g2).trans g3
    refine ⟨i3, u3, bs, by omega, r3, p3, ?_, fun hbs => ⟨?_, ?_⟩, by simpa using hlog.c,
        by simpa using hlog.d⟩
    · rw [hT, e2, hz, i]; rfl
    · rw [hT] at hbs ⊢
      have hbs' : bs = vs := hbs
      have j1 : u1.fault = s.fault := congrArg Snapshot.fault j
      have j2 : u1.cause = s.cause := congrArg Snapshot.cause j
      rw [s3]; simp [State.snapshot, b2, f2, c2, f, hbs', Command.container, j1, j2]
    · rw [hT]
      have : u2.rsp = (⟨Status.ok, 0⟩ : Response).word := by rw [q2, ok_word]
      rw [this] at hlog
      simpa [Command.output, Command.data, markLast] using hlog
  | stream a hf e g hl j =>
    subst a
    have hT := transact_ok (s := s) (c := .iter) hf rfl
    have j0 : u1.box = s.box := congrArg Snapshot.box j
    have hz : u1.cnt.toNat = 0 := by rw [g]; rfl
    obtain ⟨i2, u2, l2, r2, p2, q2, s2, g2⟩ := stream_runs e (by
      rw [j0]; show u1.cnt.toNat < _; rw [hz]
      exact Nat.pos_of_ne_zero fun x => hl (BitVec.eq_of_toNat_eq x)) r1 ht
    obtain ⟨i3, u3, l3, r3, p3, s3, g3⟩ := resp_runs p2 r2 ht
    have hlog := (g1.trans g2).trans g3
    rw [q2, j0, hz] at hlog
    refine ⟨i3, u3, [], by omega, r3, p3, ?_, fun hbs => ⟨?_, ?_⟩, by simpa using hlog.c,
        by simpa using hlog.d⟩
    · rw [hT]; rfl
    · rw [hT, s3, s2, j]; rfl
    · rw [hT]; rw [← ok_word] at hlog; simpa [Command.output, Command.data] using hlog


/-- A run only adds to the words and beats transferred. -/
theorem runs_grow {s t : State} {ins} (h : Runs s ins t) : ∃ xs ys,
    t.env.gaveCmd = s.env.gaveCmd ++ xs ∧ t.env.gaveDin = s.env.gaveDin ++ ys := by
  induction ins generalizing s with
  | nil => rw [h.nil]; exact ⟨[], [], by simp [State.fed], by simp [State.fed]⟩
  | cons p ins ih =>
    obtain ⟨u, hu, h'⟩ := h.cons
    obtain ⟨xs, ys, h1, h2⟩ := ih h'
    have : ∃ a b, u.env.gaveCmd = s.env.gaveCmd ++ a ∧ u.env.gaveDin = s.env.gaveDin ++ b := by
      rcases State.advance_cases p ((s.fed ins).noteOffers p) with ⟨_, x⟩ | ⟨_, x⟩ | ⟨_, x⟩ | ⟨_,
          _, x⟩ | ⟨_, _, x⟩ | ⟨_, x⟩ <;> rw [x] at hu
      · cases hu; split
        · exact ⟨[p.cmdWord], [], by simp [State.fed], by simp [State.fed]⟩
        · exact ⟨[], [], by simp [State.fed], by simp [State.fed]⟩
      · rw [State.env_execCycle hu]
        exact ⟨[], [], by simp [State.fed], by simp [State.fed]⟩
      · cases hu; split
        · rw [State.env_takeBeat]; exact ⟨[], [p.dinData], by simp [State.fed], by simp [State.fed]⟩
        · exact ⟨[], [], by simp [State.fed], by simp [State.fed]⟩
      · cases hu; split
        · unfold State.sendBeat; split <;> exact ⟨[], [], by simp [State.fed], by simp [State.fed]⟩
        · exact ⟨[], [], by simp [State.fed], by simp [State.fed]⟩
      · cases hu
      · cases hu; split <;> exact ⟨[], [], by simp [State.fed], by simp [State.fed]⟩
    obtain ⟨a, b, h3, h4⟩ := this
    exact ⟨a ++ xs, b ++ ys, by rw [h1, h3, List.append_assoc], by rw [h2, h4, List.append_assoc]⟩

/-- IDLE on a run: the cycle takes no word, or it takes the one offered (R22, R23). -/
theorem idle_runs {s t : State} {p ins} (hp : s.phase = .idle) (h : Runs s (p :: ins) t) :
    (p.cmdValid = false ∧ Runs ((s.fed ins).noteOffers p) ins t) ∨ (p.cmdValid = true ∧ Runs
        (((s.fed ins).noteOffers p).accept p.cmdWord) ins t) := by
  obtain ⟨u, hu, h'⟩ := h.cons
  have hp' : ((s.fed ins).noteOffers p).phase = .idle := hp
  simp only [State.advance, hp'] at hu
  cases hv : p.cmdValid <;> rw [hv] at hu <;> cases hu
  · exact .inl ⟨rfl, h'⟩
  · exact .inr ⟨rfl, h'⟩

end Sys2Proof.Machine
end

