-- ==== Sys2Proof/Laws/Serve.lean ====
section
/-! SUPPORT. A host that serves the block: for each phase, input cycles that take it to the next (R180). -/

namespace Sys2Proof.Machine

/-- Some input cycles, none a reset, take `s` to `u` whatever comes after,
    offering the words `nc` and
the beats `nd`. -/
def Reach (s u : State) (nc : List CmdWord := []) (nd : List Word := []) : Prop :=
    ∃ xs : List PortIn, (∀ p ∈ xs, p.rst = false) ∧ (xs.filter (·.cmdValid)).map (·.cmdWord) = nc ∧
    (xs.filter (·.dinValid)).map (·.dinData) = nd ∧ ∀ ins, s.runOn (xs ++ ins) = u.runOn ins

/-- No cycle at all. -/
theorem Reach.refl (s : State) : Reach s s := ⟨[], by simp, rfl, rfl, fun _ => rfl⟩

/-- One stretch after another. -/
theorem Reach.trans {s u v : State} {a a' b b' ca cb} (h : Reach s u a b) (h' : Reach u v a' b')
    (hca : a ++ a' = ca := by first | rfl | simp) (hcb : b ++ b' = cb :=
    by first | rfl | simp) : Reach s v ca cb := by
  subst hca hcb
  obtain ⟨xs, hx, c1, d1, hx'⟩ := h
  obtain ⟨ys, hy, c2, d2, hy'⟩ := h'
  refine ⟨xs ++ ys, fun p m => ?_, by simp [c1, c2], by simp [d1, d2], fun ins => ?_⟩
  · rcases List.mem_append.mp m with m | m
    · exact hx p m
    · exact hy p m
  · rw [List.append_assoc, hx', hy']

/-- One cycle. -/
theorem Reach.one {s u : State} (p : PortIn) (hr : p.rst = false) (h : ∀ ins,
    (s.fed ins).cycle p = .next (u.fed ins)) : Reach s u (if p.cmdValid then [p.cmdWord] else [])
    (if p.dinValid then [p.dinData] else []) :=
  ⟨[p], by simpa using hr, by cases hc : p.cmdValid <;> simp [hc],
      by cases hc : p.dinValid <;> simp [hc], fun ins => State.runOn_cons (h ins)⟩

/-- The host holds no offer (R171). -/
def HostFree (s : State) : Prop := s.env.heldCmd = none ∧ s.env.heldDin = none

/-- The pins of a cycle in which the host does nothing. -/
def quietPins : PortIn := ⟨false, false, 0, false, 0, false, false⟩

/-- One cycle of a host that holds no offer, and holds none afterwards. -/
theorem Reach.move {s : State} {u : State} (hf : HostFree s) (p : PortIn) (hr : p.rst = false)
   (hc : stillHeld (s.outputs false).cmdReady p.cmdValid p.cmdWord = none) (hd : stillHeld
       (s.outputs false).dinReady p.dinValid p.dinData = none)
   (h : ∀ ins, (s.fed ins).advance p = .next (u.fed ins)) : Reach s u
       (if p.cmdValid then [p.cmdWord] else []) (if p.dinValid then [p.dinData] else []) := by
  refine Reach.one p hr fun ins => ?_
  rw [State.cycle_eq (s := s.fed ins) hr (State.hostKeepsOffers_free (s := s.fed ins) hf.1 hf.2 p)]
  have : (s.fed ins).noteOffers p = s.fed ins := by
    show ({ (s.fed ins) with env := { (s.fed ins).env with heldCmd := _, heldDin := _ } } : State)
        = _
    have a : stillHeld ((s.fed ins).outputs p.rst).cmdReady p.cmdValid p.cmdWord = s.env.heldCmd :=
        by rw [hf.1, hr]; exact hc
    have b : stillHeld ((s.fed ins).outputs p.rst).dinReady p.dinValid p.dinData = s.env.heldDin :=
        by rw [hf.2, hr]; exact hd
    rw [a, b]; rfl
  rw [this]; exact h ins

/-- One cycle in which the host does nothing. -/
theorem Reach.idleMove {s u : State} (hf : HostFree s) (h : ∀ ins,
    (s.fed ins).advance quietPins = .next (u.fed ins)) : Reach s u :=
  Reach.move hf quietPins rfl rfl rfl h

/-- The cycles of EXEC before the work (R180). -/
theorem reach_wait {s : State} (hf : HostFree s) (hp : s.phase = .exec)
    (hd : s.done = none) : Reach s { s with wait := 0 } := by
  generalize hw : s.wait = n
  induction n generalizing s with
  | zero => rw [← hw]; exact .refl s
  | succ n ih =>
    refine Reach.trans (a := []) (b := []) (u := { s with wait := n }) ?_ (ih (s :=
        { s with wait := n }) hf hp hd rfl)
    refine Reach.idleMove hf fun ins => ?_
    have hp' : (s.fed ins).phase = .exec := hp
    simp only [State.advance, hp', State.execCycle]
    have hd' : (s.fed ins).done = none := hd
    simp only [hd']
    rw [if_neg (show (s.fed ins).wait ≠ 0 by show s.wait ≠ 0; omega)]
    simp [State.fed, hp, hd, hw]

/-- The cycles of EXEC after the work (R180). -/
theorem reach_rest {s : State} (hf : HostFree s) (hp : s.phase = .exec) {q : Phase}
    (hd : s.done = some q) : Reach s { s with rest := 0, phase := q, done := none } := by
  generalize hw : s.rest = n
  induction n generalizing s with
  | zero =>
    rw [← hw]
    refine Reach.idleMove hf fun ins => ?_
    have hp' : (s.fed ins).phase = .exec := hp
    have hd' : (s.fed ins).done = some q := hd
    simp only [State.advance, hp', State.execCycle, hd']
    rw [if_pos (show (s.fed ins).rest = 0 from hw)]; rfl
  | succ n ih =>
    refine Reach.trans (a := []) (b := []) (u := { s with rest := n }) ?_ (ih (s :=
        { s with rest := n }) hf hp hd rfl)
    refine Reach.idleMove hf fun ins => ?_
    have hp' : (s.fed ins).phase = .exec := hp
    have hd' : (s.fed ins).done = some q := hd
    simp only [State.advance, hp', State.execCycle, hd']
    rw [if_neg (show (s.fed ins).rest ≠ 0 by show s.rest ≠ 0; omega)]
    simp [State.fed, hp, hd, hw]

/-- Settling does not look at the inputs to come. -/
theorem settle_fed (t : State) (ins) : (t.fed ins).settle = t.settle.fed ins := by
  unfold State.settle
  by_cases h : t.rest = 0
  · rw [if_pos h, if_pos (show (t.fed ins).rest = 0 from h)]
  · rw [if_neg h, if_neg (show ¬ (t.fed ins).rest = 0 from h)]; rfl

/-- Through EXEC: the work is done, and the phase it chose is entered (R70, R180). -/
theorem reach_exec {s : State} (hf : HostFree s) (hp : s.phase = .exec) (hd : s.done = none) :
   ∃ t, exec (decode s.cmd) { s with wait := 0 } = .next t ∧
       State.SameAround { s with wait := 0 } t ∧ Reach s { t with rest := 0 } := by
  obtain ⟨t, e, hs⟩ := exec_next (decode s.cmd) { s with wait := 0 }
  refine ⟨t, e, hs, (reach_wait hf hp hd).trans ?_⟩
  have h1 : Reach { s with wait := 0 } t.settle := by
    refine Reach.idleMove hf fun ins => ?_
    have hp' : (State.fed ins { s with wait := 0 }).phase = .exec := hp
    have hd' : (State.fed ins { s with wait := 0 }).done = none := hd
    simp only [State.advance, hp', State.execCycle, hd']
    rw [if_pos (show (State.fed ins { s with wait := 0 }).wait = 0 from rfl)]
    show settleOutcome (exec (decode s.cmd) _) = _
    rw [exec_fed e]
    show Host.Outcome.next (t.fed ins).settle = _
    rw [settle_fed]
  refine h1.trans ?_
  unfold State.settle
  have hfree : HostFree t := by unfold HostFree; rw [hs.env]; exact hf
  have hdn : t.done = none := hs.done.trans hd
  split
  · next h => rw [← h]; exact .refl t
  · next h =>
    have := reach_rest (s := { t with phase := .exec, done := some t.phase, rest := t.rest - 1 })
        (q := t.phase) hfree rfl rfl
    refine this.trans ?_
    show Reach { t with rest := 0, phase := t.phase, done := none } _
    rw [← hdn]; exact .refl _

/-- The host takes the response (R23). -/
theorem reach_resp {s : State} (hf : HostFree s) (hp : s.phase = .resp) : Reach s s.deliver := by
  refine Reach.move hf ⟨false, false, 0, false, 0, false, true⟩ rfl rfl rfl fun ins => ?_
  have hp' : (s.fed ins).phase = .resp := hp
  simp only [State.advance, hp', if_true]; rfl

/-- The host gives the beats of a FROM, and the last one commits (R103, R104). -/
theorem reach_load {s : State} {vs : List Word} (hf : HostFree s) (hp : s.phase = .load)
    (hv : vs ≠ []) (hn : s.cnt.toNat + vs.length = s.nreq.toNat) :
  ∃ u, Reach s u [] vs ∧ u.phase = .resp ∧ u.rsp = 0 ∧ u.box = Container.ofSeq (s.acc ++ vs) ∧
      u.fault = s.fault ∧ u.cause = s.cause ∧ HostFree u ∧ Passed s u [] vs [] [] := by
  induction vs generalizing s with
  | nil => exact absurd rfl hv
  | cons v vs ih =>
    have hlt : s.cnt < s.nreq := by show s.cnt.toNat < s.nreq.toNat; simp at hn; omega
    have hs := toNat_succ_of_lt hlt
    have mv : Reach s (s.takeBeat v) [] [v] := by
      refine Reach.move hf ⟨false, false, 0, true, v, false, false⟩ rfl rfl ?_ fun ins => ?_
      · have : (s.outputs false).dinReady = true := by simp [State.outputs, hp]
        rw [this]; rfl
      · have hp' : (s.fed ins).phase = .load := hp
        simp only [State.advance, hp', if_true]
        congr 1
        unfold State.takeBeat
        by_cases hc : s.cnt + 1 = s.nreq
        · rw [if_pos hc, if_pos (show (s.fed ins).cnt + 1 = (s.fed ins).nreq from hc)]; rfl
        · rw [if_neg hc, if_neg (show ¬ (s.fed ins).cnt + 1 = (s.fed ins).nreq from hc)]; rfl
    cases vs with
    | nil =>
      have hc : s.cnt + 1 = s.nreq := BitVec.eq_of_toNat_eq (by rw [hs]; simpa using hn)
      refine ⟨_, mv, ?_⟩
      rw [State.takeBeat, if_pos hc]
      exact ⟨rfl, rfl, rfl, rfl, rfl, hf, by constructor <;> simp⟩
    | cons w ws =>
      have hc : ¬ s.cnt + 1 = s.nreq := fun e => by rw [← e, hs] at hn; simp at hn
      have e : s.takeBeat v = s.addBeat v := by rw [State.takeBeat, if_neg hc]
      rw [e] at mv
      obtain ⟨u, hr, h1, h2, h3, h4, h5, h6, h7⟩ := ih (s := s.addBeat v) hf hp (by simp) (by
        show (s.cnt + 1).toNat + _ = s.nreq.toNat; rw [hs]; simp at hn ⊢; omega)
      exact ⟨u, mv.trans hr, h1, h2, by simpa using h3, h4, h5, h6, ⟨by rw [h7.c]; simp,
          by rw [h7.d]; simp, h7.o, h7.r⟩⟩

/-- The host takes the beats of an ITER (R120, R124). -/
theorem reach_stream {s : State} (k : Nat) (hf : HostFree s) (hp : s.phase = .stream) (hk : k ≠ 0)
    (hn : s.cnt.toNat + k = s.box.len.toNat) :
  ∃ u, Reach s u ∧ u.phase = .resp ∧ u.rsp = 0 ∧ u.box = s.box ∧ u.fault = s.fault ∧
      u.cause = s.cause ∧ HostFree u ∧ u.env.gaveCmd = s.env.gaveCmd ∧
      u.env.gaveDin = s.env.gaveDin := by
  induction k generalizing s with
  | zero => exact absurd rfl hk
  | succ k ih =>
    have hltn : s.cnt.toNat < s.box.len.toNat := by omega
    have hlt : s.cnt < s.box.len := hltn
    have hs := toNat_succ_of_lt hlt
    obtain ⟨_, hiff⟩ := drop_beat hlt
    have mv : Reach s s.sendBeat := by
      refine Reach.move hf ⟨false, false, 0, false, 0, true, false⟩ rfl rfl rfl fun ins => ?_
      have hp' : (s.fed ins).phase = .stream := hp
      simp only [State.advance, hp', if_true]
      rw [if_pos (show (s.fed ins).cnt < (s.fed ins).box.len from hlt)]
      congr 1
      unfold State.sendBeat
      by_cases hc : s.cnt = s.box.len - 1
      · rw [if_pos hc, if_pos (show (s.fed ins).cnt = (s.fed ins).box.len - 1 from hc)]; rfl
      · rw [if_neg hc, if_neg (show ¬ (s.fed ins).cnt = (s.fed ins).box.len - 1 from hc)]; rfl
    by_cases hc : s.cnt = s.box.len - 1
    · refine ⟨_, mv, ?_⟩
      have hc' := hiff.mp hc
      rw [State.sendBeat, if_pos hc]
      exact ⟨rfl, rfl, rfl, rfl, rfl, hf, rfl, rfl⟩
    · have hc' : ¬ _ := fun h => hc (hiff.mpr h)
      have e : s.sendBeat =
          { s with cnt := s.cnt + 1, env := { s.env with gotDout := s.env.gotDout ++ [s.beat] } }
          := by rw [State.sendBeat, if_neg hc]
      rw [e] at mv
      obtain ⟨u, hr, h⟩ := ih (s :=
          { s with cnt := s.cnt + 1, env := { s.env with gotDout := s.env.gotDout ++ [s.beat] } })
          hf hp (by omega) (by
        show (s.cnt + 1).toNat + _ = s.box.len.toNat; omega)
      exact ⟨u, mv.trans hr, h⟩

end Sys2Proof.Machine
end

