-- ==== Sys2Proof/Tests/Slice0.lean ====
section
/-! SUPPORT. Tests. Expected values are those of spec/95_test_vectors.md (named V-.., S1.. or P1.. after
its rows) or of the rule named. Then one witness per statement with hypotheses. -/

namespace Sys2Proof.Tests

open Sys2Proof Sys2Proof.Machine

/-! ### Helpers -/

/-- A container with these buffer bytes, MASK that of its width. -/
def boxOf (t : Width) (n : Word) (bytes : List Byte) : Container :=
  { tag := t, mask := t.maskOf, len := n, buf := Mem.ofBytes 0 bytes }

/-- The reset state with another container. -/
def holds (c : Container) : State := { State.reset with box := c }

/-- The container and the response a command's work leaves. -/
def boxAndRsp : Host.Outcome State Fault Refusal → Option (Container × RspWord)
  | .next s => some (s.box, s.rsp)
  | .fault _ => none
  | .refused _ => none

/-- FAULT, CAUSE and the container a command's work leaves. -/
def faultOf : Host.Outcome State Fault Refusal → Option (Bool × BitVec 4 × Container)
  | .next s => some (s.fault, s.cause, s.box)
  | .fault _ => none
  | .refused _ => none

/-- The input pins of a host that does nothing. -/
def noInput : PortIn where
  rst := false
  cmdValid := false
  cmdWord := 0
  dinValid := false
  dinData := 0
  doutReady := false
  rspReady := false

/-- `FROM [3, 7, 1]` (V-UP-02, V-FLT-01). -/
def box371 : Container := boxOf .w4 3 [0x73, 0x01]

/-! ### Well-formedness: an ill-formed term for each check -/

theorem test_wellFormed_command : Instr.wellFormed (.setr 1 31 7) = true := rfl
theorem test_illFormed_reserved0 : Instr.wellFormed .reserved0 = false := rfl
theorem test_illFormed_reservedA : Instr.wellFormed .reservedA = false := rfl
theorem test_illFormed_reservedB : Instr.wellFormed .reservedB = false := rfl
theorem test_illFormed_reservedC : Instr.wellFormed .reservedC = false := rfl
theorem test_illFormed_reservedD : Instr.wellFormed .reservedD = false := rfl
theorem test_illFormed_reservedE : Instr.wellFormed .reservedE = false := rfl
theorem test_illFormed_reservedF : Instr.wellFormed .reservedF = false := rfl
theorem test_wellFormed_line : AsmLine.wellFormed (.setr 1 4294967295 4294967295) = true := by decide
theorem test_illFormed_new : AsmLine.wellFormed (.new 4294967296) = false := by decide
theorem test_illFormed_filled_length : AsmLine.wellFormed (.filled 4294967296 1) = false := by decide
theorem test_illFormed_filled_value : AsmLine.wellFormed (.filled 1 4294967296) = false := by decide
theorem test_illFormed_from_count : AsmLine.wellFormed (.fromCount 4294967296) = false := by decide
theorem test_illFormed_from_value : AsmLine.wellFormed (.fromList [0, 4294967296]) = false := by decide
theorem test_illFormed_from_length (vs : List Nat) (h : vs.length = 4294967296) :
    AsmLine.wellFormed (.fromList vs) = false := by
  simp [AsmLine.wellFormed, fitsWord, h]
theorem test_illFormed_din : AsmLine.wellFormed (.din 4294967296) = false := by decide
theorem test_illFormed_get : AsmLine.wellFormed (.get 4294967296) = false := by decide
theorem test_illFormed_set_index : AsmLine.wellFormed (.set 4294967296 0) = false := by decide
theorem test_illFormed_set_value : AsmLine.wellFormed (.set 0 4294967296) = false := by decide
theorem test_illFormed_setr_start : AsmLine.wellFormed (.setr 4294967296 0 0) = false := by decide
theorem test_illFormed_setr_end : AsmLine.wellFormed (.setr 0 4294967296 0) = false := by decide
theorem test_illFormed_setr_value : AsmLine.wellFormed (.setr 0 0 4294967296) = false := by decide
theorem test_illFormed_command : Command.wellFormed (.illegal 5) = false := by decide

/-! ### Decoding: V-ENC-01 to V-ENC-20 and the other reserved opcodes -/

theorem test_decode_new : decode 0x1000000640000000000000000 = .new 100 := by decide
theorem test_decode_new_0 : decode 0x1000000000000000000000000 = .new 0 := by decide
theorem test_decode_filled : decode 0x2000000080000000000000005 = .filled 8 5 := by decide
theorem test_decode_from : decode 0x3000000040000000000000000 = .fromBeats 4 := by decide
theorem test_decode_get : decode 0x4000000320000000000000000 = .get 50 := by decide
theorem test_decode_get_garbage : decode 0x400000002FFFFFFFFFFFFFFFF = .get 2 := by decide
theorem test_decode_set : decode 0x500000032000000000000012C = .set 50 300 := by decide
theorem test_decode_set_max : decode 0x50000000000000000FFFFFFFF = .set 0 4294967295 := by decide
theorem test_decode_setr : decode 0x6000000020000000600000009 = .setr 2 6 9 := by decide
theorem test_decode_iter : decode 0x7000000000000000000000000 = .iter := by decide
theorem test_decode_mask : decode 0x8000000000000000000000000 = .mask := by decide
theorem test_decode_len : decode 0x9000000000000000000000000 = .len := by decide
theorem test_decode_reserved0 : decode 0x0000000000000000000000000 = .reserved0 := by decide
theorem test_decode_reservedA : decode 0xA000000000000000000000000 = .reservedA := by decide
theorem test_decode_reservedB : decode 0xB000000000000000000000000 = .reservedB := by decide
theorem test_decode_reservedC : decode 0xC000000000000000000000000 = .reservedC := by decide
theorem test_decode_reservedD : decode 0xD000000000000000000000000 = .reservedD := by decide
theorem test_decode_reservedE : decode 0xE000000000000000000000000 = .reservedE := by decide
theorem test_decode_reservedF : decode 0xFFFFFFFFFFFFFFFFFFFFFFFFF = .reservedF := by decide
theorem test_encode_setr : encode (.setr 1 31 7) = 0x6000000010000001F00000007 := by decide
/-- The 101-bit number has no row of the one 100-bit format (R62, R71). -/
theorem test_decode_too_wide :
    decodeBits 0x10000000000000000000000000 = .error .widerThanCommandWord := by rfl
theorem test_table_word : decodeTableWord 100 0x500000032000000000000012C = some (.set 50 300) := by decide

/-! ### Assembler text (R72, R73) -/

theorem test_asm_set :
    assembleText "SET 50, 300".toList = some [.cmd 0x500000032000000000000012C] := by decide
theorem test_asm_hex_comment :
    assembleText "GET 0x32 ; the fiftieth".toList = some [.cmd 0x4000000320000000000000000] := by decide
theorem test_asm_from_list : assembleText "FROM [3, 7]".toList =
    some [.cmd 0x3000000020000000000000000, .din 3, .din 7] := by decide
theorem test_asm_from_empty :
    assembleText "FROM []".toList = some [.cmd 0x3000000000000000000000000] := by decide
theorem test_asm_too_big : assembleText "NEW 4294967296".toList = none := by decide

/-! ### Primitives: V-REP rows -/

/-- V-REP-01. -/
theorem test_repGet4 : repIter .w4 (Mem.ofBytes 0 [0x73, 0x91]) 4 = [3, 7, 1, 9] := by decide
/-- V-REP-03 and V-REP-05: no sign. -/
theorem test_repGet_unsigned : repGet .w8 (Mem.ofBytes 0 [0xFF]) 0 = 255 ∧
    repGet .w32 (Mem.ofBytes 0 [0xFF, 0xFF, 0xFF, 0xFF]) 0 = 4294967295 := by decide
/-- V-REP-06 and V-REP-07. -/
theorem test_repSet4 : repSet .w4 (Mem.ofBytes 0 [0x73, 0x91]) 2 12 = Mem.ofBytes 0 [0x73, 0x9C] ∧
    repSet .w4 (Mem.ofBytes 0 [0x73, 0x9C]) 1 0 = Mem.ofBytes 0 [0x03, 0x9C] := by decide
/-- V-REP-10. -/
theorem test_repSet16 : repSet .w16 [] 1 300 = Mem.ofBytes 0 [0x00, 0x00, 0x2C, 0x01] := by decide
/-- V-REP-13 and V-REP-14. -/
theorem test_pack : pack .w4 [3, 7, 1] = Mem.ofBytes 0 [0x73, 0x01] ∧
    pack .w32 [0, 0, 70000] = Mem.ofBytes 0 [0, 0, 0, 0, 0, 0, 0, 0, 0x70, 0x11, 0x01, 0x00] := by decide
/-- V-REP-16 and V-REP-17. -/
theorem test_widths : [0, 15, 16, 255, 256, 65535, 65536, 4294967295].map minWidth =
      [.w4, .w4, .w8, .w8, .w16, .w16, .w32, .w32] ∧
    [16, 255, 256, 65535, 65536, 4294967295].map upWidth = [.w8, .w8, .w16, .w16, .w32, .w32] := by decide
/-- V-REP-18. -/
theorem test_nUnits : [0, 1, 2, 3, 100, 4294967295].map (Width.nUnits .w4) =
    [0, 1, 1, 2, 50, 2147483648] := by decide
/-- V-FILL-04, 05, 08, 14 and 18: each step of R87 alone and together. -/
theorem test_fill_parities :
    let m := Mem.ofBytes 0 [0x55, 0x55, 0x55, 0x55]
    repFill .w4 m 0 1 9 = Mem.ofBytes 0 [0x59, 0x55, 0x55, 0x55] ∧
    repFill .w4 m 1 2 9 = Mem.ofBytes 0 [0x95, 0x55, 0x55, 0x55] ∧
    repFill .w4 m 0 2 9 = Mem.ofBytes 0 [0x99, 0x55, 0x55, 0x55] ∧
    repFill .w4 m 1 7 9 = Mem.ofBytes 0 [0x95, 0x99, 0x99, 0x59] ∧
    repFill .w4 m 3 5 9 = Mem.ofBytes 0 [0x55, 0x95, 0x59, 0x55] := by decide
/-- V-FILL-01 to 03: an empty range. -/
theorem test_fill_empty :
    let m := Mem.ofBytes 0 [0x55, 0x55, 0x55, 0x55]
    repFill .w4 m 0 0 9 = m ∧ repFill .w4 m 3 3 9 = m ∧ repFill .w4 m 8 8 9 = m := by decide
/-- V-FILL-21: the padding nibble stays 0. -/
theorem test_fill_padding : repFill .w4 (Mem.ofBytes 0 [0x55, 0x55, 0x55, 0x05]) 0 7 9 =
    Mem.ofBytes 0 [0x99, 0x99, 0x99, 0x09] := by decide

/-! ### Commands, one step of work each -/

/-- V-FLT-07 with LMAX = 16: NEW 16 builds, NEW 17 is over capacity. -/
theorem test_new_at_capacity : (newAt 16 16 State.reset).box = boxOf .w4 16 [] ∧
    (newAt 16 17 State.reset).rsp = 0x400000000 ∧ (newAt 16 17 State.reset).cause = 4 := by decide
theorem test_new_zero : boxAndRsp (exec (.new 0) State.reset) = boxAndRsp (exec (.fromBeats 0) State.reset) := by
  show boxAndRsp (.next (newAt Config.lmax 0 State.reset)) =
    boxAndRsp (.next (fromAt Config.lmax 0 State.reset))
  rw [newAt, fromAt, State.checked_good _ _ rfl (overCapacity_eq_false.mpr (Nat.zero_le _)),
    State.checked_good _ _ rfl (overCapacity_eq_false.mpr (Nat.zero_le _))]
  rfl
/-- V-CON-06 and V-CON-10. -/
theorem test_filled : (filledAt 16 3 5 State.reset).box = boxOf .w4 3 [0x55, 0x05] ∧
    (filledAt 16 2 256 State.reset).box = boxOf .w16 2 [0x00, 0x01, 0x00, 0x01] := by decide
/-- V-CON-05: a length of 0 keeps the width of the value. -/
theorem test_filled_empty : (filledAt 16 0 300 State.reset).box = boxOf .w16 0 [] := by decide
/-- V-FLT-08 with LMAX = 16: no beat is taken. -/
theorem test_from_over_capacity : (fromAt 16 17 State.reset).phase = .resp ∧
    (fromAt 16 17 State.reset).cause = 4 := by decide
/-- V-BEAT-01: the third beat commits. -/
theorem test_from_last_beat :
    let s := { State.reset with phase := .load, cnt := 2, nreq := 3, acc := [3, 7] }
    (s.takeBeat 1).box = box371 ∧ (s.takeBeat 1).phase = .resp ∧ (s.takeBeat 1).rsp = 0 := by decide
/-- S1: GET 2 of FROM [3, 7, 1, 9]. -/
theorem test_get : boxAndRsp (exec (.get 2) (holds (boxOf .w4 4 [0x73, 0x91]))) =
    some (boxOf .w4 4 [0x73, 0x91], 0x000000001) := by decide
/-- V-FLT-01: index 3 is the padding nibble's position and faults. -/
theorem test_get_padding : faultOf (exec (.get 3) (holds box371)) = some (true, 2, box371) := by decide
/-- V-UP-02 and V-UP-06: W4 to W16 and W16 to W32. -/
theorem test_set_upscales : (box371.set 0 256) = boxOf .w16 3 [0x00, 0x01, 0x07, 0x00, 0x01, 0x00] ∧
    (boxOf .w16 2 [0x2C, 0x01, 0xFF, 0xFF]).set 0 70000 =
      boxOf .w32 2 [0x70, 0x11, 0x01, 0x00, 0xFF, 0xFF, 0x00, 0x00] := by decide
/-- V-UP-07: writing 15 at W4 upscales nothing. -/
theorem test_set_at_mask : boxAndRsp (exec (.set 1 15) (holds (boxOf .w4 2 []))) =
    some (boxOf .w4 2 [0xF0], 0) := by decide
/-- S4: SETR 1, 31, 7 on NEW 100. -/
theorem test_setr_s4 : boxAndRsp (exec (.setr 1 31 7) (holds (boxOf .w4 100 []))) =
    some (boxOf .w4 100 (0x70 :: List.replicate 14 0x77 ++ [0x07]), 0) := by decide
/-- V-UP-12: an empty range still upscales; V-UP-14: SETR that upscales. -/
theorem test_setr_upscales :
    boxAndRsp (exec (.setr 2 2 300) (holds box371)) =
      some (boxOf .w16 3 [0x03, 0x00, 0x07, 0x00, 0x01, 0x00], 0) ∧
    (boxOf .w4 5 [0x73, 0x91, 0x04]).setr 1 4 200 = boxOf .w8 5 [0x03, 0xC8, 0xC8, 0xC8, 0x04] := by decide
/-- V-FLT-04 and program 4, step 2: the end above LEN. -/
theorem test_setr_range : faultOf (exec (.setr 0 9 1) (holds (boxOf .w4 8 []))) =
    some (true, 3, boxOf .w4 8 []) := by decide
/-- V-BEAT-02: the beats of ITER after FROM [3, 7, 1]. -/
theorem test_iter_beats :
    let s := { holds box371 with phase := .stream }
    s.beat = 0x000000003 ∧ ({ s with cnt := 2 } : State).beat = 0x100000001 ∧
    ({ s with cnt := 2 } : State).sendBeat.phase = .resp := by decide
/-- V-IT-02: no beat from an empty container. -/
theorem test_iter_empty : boxAndRsp (exec .iter State.reset) = some (boxOf .w4 0 [], 0) := by decide
/-- V-UP-09. -/
theorem test_mask : boxAndRsp (exec .mask (holds (boxOf .w16 2 []))) =
    some (boxOf .w16 2 [], 0x00000FFFF) := by decide
/-- V-IT-03. -/
theorem test_len : boxAndRsp (exec .len (holds (boxOf .w4 5 []))) = some (boxOf .w4 5 [], 5) := by decide
/-- V-FLT-06: CAUSE keeps the first code, and the second answer is ERR_HALTED. -/
theorem test_reserved : faultOf (exec .reserved0 State.reset) = some (true, 1, boxOf .w4 0 []) ∧
    boxAndRsp (exec .reservedA { State.reset with fault := true, cause := 1 }) =
      some (boxOf .w4 0 [], 0xF00000000) := by decide
/-- Program 1 at the transaction level, its last values. -/
theorem test_transact_program1 :
    let k1 := (transact 16 (.new 10) State.reset.snapshot).1
    let k2 := (transact 16 (.setr 3 8 6) k1).1
    let k3 := (transact 16 (.set 4 13) k2).1
    k3.box = boxOf .w4 10 [0x00, 0x60, 0x6D, 0x66, 0x00] ∧
    (transact 16 .iter k3).2.2 = [0, 0, 0, 6, 13, 6, 6, 6, 0, 0] := by decide
/-- One step from reset with a word placed (log 13): MASK answers 15 (V-IT-04). -/
theorem test_fetch_word : boxAndRsp (step (State.reset.withFetchWord 104 0x8000000000000000000000000)) =
    some (boxOf .w4 0 [], 0x00000000F) := by decide

/-! ### Witnesses: for each statement with hypotheses, a state and operands that meet them, clause by
clause at the ends of the clause's range. `Config.lmax` may be 0, so a witness for a clause about it
takes length 0, and the clauses with LMAX as an argument take 16 and 17. -/

theorem good371 : box371.Good :=
  ⟨by decide, by decide, by decide, fun _ _ => by decide⟩

theorem good_w8 : (boxOf .w8 3 [200, 7, 1]).Good :=
  ⟨by decide, by decide, by decide, fun h => by cases h⟩

/-- The states the witnesses use: a container of length 3 at W4, running and halted. -/
def s371 : State := holds box371
def halted : State := { State.reset with fault := true, cause := 2 }

theorem good_halted : halted.Good :=
  State.good_quiet (s := halted) State.good_reset.box (Nat.zero_le _) ⟨.index, rfl⟩ rfl (.inl rfl)

theorem witness_AssemblerGivesWordsAndBeats :
    ((0 : Nat) < 2 ^ 32 ∧ (4294967295 : Nat) < 2 ^ 32 ∧ (2 : Nat) ^ 32 ≤ 4294967296) ∧
    (([] : List Nat).length < 2 ^ 32 ∧ ∀ v ∈ ([3, 4294967295] : List Nat), v < 2 ^ 32) ∧
    (∃ v ∈ ([0, 4294967296] : List Nat), 2 ^ 32 ≤ v) ∧
    AsmLine.setr 0 1 4294967296 ∈ [AsmLine.new 4294967296, .setr 0 1 4294967296] ∧
    (number "50".toList = some 50 ∧ number "0x32".toList = some 50 ∧ number "300".toList = some 300) ∧
    ["3".toList, "0xF".toList].map number = [3, 15].map some ∧ ';' ∉ "GET 0x32 ".toList := by
  decide

/-- Four thousand million numbers and more do not fit a FROM either. -/
theorem witness_AssemblerGivesWordsAndBeats_length :
    2 ^ 32 ≤ (List.replicate (2 ^ 32) (0 : Nat)).length := by rw [List.length_replicate]

theorem witness_NibbleLayout : (0 : Nat) < 4 ∧ (3 : Nat) < 4 := by decide
theorem witness_OneElementPerUnit :
    Width.w8 ≠ .w4 ∧ Width.w32 ≠ .w4 ∧ Mem.wf [] = true ∧ Mem.wf (Mem.ofBytes 0 [0, 9]) = true := by
  decide
theorem witness_ByteViewIsLittleEndian : 0 < Width.w4.unitBytes ∧ 3 < Width.w32.unitBytes := by decide
theorem witness_ElementsLieInTheBuffer : (0 : Nat) < 1 ∧ (4294967294 : Nat) < 4294967295 := by decide

theorem witness_EncodeThenDecode :
    Mem.wf (Mem.ofBytes 0 [0x73, 0x91]) = true ∧ (3 : Nat) ≤ 3 ∧ (15 : Word) ≤ Width.w4.maskOf ∧
    (4294967295 : Word) ≤ Width.w32.maskOf := by decide

theorem witness_UnitFillEqualsLoop :
    Mem.wf (Mem.ofBytes 0 [0x55, 0x55]) = true ∧ (3 : Nat) ≤ 3 ∧ (1 : Nat) ≤ 31 ∧
    (15 : Word) ≤ Width.w4.maskOf ∧ (65535 : Word) ≤ Width.w16.maskOf := by decide

theorem witness_PackThenIterate :
    (∀ v ∈ ([3, 7, 15] : List Word), v ≤ Width.w4.maskOf) ∧ Width.w8 ≠ .w4 ∧
    ∀ v ∈ ([0, 4294967295] : List Word), v ≤ Width.w32.maskOf := by
  simp [Width.maskOf]

theorem witness_WidthSelectionIsNarrowest :
    (15 : Word) ≤ Width.w4.maskOf ∧ (16 : Word) ≤ Width.w8.maskOf ∧ (15 : Word) < 16 := by decide

theorem witness_ElementsFitTheMask : box371.mask = box371.tag.maskOf := by decide
theorem witness_BufferIsPackOfContents : box371.Good := good371

theorem witness_UpscaleTargets :
    box371.mask = box371.tag.maskOf ∧ box371.mask < 16 ∧ (16 : Word) ≤ 255 ∧ box371.mask < 255 ∧
    box371.mask < 256 ∧ (255 : Word) < 256 ∧ (65535 : Word) ≤ 65535 ∧ box371.mask < 65536 ∧
    (65535 : Word) < 65536 ∧
    (boxOf .w8 3 [200, 7, 1]).mask = (boxOf .w8 3 [200, 7, 1]).tag.maskOf ∧
    (boxOf .w8 3 [200, 7, 1]).mask < 256 := by decide

theorem witness_NewValueDecidesTheWidth :
    box371.mask = box371.tag.maskOf ∧ box371.mask < 16 ∧ 3 ∈ box371.logical ∧
    (boxOf .w16 2 [0, 1]).mask = (boxOf .w16 2 [0, 1]).tag.maskOf ∧
    (boxOf .w16 2 [0, 1]).mask < 65536 := by decide

theorem witness_UpscaleRebuildsTheUnits :
    box371.tag.bits < Width.w8.bits ∧ 0 < box371.len.toNat ∧ 2 < box371.len.toNat ∧ box371.tag = .w4 ∧
    2 * 1 < box371.len.toNat ∧ 2 * 0 + 1 < box371.len.toNat ∧
    (boxOf .w8 3 [200, 7, 1]).tag.bits < Width.w32.bits ∧ (boxOf .w8 3 [200, 7, 1]).tag ≠ .w4 ∧
    2 < (boxOf .w8 3 [200, 7, 1]).len.toNat := by decide

theorem witness_UpscaleKeepsContents :
    box371.tag.bits < Width.w8.bits ∧ (0 : Word) < box371.len ∧ (2 : Word) < box371.len ∧
    (boxOf .w16 2 [0, 1]).tag.bits < Width.w32.bits := by decide

theorem witness_UpscaleBytePicture :
    box371.tag = .w4 ∧ (boxOf .w8 3 [200, 7, 1]).tag = .w8 ∧ (boxOf .w16 2 [0, 1]).tag = .w16 ∧
    Width.w8 ≠ .w4 := by decide

theorem witness_FromBuildsTheSequence :
    s371.snapshot.fault = false ∧ (List.replicate 16 (5 : Word)).length ≤ (16 : Word).toNat ∧
    (16 : Word).toNat < (List.replicate 17 (5 : Word)).length ∧
    ([] : List Word).length < 2 ^ 32 ∧ ([3, 7, 15] : List Word).length < 2 ^ 32 ∧
    (∀ v ∈ ([3, 7, 15] : List Word), v ≤ Width.w4.maskOf) ∧
    ∀ v ∈ ([0, 0, 70000] : List Word), v ≤ Width.w32.maskOf := by
  refine ⟨rfl, ?_⟩
  simp [Width.maskOf]

theorem witness_IncrementalFromIsFrom : ([0, 0, 70000] : List Word).length < 2 ^ 32 := by decide

theorem witness_NewBuildsZeros :
    s371.fault = false ∧ (16 : Word) ≤ 16 ∧ (16 : Word) < 17 ∧ (0 : Word) ≤ Config.lmax :=
  ⟨rfl, by decide, by decide, Nat.zero_le _⟩

theorem witness_FilledBuildsCopies :
    s371.fault = false ∧ (16 : Word) ≤ 16 ∧ (16 : Word) < 17 ∧ (0 : Word) ≤ Config.lmax ∧
    (15 : Word) ≤ 15 ∧ 0 < (3 : Word).toNat / 2 ∧ (3 : Word).toNat % 2 = 1 ∧ (15 : Word) < 16 ∧
    2 < (3 : Word).toNat :=
  ⟨rfl, by decide, by decide, Nat.zero_le _, by decide, by decide, by decide, by decide, by decide⟩

/-- In LOAD, before the last beat of three and at it. -/
def loading (cnt : Word) : State := { s371 with phase := .load, nreq := 3, cnt := cnt, acc := [] }

theorem witness_FromTakesItsBeats :
    s371.fault = false ∧ (0 : Word) ≤ Config.lmax ∧ (16 : Word) ≠ 0 ∧ (16 : Word) ≤ 16 ∧ (16 : Word) < 17 ∧
    (loading 0).phase = .load ∧ noInput.dinValid = false ∧
    ({ noInput with dinValid := true } : PortIn).dinValid = true ∧
    (loading 1).cnt + 1 ≠ (loading 1).nreq ∧ (loading 2).cnt + 1 = (loading 2).nreq :=
  ⟨rfl, Nat.zero_le _, by decide⟩

/-- A block with any storage at all has a FROM that goes to LOAD. -/
theorem witness_FromTakesItsBeats_nonempty (h : Config.lmax ≠ 0) :
    s371.fault = false ∧ (1 : Word) ≤ Config.lmax ∧ (1 : Word) ≠ 0 := by
  refine ⟨rfl, ?_, by decide⟩
  have := BitVec.toNat_ne.mp h
  simp [BitVec.le_def] at this ⊢
  omega

theorem witness_GetReturnsTheElement :
    s371.fault = false ∧ 0 < s371.box.len ∧ 2 < s371.box.len ∧ s371.box.len ≤ 3 ∧
    s371.box.mask = s371.box.tag.maskOf := by decide

theorem witness_SetWritesOneElement :
    s371.fault = false ∧ s371.box.Good ∧ 0 < s371.box.len ∧ 2 < s371.box.len ∧ (1 : Word) ≠ 2 ∧
    15 ≤ s371.box.mask ∧ s371.box.mask < 16 ∧ s371.box.len ≤ 3 ∧ s371.box.get 1 = 7 :=
  ⟨rfl, good371, by decide⟩

theorem witness_SetStoresOneUnit :
    s371.fault = false ∧ Mem.wf s371.box.buf = true ∧ 2 < s371.box.len ∧ 15 ≤ s371.box.mask ∧
    0 < byteOff s371.box.tag 2 ∧ byteOff s371.box.tag 2 + s371.box.tag.unitBytes ≤ 2 := by decide

theorem witness_SetrWritesItsRange :
    s371.fault = false ∧ s371.box.Good ∧ (3 : Word) ≤ 3 ∧ (0 : Word) ≤ 3 ∧ 3 ≤ s371.box.len ∧
    (0 : Word) ≤ 2 ∧ (2 : Word) < 3 ∧ (0 : Word) < 1 ∧ (3 : Word) ≤ 3 ∧ 15 ≤ s371.box.mask ∧
    s371.box.mask < 16 ∧ (4 : Word) < 5 ∧ s371.box.len < 4 ∧ (2 : Word) < 3 ∧ (3 : Word) = 2 + 1 :=
  ⟨rfl, good371, by decide⟩

theorem witness_SetrStoresItsUnits :
    s371.fault = false ∧ Mem.wf s371.box.buf = true ∧ (2 : Word) ≤ 2 ∧ (2 : Word) ≤ 3 ∧ (2 : Word) < 3 ∧
    3 ≤ s371.box.len ∧ 15 ≤ s371.box.mask ∧ 0 < byteOff s371.box.tag 2 ∧
    byteOff s371.box.tag (3 - 1) + s371.box.tag.unitBytes ≤ 2 := by decide

theorem witness_WritesAreReadBack :
    s371.fault = false ∧ s371.box.Good ∧ 0 < s371.box.len ∧ 2 < s371.box.len ∧ (0 : Word) ≠ 2 ∧
    s371.box.mask < (minWidth 16).maskOf ∧ ¬ s371.box.mask < (minWidth 15).maskOf ∧
    (1 : Word) ≤ 1 ∧ (1 : Word) ≤ 3 ∧ 3 ≤ s371.box.len ∧ (1 : Word) < 3 ∧ (2 : Word) < 3 ∧ (0 : Word) < 1 :=
  ⟨rfl, good371, by decide⟩

theorem witness_WritingTheMaskNeverUpscales (t : Width) :
    let s := holds (boxOf t 1 [])
    let v := t.maskOf
    s.fault = false ∧ s.box.mask = s.box.tag.maskOf ∧
    ((s.box.tag = .w4 ∧ v = 15) ∨ (s.box.tag = .w8 ∧ v = 255) ∨ (s.box.tag = .w16 ∧ v = 65535) ∨
      (s.box.tag = .w32 ∧ v = 4294967295)) ∧
    0 < s.box.len ∧ (1 : Word) ≤ 1 ∧ (0 : Word) ≤ 1 ∧ 1 ≤ s.box.len := by
  cases t <;> decide

/-- In STREAM, before the last beat of three and at it. -/
def streaming (cnt : Word) : State := { s371 with phase := .stream, cnt := cnt }

theorem witness_IterSendsBeatByBeat :
    State.reset.fault = false ∧ State.reset.box.len = 0 ∧ s371.fault = false ∧ s371.box.len ≠ 0 ∧
    (streaming 0).phase = .stream ∧ (streaming 0).cnt < (streaming 0).box.len ∧
    (streaming 2).cnt < (streaming 2).box.len ∧ noInput.doutReady = false ∧
    ({ noInput with doutReady := true } : PortIn).doutReady = true ∧
    (streaming 1).cnt ≠ (streaming 1).box.len - 1 ∧ (streaming 2).cnt = (streaming 2).box.len - 1 := by
  decide

theorem witness_MaskAnswersTheMask :
    s371.fault = false ∧ s371.box.mask = s371.box.tag.maskOf ∧ 2 < s371.box.len ∧
    (∃ t, exec (.set 2 15) s371 = .next t) ∧ ∃ t, exec (.set 2 16) s371 = .next t :=
  ⟨rfl, by decide, by decide, ⟨_, rfl⟩, _, rfl⟩

theorem witness_LenAnswersTheLength : s371.fault = false ∧ (∃ t, exec (.set 2 16) s371 = .next t) ∧
    ∃ t, exec (.setr 0 3 256) s371 = .next t := ⟨rfl, ⟨_, rfl⟩, _, rfl⟩

theorem witness_ReservedOpcodesRaiseIllegal :
    s371.fault = false ∧
    Instr.reservedF ∈ [Instr.reserved0, .reservedA, .reservedB, .reservedC, .reservedD, .reservedE, .reservedF] ∧
    opField 0 = 0 ∧ 9 < opField 0xA000000000000000000000000 ∧
    9 < opField 0xFFFFFFFFFFFFFFFFFFFFFFFFF := by decide

theorem witness_FaultEntry : ({ noInput with rspReady := true } : PortIn).rspReady = true := rfl

theorem witness_FaultsLeaveTheContainer :
    s371.fault = false ∧ ∃ t, exec (.set 3 300) s371 = .next t ∧ t.fault = true :=
  ⟨rfl, _, rfl, by decide⟩

theorem witness_HaltedBlockStaysHalted :
    halted.fault = true ∧ halted.Good ∧ halted.thisInput.rst = false ∧ (∃ t, step halted = .next t) ∧
    let s := halted.fed [{ noInput with rst := true }]
    s.fault = true ∧ s.thisInput.rst = true ∧ ∃ t, step s = .next t :=
  ⟨rfl, good_halted, rfl, ⟨_, rfl⟩, rfl, rfl, _, rfl⟩

theorem witness_WhatIsNotAFault :
    s371.fault = false ∧ 2 < s371.box.len ∧ (∃ t, exec (.set 2 16) s371 = .next t) ∧
    (3 : Word) ≤ 3 ∧ (0 : Word) ≤ 3 ∧ 3 ≤ s371.box.len ∧ (∃ t, exec (.setr 3 3 16) s371 = .next t) ∧
    (∃ t, exec (.setr 0 3 15) s371 = .next t) ∧
    Instr.iter ∈ [.new 0, .filled 0 16, .fromBeats 0, .iter] ∧ (∃ t, exec .iter s371 = .next t) ∧
    (16 : Word) ≤ 16 ∧ s371.phase ≠ .load :=
  ⟨rfl, by decide, ⟨_, rfl⟩, by decide, by decide, by decide, ⟨_, rfl⟩, ⟨_, rfl⟩, by decide, ⟨_, rfl⟩,
    by decide, by decide⟩

theorem witness_GoodStatesStayGood : State.reset.Good ∧ ∃ t, step State.reset = .next t :=
  ⟨State.good_reset, _, rfl⟩

/-- The host drops an offer it has made: the second case of GoodStatesNeverStop. -/
def dropsOffer : State :=
  { State.reset with env := { State.reset.env with heldCmd := some 7, input := [noInput] } }

theorem witness_GoodStatesNeverStop : State.reset.Good ∧ dropsOffer.Good :=
  ⟨State.good_reset, State.good_reset.of_same rfl rfl rfl rfl rfl rfl rfl rfl rfl⟩

/-- The work of `SET 0, 16`, a reset, and the last beat of a FROM each change the container. -/
theorem witness_ContainerChangesOnlyAtCommits :
    (∃ t, step (s371.withFetchWord 104 0x5000000000000000000000010) = .next t ∧ t.box ≠ s371.box) ∧
    (∃ t, step (s371.fed [{ noInput with rst := true }]) = .next t ∧ t.box ≠ s371.box) ∧
    (∃ t, step ((loading 2).fed [{ noInput with dinValid := true }]) = .next t ∧ t.box ≠ (loading 2).box) :=
  ⟨⟨_, rfl, by decide⟩, ⟨_, rfl, by decide⟩, ⟨_, rfl, by decide⟩⟩

theorem witness_WidthNeverNarrows :
    (State.reset.withFetchWord 104 0x6000000000000000000000010).Good ∧
    (∃ t, step (State.reset.withFetchWord 104 0x6000000000000000000000010) = .next t ∧ t.box.tag = .w8) ∧
    (State.reset.withFetchWord 104 0x6000000000000000000000010).thisInput.rst = false ∧
    isConstructor (decode 0x6000000000000000000000010) = false :=
  ⟨State.good_quiet (s := State.reset.withFetchWord 104 0x6000000000000000000000010)
    State.good_reset.box (Nat.zero_le _) rfl rfl (.inr rfl), ⟨_, rfl, by decide⟩, by decide, by decide⟩

theorem witness_AtMostThreeUpscales :
    s371.snapshot.box.Good ∧
    ∀ c ∈ [Command.set 0 16, .set 1 256, .setr 0 3 65536], c.isConstructor = false :=
  ⟨good371, by decide⟩

theorem witness_ReadsKeepTheContainer :
    Instr.get 2 ∈ [.get 2, .iter, .mask, .len] ∧ Instr.iter ∈ [.get 0, .iter, .mask, .len] ∧
    (∃ t u w, exec (.get 2) s371 = .next t ∧ t.fault = s371.fault ∧ exec .iter t = .next u ∧
      exec .iter s371 = .next w ∧ u.phase = .stream) ∧
    Instr.iter ∈ [.get 2, .iter, .mask, .len] ∧ Instr.len ∈ [.get 0, .iter, .mask, .len] ∧
    ∃ t u w, exec .iter s371 = .next t ∧ t.fault = s371.fault ∧ exec .len t = .next u ∧
      exec .len s371 = .next w ∧ u.phase = .resp :=
  ⟨by decide, by decide, ⟨_, _, _, rfl, rfl, rfl, rfl, rfl⟩, by decide, by decide, _, _, _, rfl, rfl, rfl, rfl,
    rfl⟩

theorem witness_WorkTouchesOnlyItsRegisters :
    (∃ t, exec (.set 2 300) s371 = .next t) ∧ (∀ n, Instr.set 2 300 ≠ .fromBeats n) ∧
    Instr.set 2 300 ≠ .iter ∧ ∃ t, exec .iter s371 = .next t :=
  ⟨⟨_, rfl⟩, by simp, by decide, _, rfl⟩

theorem witness_StepRunsTheDecodedInstruction :
    let s := s371.withFetchWord 104 0x500000002000000000000012C
    s.phase = .exec ∧ s.done = none ∧ s.wait = 0 ∧ s.thisInput.rst = false ∧
    s.hostKeepsOffers s.thisInput = true ∧ decode s.cmd = .set 2 300 ∧ s.rest = 0 := by decide

/-- In EXEC: before the work, at it, and after it with the phase it chose. -/
def executing (wait rest : Nat) (done : Option Phase) : State :=
  { s371 with phase := .exec, wait := wait, rest := rest, done := done }

theorem witness_IdleExecAndRespMove :
    (s371.phase = .idle ∧ ({ noInput with cmdValid := true } : PortIn).cmdValid = true ∧
      noInput.cmdValid = false) ∧
    ((executing 2 0 none).phase = .exec ∧ (executing 2 0 none).done = none ∧ (executing 2 0 none).wait ≠ 0) ∧
    ((executing 0 1 none).done = none ∧ (executing 0 1 none).wait = 0 ∧ (executing 0 1 none).rest ≠ 0 ∧
      (executing 0 0 none).rest = 0) ∧
    ((executing 0 1 (some .load)).done = some .load ∧ (executing 0 0 (some .resp)).rest = 0) ∧
    (({ s371 with phase := .resp } : State).phase = .resp ∧
      ({ noInput with rspReady := true } : PortIn).rspReady = true ∧ noInput.rspReady = false) ∧
    s371.thisInput.rst = false ∧ s371.hostKeepsOffers s371.thisInput = true := by decide

theorem witness_HandshakeFollowsPhase :
    ({ s371 with phase := .resp } : State).phase = .resp ∧
    (∃ t, step (s371.fed [{ noInput with cmdValid := true, cmdWord := 7 }]) = .next t ∧
      t.env.gaveCmd = [7]) ∧
    ∃ t, step (s371.fed [{ noInput with cmdValid := true, rst := true }]) = .next t ∧ t.env.gaveCmd = [] :=
  ⟨rfl, ⟨_, rfl, rfl⟩, _, rfl, rfl⟩

theorem witness_StatusPinsShowTheRegisters : s371.fault = false := rfl

theorem witness_ResetWinsOverEverything :
    ((streaming 1).fed [{ noInput with rst := true }]).thisInput.rst = true := rfl

theorem witness_BrokenHandshakeIsRefused :
    (dropsOffer.thisInput.rst = false ∧ dropsOffer.env.heldCmd = some 7 ∧
      ¬ (dropsOffer.thisInput.cmdValid = true ∧ dropsOffer.thisInput.cmdWord = 7)) ∧
    let s : State := { s371 with env := { s371.env with
      heldDin := some 5, input := [{ noInput with dinValid := true, dinData := 6 }] } }
    s.thisInput.rst = false ∧ s.env.heldDin = some 5 ∧
      ¬ (s.thisInput.dinValid = true ∧ s.thisInput.dinData = 5) := by decide

theorem witness_UnservedBlockWaits :
    (∃ t, (loading 1).runOn [noInput, noInput] = .next t) ∧ (loading 1).phase = .load ∧
    (∃ t, (streaming 1).runOn [noInput] = .next t) ∧ (streaming 1).phase = .stream ∧
    (streaming 1).cnt < (streaming 1).box.len ∧
    (∃ t, State.runOn [noInput] { s371 with phase := .resp } = .next t) ∧
    ∀ p ∈ [noInput, noInput], p.rst = false ∧ p.dinValid = false ∧ p.doutReady = false ∧
      p.rspReady = false :=
  ⟨⟨_, rfl⟩, rfl, ⟨_, rfl⟩, rfl, by decide, ⟨_, rfl⟩, by decide⟩

/-- One input beat. -/
def beat (d : Word) : PortIn := { noInput with dinValid := true, dinData := d }

/-- Two of three beats, and all three with a pause. -/
theorem witness_LoadBuildsTheSequenceAtAnyPace :
    (loading 0).phase = .load ∧ (loading 0).cnt = 0 ∧ (loading 0).acc = [] ∧ (loading 0).nreq ≠ 0 ∧
    (∀ p ∈ [beat 3, noInput, beat 7, beat 1], p.rst = false ∧ p.rspReady = false) ∧
    (∃ t, (loading 0).runOn [beat 3, beat 7] = .next t) ∧
    (([beat 3, beat 7].filter (·.dinValid)).map (·.dinData)).length < (loading 0).nreq.toNat ∧
    (∃ t, (loading 0).runOn [beat 3, noInput, beat 7, beat 1] = .next t) ∧
    (loading 0).nreq.toNat ≤
      (([beat 3, noInput, beat 7, beat 1].filter (·.dinValid)).map (·.dinData)).length :=
  ⟨rfl, rfl, rfl, by decide, by decide, ⟨_, rfl⟩, by decide, ⟨_, rfl⟩, by decide⟩

/-- A cycle in which the host takes an output beat. -/
def takes : PortIn := { noInput with doutReady := true }

/-- Two of three beats, and all three with a pause. -/
theorem witness_StreamEmitsTheContentsAtAnyPace :
    (streaming 0).phase = .stream ∧ (streaming 0).cnt = 0 ∧ (streaming 0).box.len ≠ 0 ∧
    (∀ p ∈ [takes, noInput, takes, takes], p.rst = false ∧ p.rspReady = false) ∧
    (∃ t, (streaming 0).runOn [takes, takes] = .next t) ∧
    ([takes, takes].filter (·.doutReady)).length < (streaming 0).box.len.toNat ∧
    (∃ t, (streaming 0).runOn [takes, noInput, takes, takes] = .next t) ∧
    (streaming 0).box.len.toNat ≤ ([takes, noInput, takes, takes].filter (·.doutReady)).length :=
  ⟨rfl, rfl, by decide, by decide, ⟨_, rfl⟩, by decide, ⟨_, rfl⟩, by decide⟩

/-- A whole run of `LEN` from IDLE to IDLE, however many cycles its EXEC has. -/
theorem witness_ClockCyclesRefineTransactions :
    s371.phase = .idle ∧ Command.len.wellFormed = true ∧
    [Command.len.word].map decode = [Command.len].map (fun c => decode c.word) ∧
    ∃ (ins : List PortIn) (t : State), (∀ p ∈ ins, p.rst = false) ∧ s371.runOn ins = .next t ∧
      t.phase = .idle ∧ t.env.gaveCmd = s371.env.gaveCmd ++ [Command.len.word] ∧
      t.env.gaveDin = s371.env.gaveDin ++ (transcript Config.lmax s371.snapshot [Command.len]).taken := by
  have hf : HostFree s371 := ⟨rfl, rfl⟩
  refine ⟨rfl, rfl, rfl, ?_⟩
  have take : Reach s371 (s371.accept Command.len.word) [Command.len.word] [] :=
    Reach.move hf { noInput with cmdValid := true, cmdWord := Command.len.word } rfl rfl rfl fun _ => rfl
  obtain ⟨t, e, same, through⟩ := reach_exec (s := s371.accept Command.len.word) hf rfl rfl
  have hd : decode (s371.accept Command.len.word).cmd = .len := by decide
  rw [hd] at e
  cases e
  obtain ⟨ins, hr, -, -, hrun⟩ := (take.trans through).trans (reach_resp hf rfl)
  have run := hrun []
  rw [List.append_nil, State.runOn_nil] at run
  refine ⟨ins, _, hr, run, rfl, rfl, ?_⟩
  have none : (transcript Config.lmax s371.snapshot [Command.len]).taken = [] := by
    simp [transcript, Command.beats]
  rw [none]
  rfl

/-- The single commands of the second clause, and the runs of the third: nothing left, and a word left. -/
theorem witness_ClockCyclesRefineTransactions_ends :
    (s371.env.heldCmd = none ∧ s371.env.heldDin = none ∧ (Command.fromSeq [3, 7, 1]).wellFormed = true ∧
      Command.iter.wellFormed = true ∧ (Command.illegal 0).wellFormed = true ∧
      (Command.illegal 15).wellFormed = true) ∧
    (∃ t, s371.runOn [noInput, noInput] = .next t) ∧ (s371.fed [noInput, noInput]).runOver ∧
    (∃ t, s371.runOn [noInput, { noInput with cmdValid := true }] = .next t) ∧
    ¬ (s371.fed [noInput, { noInput with cmdValid := true }]).runOver :=
  ⟨by decide, ⟨_, rfl⟩, ⟨rfl, rfl⟩, ⟨_, rfl⟩, fun h => Bool.noConfusion h.2⟩

end Sys2Proof.Tests
end

section
/-! Width selection: the masks grow with the widths, and the two selections of R14 value by value. -/

namespace Sys2Proof.Machine

/-- The mask orders the widths: a mask that is no larger belongs to a width that is no wider. -/
theorem Width.bits_le_of_maskOf_le {t t' : Width} (h : t.maskOf ≤ t'.maskOf) : t.bits ≤ t'.bits := by
  have hm : 2 ^ t.bits - 1 ≤ 2 ^ t'.bits - 1 := by
    simpa only [Width.toNat_maskOf] using show t.maskOf.toNat ≤ t'.maskOf.toNat from h
  have hp : 2 ^ t.bits ≤ 2 ^ t'.bits := (Nat.sub_le_sub_iff_right Nat.one_le_two_pow).mp hm
  exact (Nat.pow_le_pow_iff_right Nat.one_lt_two).mp hp

theorem minWidth_of_le_fifteen {v : Word} (h : v ≤ 15) : minWidth v = .w4 := if_pos h

theorem upWidth_of_le_255 {v : Word} (h : v ≤ 255) : upWidth v = .w8 := if_pos h

/-- An upscale never targets W4 (R14, R132). -/
theorem upWidth_ne_w4 (v : Word) : upWidth v ≠ .w4 := by
  unfold upWidth
  split
  · exact Width.noConfusion
  · split
    · exact Width.noConfusion
    · exact Width.noConfusion

end Sys2Proof.Machine

namespace Sys2Proof.Proofs

open Sys2Proof Sys2Proof.Machine

/-- Settles O15: a width that covers the value has the larger mask, and the mask orders the widths. -/
theorem widthSelectionIsNarrowest : Obligations.WidthSelectionIsNarrowest := by
  intro v
  have narrowest (t : Width) (h : v ≤ t.maskOf) : (minWidth v).bits ≤ t.bits :=
    Width.bits_le_of_maskOf_le (maskOf_minWidth_le h)
  have upToFifteen (h : v ≤ 15) : minWidth v = .w4 ∧ upWidth v = .w8 :=
    ⟨minWidth_of_le_fifteen h, upWidth_of_le_255 (le_trans_word h (Width.fifteen_le_maskOf .w8))⟩
  exact ⟨le_maskOf_minWidth v, narrowest, le_maskOf_upWidth v, upWidth_ne_w4 v, upWidth_eq_minWidth,
    upToFifteen⟩

end Sys2Proof.Proofs
end

section
/-! One clock cycle phase by phase: the move of each phase as an equation (R23, R61), that every move
keeps a good state good, and that a good state always has one. -/

namespace Sys2Proof.Machine

theorem State.advance_idle {s : State} (h : s.phase = .idle) (p : PortIn) :
    s.advance p = .next (if p.cmdValid then s.accept p.cmdWord else s) := by
  simp only [State.advance, h]

theorem State.advance_exec {s : State} (h : s.phase = .exec) (p : PortIn) :
    s.advance p = s.execCycle := by
  simp only [State.advance, h]

theorem State.advance_load {s : State} (h : s.phase = .load) (p : PortIn) :
    s.advance p = .next (if p.dinValid then s.takeBeat p.dinData else s) := by
  simp only [State.advance, h]

theorem State.advance_resp {s : State} (h : s.phase = .resp) (p : PortIn) :
    s.advance p = .next (if p.rspReady then s.deliver else s) := by
  simp only [State.advance, h]

/-- Outside reset, when the host keeps its offers, a step is the phase machine's move (R23, R61). -/
theorem step_eq_advance {s : State} (hr : s.thisInput.rst = false)
    (hk : s.hostKeepsOffers s.thisInput = true) :
    step s = (s.dropInput.noteOffers s.thisInput).advance s.thisInput :=
  State.cycle_eq (s := s.dropInput) hr hk

/-! ### Good states -/

theorem State.Good.execCycle {s t : State} (h : s.Good) (e : s.execCycle = .next t) : t.Good := by
  rcases s.execCycle_cases with ⟨q, hd, _, x⟩ | ⟨q, _, _, x⟩ | ⟨hd, _, u, hu, same, x⟩ | ⟨_, _, x⟩ <;>
    rw [x] at e <;> cases e
  · have arrives : (none : Option Phase).getD q = s.nextPhase := by rw [State.nextPhase, hd]; rfl
    exact h.rephase q none s.rest arrives nofun
  · exact h.of_same rfl rfl rfl rfl rfl rfl rfl rfl rfl
  · exact (exec_good h hd hu).settle (same.done.trans hd) same.phase
  · exact h.of_same rfl rfl rfl rfl rfl rfl rfl rfl rfl

theorem State.Good.advance {s t : State} {p : PortIn} (h : s.Good) (e : s.advance p = .next t) :
    t.Good := by
  rcases s.advance_cases p with
    ⟨_, x⟩ | ⟨_, x⟩ | ⟨hp, x⟩ | ⟨hp, _, x⟩ | ⟨_, _, x⟩ | ⟨hp, x⟩ <;> rw [x] at e
  · cases e; split
    · exact h.accept _
    · exact h
  · exact h.execCycle e
  · cases e; split
    · exact h.takeBeat hp _
    · exact h
  · cases e; split
    · exact h.sendBeat hp
    · exact h
  · cases e
  · cases e; split
    · exact h.deliver hp
    · exact h

theorem State.execCycle_next (s : State) : ∃ t, s.execCycle = .next t := by
  rcases s.execCycle_cases with ⟨_, _, _, x⟩ | ⟨_, _, _, x⟩ | ⟨_, _, _, _, _, x⟩ | ⟨_, _, x⟩ <;>
    exact ⟨_, x⟩

/-- The phase machine of a good state never stops: CNT is below LEN in STREAM (R24). -/
theorem State.Good.advance_next {s : State} (h : s.Good) (p : PortIn) : ∃ t, s.advance p = .next t := by
  rcases s.advance_cases p with
    ⟨_, x⟩ | ⟨_, x⟩ | ⟨_, x⟩ | ⟨_, _, x⟩ | ⟨hp, outside, _⟩ | ⟨_, x⟩
  · exact ⟨_, x⟩
  · rw [x]; exact s.execCycle_next
  · exact ⟨_, x⟩
  · exact ⟨_, x⟩
  · have hd : s.done = none := h.done_none (by rw [hp]; decide)
    have inside := (h.streaming (by rw [State.nextPhase_of_done_none hd, hp])).2
    exact absurd inside outside
  · exact ⟨_, x⟩

end Sys2Proof.Machine

namespace Sys2Proof.Proofs

open Sys2Proof Sys2Proof.Machine

/-- Settles O43: reset leads to a good state, and every move of the phase machine keeps one good. -/
theorem goodStatesStayGood : Obligations.GoodStatesStayGood := by
  intro s t h e
  rcases step_cases s with ⟨_, x⟩ | ⟨_, _, x⟩ | ⟨_, _, x⟩ <;> rw [x] at e
  · cases e; exact (State.good_hardReset _).noteOffers _
  · cases e
  · exact (h.dropInput.noteOffers _).advance e

/-- Settles O44: of the three ways a cycle goes only the broken handshake gives no next state. -/
theorem goodStatesNeverStop : Obligations.GoodStatesNeverStop := by
  intro s h
  rcases step_cases s with ⟨_, x⟩ | ⟨hr, broken, x⟩ | ⟨_, _, x⟩
  · exact .inl ⟨_, x⟩
  · exact .inr ⟨x, hr, broken⟩
  · rw [x]; exact .inl ((h.dropInput.noteOffers _).advance_next _)

/-- Settles O2: the reset state is IDLE with an empty container, and IDLE asks nothing of the counters. -/
theorem resetIsGood : Obligations.ResetIsGood := State.good_reset

/-- Settles O1, register by register: `State.reset` and both empty containers are literals. -/
theorem resetLeavesTheStatedValues : Obligations.ResetLeavesTheStatedValues :=
  ⟨rfl, rfl, rfl, rfl, rfl, rfl, rfl, rfl, rfl, rfl, rfl, rfl, rfl⟩

end Sys2Proof.Proofs
end

section
/-! The container across a clock cycle: which command's work commits one, and what a commit does to
LEN and TAG (R29, R32, R36). -/

namespace Sys2Proof.Machine

/-! ### What a command's work keeps -/

/-- What the halted answer, the fault entry and the effect all keep, a checked command keeps (R155). -/
theorem State.checked_keeps {α : Type} (f : State → α) {s ok : State} (bad : Bool) (c : Cause)
    (hrespond : ∀ st d, f (s.respond st d) = f s) (hraise : f (s.raise c) = f s) (hok : f ok = f s) :
    f (s.checked bad c ok) = f s := by
  rcases s.checked_cases bad c ok with ⟨_, x⟩ | ⟨_, _, x⟩ | ⟨_, _, x⟩ <;> rw [x]
  · exact hrespond _ _
  · exact hraise
  · exact hok

theorem State.unlessHalted_keeps {α : Type} (f : State → α) {s ok : State}
    (hrespond : ∀ st d, f (s.respond st d) = f s) (hok : f ok = f s) : f (s.unlessHalted ok) = f s := by
  rcases s.unlessHalted_cases ok with ⟨_, x⟩ | ⟨_, x⟩ <;> rw [x]
  · exact hrespond _ _
  · exact hok

/-- The registers of the beats (R24, R25). -/
def State.counters (s : State) : Word × Word × List Word := (s.cnt, s.nreq, s.acc)

theorem State.counters_eq {s t : State} (h : t.counters = s.counters) :
    t.cnt = s.cnt ∧ t.nreq = s.nreq ∧ t.acc = s.acc := by
  obtain ⟨hcnt, h⟩ := Prod.mk.inj h
  exact ⟨hcnt, Prod.mk.inj h⟩

/-- Only FROM and ITER write the registers of the beats (R104, R121). -/
theorem exec_counters {i : Instr} {s t : State} (e : exec i s = .next t) (hfrom : ∀ n, i ≠ .fromBeats n)
    (hiter : i ≠ .iter) : t.counters = s.counters := by
  cases i with
  | fromBeats n => exact absurd rfl (hfrom n)
  | iter => exact absurd rfl hiter
  | new n => cases e; exact State.checked_keeps _ _ _ (fun _ _ => rfl) rfl rfl
  | filled n v => cases e; exact State.checked_keeps _ _ _ (fun _ _ => rfl) rfl rfl
  | get k => cases e; exact State.checked_keeps _ _ _ (fun _ _ => rfl) rfl rfl
  | set k v => cases e; exact State.checked_keeps _ _ _ (fun _ _ => rfl) rfl rfl
  | setr a b v => cases e; exact State.checked_keeps _ _ _ (fun _ _ => rfl) rfl rfl
  | _ => cases e; exact State.unlessHalted_keeps _ (fun _ _ => rfl) rfl

theorem State.box_startIter (s : State) : s.startIter.box = s.box := by
  unfold State.startIter; split <;> rfl

theorem State.nreq_startIter (s : State) : s.startIter.nreq = s.nreq := by
  unfold State.startIter; split <;> rfl

theorem State.acc_startIter (s : State) : s.startIter.acc = s.acc := by
  unfold State.startIter; split <;> rfl

/-- ITER writes CNT, and neither NREQ nor ACC (R121). -/
theorem exec_iter_nreq_acc {s t : State} (e : exec .iter s = .next t) : t.nreq = s.nreq ∧ t.acc = s.acc := by
  cases e
  exact ⟨State.unlessHalted_keeps State.nreq (fun _ _ => rfl) s.nreq_startIter,
    State.unlessHalted_keeps State.acc (fun _ _ => rfl) s.acc_startIter⟩

/-! ### What a command's work commits -/

/-- The commits R29 allows instruction `i` on container `b`. -/
inductive Commits (i : Instr) (b b' : Container) : Prop where
  /-- A constructor starts a new life (R100). -/
  | construct (h : isConstructor i = true)
  | set (k v : Word) (instr : i = .set k v) (box : b' = b.set k v)
  | setr (l r v : Word) (instr : i = .setr l r v) (box : b' = b.setr l r v)

/-- A checked command keeps the container, or commits it on a block that is not halted (R154, R155). -/
theorem State.box_checked {s ok : State} {i : Instr} (bad : Bool) (c : Cause)
    (h : Commits i s.box ok.box) :
    (s.checked bad c ok).box = s.box ∨ s.fault = false ∧ Commits i s.box (s.checked bad c ok).box := by
  rcases s.checked_cases bad c ok with ⟨_, x⟩ | ⟨_, _, x⟩ | ⟨hf, _, x⟩ <;> rw [x]
  · exact .inl rfl
  · exact .inl rfl
  · exact .inr ⟨hf, h⟩

/-- The work of an instruction keeps the container, or makes a commit R29 allows it. -/
theorem exec_box {i : Instr} {s t : State} (e : exec i s = .next t) :
    t.box = s.box ∨ s.fault = false ∧ Commits i s.box t.box := by
  cases i with
  | new n => cases e; exact State.box_checked _ _ (.construct rfl)
  | filled n v => cases e; exact State.box_checked _ _ (.construct rfl)
  | fromBeats n => cases e; exact State.box_checked _ _ (.construct rfl)
  | set k v => cases e; exact State.box_checked _ _ (.set k v rfl rfl)
  | setr l r v => cases e; exact State.box_checked _ _ (.setr l r v rfl rfl)
  | get k => cases e; exact .inl (State.checked_keeps State.box _ _ (fun _ _ => rfl) rfl rfl)
  | iter => cases e; exact .inl (State.unlessHalted_keeps State.box (fun _ _ => rfl) s.box_startIter)
  | _ => cases e; exact .inl (State.unlessHalted_keeps State.box (fun _ _ => rfl) rfl)

/-! ### What a clock cycle does to the container -/

@[simp] theorem State.box_settle (s : State) : s.settle.box = s.box := by
  unfold State.settle; split <;> rfl

theorem State.box_sendBeat (s : State) : s.sendBeat.box = s.box := by
  unfold State.sendBeat; split <;> rfl

theorem State.takeBeat_more {s : State} (h : s.cnt + 1 ≠ s.nreq) (d : Word) :
    s.takeBeat d = s.addBeat d := if_neg h

/-- What a cycle in phase EXEC does to the container: nothing, unless it does the work. -/
theorem State.box_execCycle {s t : State} (e : s.execCycle = .next t) :
    t.box = s.box ∨
    s.done = none ∧ s.wait = 0 ∧ s.fault = false ∧ Commits (decode s.cmd) s.box t.box := by
  rcases s.execCycle_cases with ⟨_, _, _, x⟩ | ⟨_, _, _, x⟩ | ⟨hd, hw, u, hu, _, x⟩ | ⟨_, _, x⟩ <;>
    rw [x] at e <;> cases e
  · exact .inl rfl
  · exact .inl rfl
  · rw [State.box_settle]
    exact (exec_box hu).imp_right fun work => ⟨hd, hw, work⟩
  · exact .inl rfl

/-- The cycle with inputs `p` does the work of a command that makes a commit, or takes the last beat
of a FROM (R29). -/
inductive CommitCycle (p : PortIn) (s t : State) : Prop where
  | work (phase : s.phase = .exec) (done : s.done = none) (wait : s.wait = 0) (fault : s.fault = false)
      (commit : Commits (decode s.cmd) s.box t.box)
  | lastBeat (phase : s.phase = .load) (valid : p.dinValid = true) (last : s.cnt + 1 = s.nreq)

theorem State.box_advance {p : PortIn} {s t : State} (e : s.advance p = .next t) :
    t.box = s.box ∨ CommitCycle p s t := by
  rcases s.advance_cases p with
    ⟨_, x⟩ | ⟨hp, x⟩ | ⟨hp, x⟩ | ⟨_, _, x⟩ | ⟨_, _, x⟩ | ⟨_, x⟩ <;> rw [x] at e
  · cases e; split <;> exact .inl rfl
  · exact (State.box_execCycle e).imp_right fun ⟨hd, hw, hf, hc⟩ => .work hp hd hw hf hc
  · cases e; split
    · next valid =>
      by_cases last : s.cnt + 1 = s.nreq
      · exact .inr (.lastBeat hp valid last)
      · rw [State.takeBeat_more last]; exact .inl rfl
    · exact .inl rfl
  · cases e; split
    · exact .inl s.box_sendBeat
    · exact .inl rfl
  · cases e
  · cases e; split <;> exact .inl rfl

/-- A step keeps the container, but for a reset, a command's commit and the last beat of a FROM. -/
theorem step_box {s t : State} (e : step s = .next t) :
    s.thisInput.rst = true ∨ t.box = s.box ∨ CommitCycle s.thisInput s t := by
  rcases step_cases s with ⟨hr, _⟩ | ⟨_, _, x⟩ | ⟨_, _, x⟩
  · exact .inl hr
  · rw [x] at e; cases e
  · rw [x] at e
    refine .inr ((State.box_advance e).imp_right fun commit => ?_)
    cases commit with
    | work phase done wait fault commit => exact .work phase done wait fault commit
    | lastBeat phase valid last => exact .lastBeat phase valid last

/-! ### The width never narrows (R32) -/

theorem Width.bits_eq_pow_code (t : Width) : t.bits = 2 ^ (t.code.toNat + 2) := by cases t <;> rfl

/-- The codes of R19 order the widths as their masks do. -/
theorem Width.code_le_of_maskOf_le {t t' : Width} (h : t.maskOf ≤ t'.maskOf) :
    t.code.toNat ≤ t'.code.toNat := by
  have hbits := Width.bits_le_of_maskOf_le h
  rw [t.bits_eq_pow_code, t'.bits_eq_pow_code, Nat.pow_le_pow_iff_right Nat.one_lt_two] at hbits
  omega

/-- The upscale-first step never lowers TAG (R113, R132). -/
theorem Container.code_le_fit {c : Container} (hm : c.mask = c.tag.maskOf) (v : Word) :
    c.tag.code.toNat ≤ (c.fit v).tag.code.toNat := by
  by_cases h : c.mask < v
  · rw [Container.fit_of_gt h]
    exact Width.code_le_of_maskOf_le (Container.maskOf_le_upWidth hm h)
  · rw [Container.fit_of_le (le_of_not_lt_word h)]

/-- A commit that is no constructor's keeps LEN and does not lower TAG (R32, R36). -/
theorem Commits.keeps_len_and_width {i : Instr} {b b' : Container} (h : Commits i b b')
    (hm : b.mask = b.tag.maskOf) (hi : isConstructor i = false) :
    b'.len = b.len ∧ b.tag.code.toNat ≤ b'.tag.code.toNat := by
  cases h with
  | construct h => rw [hi] at h; cases h
  | set k v _ box => subst box; exact ⟨b.len_set k v, Container.code_le_fit hm v⟩
  | setr l r v _ box => subst box; exact ⟨b.len_setr l r v, Container.code_le_fit hm v⟩

end Sys2Proof.Machine

namespace Sys2Proof.Proofs

open Sys2Proof Sys2Proof.Machine

/-- Settles O16: an element is cut to its width when it is read. -/
theorem elementsFitTheMask : Obligations.ElementsFitTheMask := by
  intro c hm
  rw [hm]
  exact ⟨fun i => repGet_le _ _ _, c.mem_logical_le⟩

/-- Settles O17: the buffer and the pack decode to the same element at every index. -/
theorem bufferIsPackOfContents : Obligations.BufferIsPackOfContents := fun _ h => h.buf_eq_pack

/-- Settles O45, case by case of what a step does to the container. -/
theorem containerChangesOnlyAtCommits : Obligations.ContainerChangesOnlyAtCommits := by
  intro s t e changed
  rcases step_box e with hr | same | ⟨hp, hd, hw, hf, commit⟩ | ⟨hp, valid, last⟩
  · exact .inl hr
  · exact absurd same changed
  · refine .inr (.inl ⟨hp, hd, hw, hf, ?_⟩)
    cases commit with
    | construct h => exact .inl h
    | set k v instr _ => exact .inr (.inl ⟨k, v, instr⟩)
    | setr l r v instr _ => exact .inr (.inr ⟨l, r, v, instr⟩)
  · exact .inr (.inr ⟨hp, valid, last⟩)

/-- Settles O46: the commits that are left are those of SET and SETR, and the upscale only widens. -/
theorem widthNeverNarrows : Obligations.WidthNeverNarrows := by
  intro s t good e hr notConstructor notLast
  rcases step_box e with reset | same | ⟨hp, _, _, _, commit⟩ | ⟨hp, valid, last⟩
  · rw [hr] at reset; cases reset
  · rw [same]; exact ⟨rfl, le_refl _⟩
  · exact commit.keeps_len_and_width good.box.masked (notConstructor hp)
  · exact absurd last (notLast hp valid)

/-- Settles O49: the work stays around the command (`exec_next`), and the registers of the beats are
those of FROM and ITER. -/
theorem workTouchesOnlyItsRegisters : Obligations.WorkTouchesOnlyItsRegisters := by
  intro i s t e
  obtain ⟨u, hu, same⟩ := exec_next i s
  obtain rfl : u = t := Host.Outcome.next.inj (hu.symm.trans e)
  refine ⟨same.cmd, same.wait, same.rest, same.done, same.tick, same.env, same.phase, fun hfrom => ?_⟩
  by_cases hiter : i = .iter
  · subst hiter
    obtain ⟨hnreq, hacc⟩ := exec_iter_nreq_acc e
    exact ⟨hnreq, hacc, fun h => absurd rfl h⟩
  · obtain ⟨hcnt, hnreq, hacc⟩ := State.counters_eq (exec_counters e hfrom hiter)
    exact ⟨hnreq, hacc, fun _ => hcnt⟩

end Sys2Proof.Proofs
end

section
/-! The moves of the phase machine written out (R23, R61, R180), and the beats of LOAD at any pace of
the host (R104). -/

namespace Sys2Proof.Machine

/-! ### The cycles of EXEC -/

theorem State.execCycle_before_work {s : State} (hd : s.done = none) (hw : s.wait ≠ 0) :
    s.execCycle = .next { s with wait := s.wait - 1 } := by
  simp only [State.execCycle, hd, if_neg hw]

theorem State.execCycle_work {s : State} (hd : s.done = none) (hw : s.wait = 0) :
    s.execCycle = settleOutcome (exec (decode s.cmd) s) := by
  simp only [State.execCycle, hd, if_pos hw]

theorem State.execCycle_after_work {s : State} {q : Phase} (hd : s.done = some q) :
    s.execCycle = .next (if s.rest = 0 then { s with phase := q, done := none }
      else { s with rest := s.rest - 1 }) := by
  simp only [State.execCycle, hd]
  split <;> rfl

/-- The work of an accepted command answers, and `rest` decides what follows it (R23, R180). -/
theorem settleOutcome_exec (i : Instr) (s : State) : ∃ t, exec i s = .next t ∧
    settleOutcome (exec i s) = .next (if s.rest = 0 then t
      else { t with phase := .exec, done := some t.phase, rest := s.rest - 1 }) := by
  obtain ⟨t, e, same⟩ := exec_next i s
  refine ⟨t, e, ?_⟩
  rw [e, ← same.rest]
  rfl

theorem settleOutcome_exec_of_rest_zero {s : State} (hrest : s.rest = 0) (i : Instr) :
    settleOutcome (exec i s) = exec i s := by
  obtain ⟨t, e, settled⟩ := settleOutcome_exec i s
  rw [settled, if_pos hrest, e]

/-! ### MASK and LEN on a block that is not halted -/

theorem exec_mask_ok {s : State} (hf : s.fault = false) :
    exec .mask s = .next (s.respond .ok s.box.mask) :=
  congrArg Host.Outcome.next (State.unlessHalted_running _ hf)

theorem exec_len_ok {s : State} (hf : s.fault = false) :
    exec .len s = .next (s.respond .ok s.box.len) :=
  congrArg Host.Outcome.next (State.unlessHalted_running _ hf)

/-! ### The beats of LOAD -/

/-- The beats a list of input cycles offers on DIN, in order. -/
def offeredBeats (ins : List PortIn) : List Word := (ins.filter (·.dinValid)).map (·.dinData)

theorem offeredBeats_nil : offeredBeats [] = [] := rfl

theorem offeredBeats_cons_valid {p : PortIn} (h : p.dinValid = true) (ins : List PortIn) :
    offeredBeats (p :: ins) = p.dinData :: offeredBeats ins := by
  simp [offeredBeats, h]

theorem offeredBeats_cons_quiet {p : PortIn} (h : p.dinValid = false) (ins : List PortIn) :
    offeredBeats (p :: ins) = offeredBeats ins := by
  simp [offeredBeats, h]

/-- `t` is where LOAD stands when it has been offered `beats` for `n` elements: waiting for more of
them with the old container, or answering for the container of the first `n` (R103, R104). -/
structure LoadReaches (n : Nat) (old : Container) (beats : List Word) (t : State) : Prop where
  waiting : beats.length < n → t.phase = .load ∧ t.box = old ∧ t.acc = beats
  answered : n ≤ beats.length → t.phase = .resp ∧ t.rsp = 0 ∧ t.box = Container.ofSeq (beats.take n)

/-- A block whose response is not taken keeps every register (R173). -/
theorem Runs.resp_waits {s t : State} {ins : List PortIn} (hp : s.phase = .resp) (h : Runs s ins t)
    (hready : ∀ p ∈ ins, p.rspReady = false) : t = { s with env := t.env } := by
  induction ins generalizing s with
  | nil => rw [h.nil]; rfl
  | cons p ins ih =>
    obtain ⟨u, e, h'⟩ := h.cons
    rw [State.advance_resp (s := (s.fed ins).noteOffers p) hp, if_neg (by simp [hready p])] at e
    cases e
    exact ih (s := (s.fed ins).noteOffers p) hp h' fun q hq => hready q (List.mem_cons_of_mem _ hq)

theorem State.takeBeat_last {s : State} (h : s.cnt + 1 = s.nreq) (d : Word) :
    s.takeBeat d = ((s.addBeat d).commit (Container.ofSeq (s.acc ++ [d]))).respond .ok 0 := if_pos h

/-- Once the last beat is taken, the beats offered after it change nothing (R104). -/
theorem Runs.load_reaches_last {s t : State} {ins : List PortIn} {d : Word} (last : s.cnt + 1 = s.nreq)
    (count : (s.acc ++ [d]).length = s.nreq.toNat) (h : Runs (s.takeBeat d) ins t)
    (hready : ∀ p ∈ ins, p.rspReady = false) (old : Container) (later : List Word) :
    LoadReaches s.nreq.toNat old (s.acc ++ d :: later) t := by
  rw [State.takeBeat_last last] at h
  rw [List.append_cons, ← count, h.resp_waits rfl hready]
  constructor
  · intro few
    rw [List.length_append] at few
    omega
  · intro _
    rw [List.take_left]
    exact ⟨rfl, rfl, rfl⟩

/-- LOAD takes the beats it is offered until it has NREQ of them, whatever the host's pace (R104). -/
theorem Runs.load_reaches {s t : State} {ins : List PortIn} (hp : s.phase = .load)
    (hacc : s.acc.length = s.cnt.toNat) (hlt : s.cnt < s.nreq) (h : Runs s ins t)
    (hready : ∀ p ∈ ins, p.rspReady = false) :
    LoadReaches s.nreq.toNat s.box (s.acc ++ offeredBeats ins) t := by
  induction ins generalizing s with
  | nil =>
    rw [h.nil]
    have short : (s.acc ++ offeredBeats []).length < s.nreq.toNat := by
      rw [offeredBeats_nil, List.append_nil, hacc]; exact hlt
    exact ⟨fun _ => ⟨hp, rfl, (List.append_nil _).symm⟩, fun full => absurd short (Nat.not_lt.mpr full)⟩
  | cons p ins ih =>
    obtain ⟨u, e, h'⟩ := h.cons
    have hready' : ∀ q ∈ ins, q.rspReady = false := fun q hq => hready q (List.mem_cons_of_mem _ hq)
    rw [State.advance_load (s := (s.fed ins).noteOffers p) hp] at e
    cases valid : p.dinValid with
    | false =>
      rw [valid] at e; cases e
      rw [offeredBeats_cons_quiet valid]
      exact ih (s := (s.fed ins).noteOffers p) hp hacc hlt h' hready'
    | true =>
      rw [valid] at e; cases e
      rw [offeredBeats_cons_valid valid]
      have next : (s.cnt + 1).toNat = s.cnt.toNat + 1 := toNat_succ_of_lt hlt
      have count : (s.acc ++ [p.dinData]).length = (s.cnt + 1).toNat := by
        rw [List.length_append, hacc, next]; rfl
      by_cases last : s.cnt + 1 = s.nreq
      · exact Runs.load_reaches_last (s := (s.fed ins).noteOffers p) last (last ▸ count) h' hready' _ _
      · have more : s.cnt + 1 < s.nreq := by
          refine Nat.lt_of_le_of_ne ?_ fun full => last (BitVec.eq_of_toNat_eq full)
          rw [next]; exact hlt
        rw [if_pos rfl, State.takeBeat_more (s := (s.fed ins).noteOffers p) last] at h'
        have reaches :=
          ih (s := ((s.fed ins).noteOffers p).addBeat p.dinData) hp count more h' hready'
        rw [List.append_cons]
        exact reaches

end Sys2Proof.Machine

namespace Sys2Proof.Proofs

open Sys2Proof Sys2Proof.Machine

/-- Settles O50: the cycle of the work is `exec` of the decoded word, settled. -/
theorem stepRunsTheDecodedInstruction : Obligations.StepRunsTheDecodedInstruction := by
  intro s i hp hd hw hr hk hi
  let ready := s.dropInput.noteOffers s.thisInput
  have works : step s = settleOutcome (exec i ready) := by
    rw [step_eq_advance hr hk, State.advance_exec (s := ready) hp,
      State.execCycle_work (s := ready) hd hw, ← hi]
    rfl
  exact ⟨works, fun hrest => works.trans (settleOutcome_exec_of_rest_zero (s := ready) hrest i)⟩

/-- Settles O52, phase by phase. -/
theorem idleExecAndRespMove : Obligations.IdleExecAndRespMove := by
  refine ⟨fun s p hp => ⟨fun valid => ?_, fun quiet => ?_⟩, fun s p hp => ⟨?_, ?_, ?_⟩,
    fun s p hp => ⟨fun ready => ?_, fun busy => ?_⟩, fun s => step_eq_advance⟩
  · rw [State.advance_idle hp, valid]; rfl
  · rw [State.advance_idle hp, quiet]; rfl
  · intro hd hw
    rw [State.advance_exec hp, State.execCycle_before_work hd hw]
  · intro hd hw
    rw [State.advance_exec hp, State.execCycle_work hd hw]
    exact settleOutcome_exec _ s
  · intro q hd
    rw [State.advance_exec hp, State.execCycle_after_work hd]
  · rw [State.advance_resp hp, ready]; rfl
  · rw [State.advance_resp hp, busy]; rfl

/-- Settles O54: a pin is its register, and MASK and LEN answer the register of theirs. -/
theorem statusPinsShowTheRegisters : Obligations.StatusPinsShowTheRegisters := by
  intro s rst
  refine ⟨rfl, rfl, rfl, rfl, rfl, decide_eq_true_iff, fun hf => ?_⟩
  exact ⟨_, _, exec_mask_ok hf, exec_len_ok hf, rfl, rfl⟩

/-- Settles O58: LOAD starts with no beat in ACC. -/
theorem loadBuildsTheSequenceAtAnyPace : Obligations.LoadBuildsTheSequenceAtAnyPace := by
  intro s t ins hp hcnt hacc hnreq hins h
  have start : s.cnt < s.nreq := by
    rw [hcnt]
    exact Nat.pos_of_ne_zero fun x => hnreq (BitVec.eq_of_toNat_eq x)
  have reaches := Runs.load_reaches hp (by rw [hacc, hcnt]; rfl) start
    ⟨fun p hm => (hins p hm).1, h⟩ fun p hm => (hins p hm).2
  rw [hacc] at reaches
  exact ⟨reaches.waiting, reaches.answered⟩

end Sys2Proof.Proofs
end

section
/-! The layout of a unit (R41, R42, R46): the two elements of a W4 unit, the one element of a wider
unit, and the bytes of the byte view under a multi-byte read. -/

namespace Sys2Proof.Machine

/-! ### The two elements of a W4 unit -/

theorem unitRead_w4 (m : Mem) (u : Nat) : unitRead .w4 m u = (Mem.read m u).toNat := by
  simp [unitRead, unitOff, Width.unitBytes, memRead]

/-- The even element of a W4 unit is its low nibble (R41, R81). -/
theorem toNat_repGet4_low (m : Mem) (u : Nat) :
    (repGet .w4 m (2 * u)).toNat = unitRead .w4 m u % 2 ^ 4 := by
  have lowNibble (n : Nat) : n &&& 15 = n % 2 ^ 4 := Nat.and_two_pow_sub_one_eq_mod n 4
  have byte := (Mem.read m u).isLt
  rw [repGet4_even m (Nat.mul_mod_right 2 u), Nat.mul_div_cancel_left u Nat.two_pos, unitRead_w4,
    BitVec.toNat_setWidth, BitVec.toNat_and, show nibMask.toNat = 15 from rfl, lowNibble]
  omega

/-- The odd element of a W4 unit is its high nibble (R41, R81). -/
theorem toNat_repGet4_high (m : Mem) (u : Nat) :
    (repGet .w4 m (2 * u + 1)).toNat = unitRead .w4 m u / 2 ^ 4 := by
  have byte := (Mem.read m u).isLt
  rw [repGet4_odd m (Nat.mul_add_mod 2 u 1), show (2 * u + 1) / 2 = u by omega, unitRead_w4,
    BitVec.toNat_setWidth, BitVec.toNat_ushiftRight, Nat.shiftRight_eq_div_pow,
    show nibBits = 4 from rfl]
  omega

/-! ### The one element of a wider unit -/

theorem Width.wide_cases {t : Width} (h : t ≠ .w4) : t = .w8 ∨ t = .w16 ∨ t = .w32 := by
  cases t with
  | w4 => exact absurd rfl h
  | w8 => exact .inl rfl
  | w16 => exact .inr (.inl rfl)
  | w32 => exact .inr (.inr rfl)

theorem Width.unitBits_eq_bits {t : Width} (h : t ≠ .w4) : t.unitBits = t.bits := by
  rcases Width.wide_cases h with rfl | rfl | rfl <;> rfl

theorem Width.nUnits_wide {t : Width} (h : t ≠ .w4) (n : Nat) : t.nUnits n = n := by
  rcases Width.wide_cases h with rfl | rfl | rfl <;> rfl

theorem unitOf_wide {t : Width} (h : t ≠ .w4) (i : Nat) : unitOf t i = i := by
  rcases Width.wide_cases h with rfl | rfl | rfl <;> rfl

theorem laneOf_wide {t : Width} (h : t ≠ .w4) (i : Nat) : laneOf t i = 0 := by
  rcases Width.wide_cases h with rfl | rfl | rfl <;> rfl

/-- A unit has at most 32 bits, so the element read from a wider one loses none of them (R42, R82). -/
theorem unitRead_eq_toNat_repGet {t : Width} (h : t ≠ .w4) (m : Mem) (u : Nat) :
    unitRead t m u = (repGet t m u).toNat := by
  have small : unitRead t m u < 2 ^ 32 := lt_of_lt_of_le (memRead_lt _ _ _) t.pow_unitBytes_le
  rw [repGet_wide h, BitVec.toNat_ofNat]
  exact (Nat.mod_eq_of_lt small).symm

/-- An encode at a wider width leaves the value cut to the unit (R84). -/
theorem unitRead_repSet {t : Width} (h : t ≠ .w4) {m : Mem} (hm : Mem.wf m = true) (u : Nat) (v : Word) :
    unitRead t (repSet t m u v) u = v.toNat % 2 ^ t.unitBits := by
  rw [Width.unitBits_eq_bits h, ← Width.pow_unitBytes h, repSet_wide h]
  exact memRead_memWrite_same hm _ _ _

/-! ### The byte view -/

/-- A byte of a multi-byte read is its digit in base 256 (R46). -/
theorem read_eq_memRead_digit (m : Mem) (addr : Nat) {n k : Nat} (hk : k < n) :
    Mem.read m (addr + k) = BitVec.ofNat 8 (memRead m addr n / 256 ^ k) := by
  induction n generalizing addr k with
  | zero => omega
  | succ n ih =>
    cases k with
    | zero =>
      have byte := (Mem.read m addr).isLt
      apply BitVec.eq_of_toNat_eq
      rw [memRead, Nat.pow_zero, Nat.div_one, Nat.add_zero, BitVec.toNat_ofNat]
      omega
    | succ k =>
      have tail : memRead m addr (n + 1) / 256 = memRead m (addr + 1) n := by
        have byte := (Mem.read m addr).isLt
        rw [memRead]
        omega
      rw [Nat.pow_succ', ← Nat.div_div_eq_div_mul, tail, ← ih (addr + 1) (by omega),
        Nat.add_right_comm, Nat.add_assoc]

end Sys2Proof.Machine

namespace Sys2Proof.Proofs

open Sys2Proof Sys2Proof.Machine

/-- Settles O7: the elements of unit `u` are its remainder and its quotient by 16. -/
theorem nibbleLayout : Obligations.NibbleLayout := by
  intro m u
  refine ⟨?_, fun k hk => ?_, fun k _ => ?_⟩
  · rw [toNat_repGet4_low, toNat_repGet4_high]
    exact (Nat.mod_add_div _ 16).symm
  · rw [← BitVec.testBit_toNat, toNat_repGet4_low, Nat.testBit_mod_two_pow, decide_eq_true hk,
      Bool.true_and]
  · rw [← BitVec.testBit_toNat, toNat_repGet4_high, Nat.testBit_div_two_pow, Nat.add_comm]

/-- Settles O8: at a wider width a unit is as wide as an element, and both are one multi-byte read. -/
theorem oneElementPerUnit : Obligations.OneElementPerUnit := by
  intro t m u ht
  exact ⟨Width.unitBits_eq_bits ht, Width.nUnits_wide ht u, unitRead_eq_toNat_repGet ht m u,
    fun v hm => unitRead_repSet ht hm u v⟩

/-- Settles O9: a unit is the multi-byte read of its bytes. -/
theorem byteViewIsLittleEndian : Obligations.ByteViewIsLittleEndian := by
  intro t m u k hk
  rw [Nat.pow_mul]
  exact read_eq_memRead_digit m _ hk

/-- Settles O10: the address is computed as stated, and an index below the length has its unit among
those of the buffer. -/
theorem elementsLieInTheBuffer : Obligations.ElementsLieInTheBuffer := by
  refine ⟨fun i => ⟨rfl, laneOf_w4 i, ?_⟩, fun t i ht => ⟨unitOf_wide ht i, laneOf_wide ht i, ?_⟩,
    fun t i => ⟨rfl, Nat.mul_mod_left _ _⟩, fun t i n h => ⟨unitOf_lt h, byteOff_add_le h⟩⟩
  · rw [shiftOf, laneOf_w4]; rfl
  · rw [shiftOf, laneOf_wide ht]; rfl

end Sys2Proof.Proofs
end

section
/-! The reads GET, ITER, MASK and LEN (R53): what a read keeps, and that its answer, or the start of
its stream, is decided by the registers a transaction sees. -/

namespace Sys2Proof.Machine

/-- The instruction is a read: one of the four R53 names. -/
inductive IsRead : Instr → Prop where
  | get (k : Word) : IsRead (.get k)
  | iter : IsRead .iter
  | mask : IsRead .mask
  | len : IsRead .len

theorem isRead_of_mem {i : Instr} {k : Word} (h : i ∈ [.get k, .iter, .mask, .len]) : IsRead i := by
  simp only [List.mem_cons, List.not_mem_nil, or_false] at h
  rcases h with rfl | rfl | rfl | rfl
  · exact .get k
  · exact .iter
  · exact .mask
  · exact .len

/-- A read commits nothing (R29, R53). -/
theorem IsRead.box_eq {i : Instr} {s t : State} (hi : IsRead i) (e : exec i s = .next t) :
    t.box = s.box := by
  rcases exec_box e with same | ⟨_, commit⟩
  · exact same
  · cases commit with
    | construct isConstr => cases hi <;> cases isConstr
    | set k v instr _ => cases hi <;> cases instr
    | setr l r v instr _ => cases hi <;> cases instr

/-! ### What a read leaves of TAG, MASK, LEN, BUF, FAULT and CAUSE -/

theorem State.snapshot_startIter (s : State) : s.startIter.snapshot = s.snapshot := by
  unfold State.startIter; split <;> rfl

/-- A checked command whose effect keeps the snapshot keeps it too, unless it raises its fault (R153). -/
theorem State.snapshot_checked {s ok : State} {bad : Bool} {c : Cause}
    (hok : ok.snapshot = s.snapshot) (hf : (s.checked bad c ok).fault = s.fault) :
    (s.checked bad c ok).snapshot = s.snapshot := by
  rcases s.checked_cases bad c ok with ⟨_, x⟩ | ⟨running, _, x⟩ | ⟨_, _, x⟩ <;> rw [x] at hf ⊢
  · rfl
  · rw [running] at hf; cases hf
  · exact hok

/-- A read that raises no fault keeps every register a transaction sees (R53). -/
theorem IsRead.snapshot_eq {i : Instr} {s t : State} (hi : IsRead i) (e : exec i s = .next t)
    (hf : t.fault = s.fault) : t.snapshot = s.snapshot := by
  cases hi with
  | get k => cases e; exact State.snapshot_checked rfl hf
  | iter => cases e; exact State.unlessHalted_keeps State.snapshot (fun _ _ => rfl) s.snapshot_startIter
  | mask => cases e; exact State.unlessHalted_keeps State.snapshot (fun _ _ => rfl) rfl
  | len => cases e; exact State.unlessHalted_keeps State.snapshot (fun _ _ => rfl) rfl

/-! ### What decides the answer of a read -/

/-- ITER of an empty container answers at once (R121). -/
theorem State.startIter_empty {s : State} (h : s.box.len = 0) :
    s.startIter = State.respond .ok 0 { s with cnt := 0 } := if_pos h

theorem State.startIter_stream {s : State} (h : s.box.len ≠ 0) :
    s.startIter = { s with cnt := 0, phase := .stream } := if_neg h

/-- `u` and `w` show the same result: the same answer waiting to be taken, or the same beat of the
same container waiting to be sent. -/
structure SameResult (u w : State) : Prop where
  snapshot : u.snapshot = w.snapshot
  phase : u.phase = w.phase
  rsp : u.phase = .resp → u.rsp = w.rsp
  cnt : u.phase = .stream → u.cnt = w.cnt

section
variable {s t : State} (h : t.snapshot = s.snapshot)
include h

theorem State.box_of_snapshot : t.box = s.box := congrArg Snapshot.box h

theorem State.fault_of_snapshot : t.fault = s.fault := congrArg Snapshot.fault h

theorem State.cause_of_snapshot : t.cause = s.cause := congrArg Snapshot.cause h

theorem SameResult.respond (st : Status) (d : Word) : SameResult (t.respond st d) (s.respond st d) :=
  ⟨h, rfl, fun _ => rfl, nofun⟩

theorem SameResult.raise (c : Cause) : SameResult (t.raise c) (s.raise c) := by
  have raised : (t.raise c).snapshot = (s.raise c).snapshot := by
    simp only [State.snapshot, State.box_raise, State.fault_raise, State.cause_raise,
      State.box_of_snapshot h, State.fault_of_snapshot h, State.cause_of_snapshot h]
  exact ⟨raised, rfl, fun _ => rfl, nofun⟩

theorem SameResult.unlessHalted {ok ok' : State} (hok : SameResult ok' ok) :
    SameResult (t.unlessHalted ok') (s.unlessHalted ok) := by
  unfold State.unlessHalted
  rw [State.fault_of_snapshot h]
  split
  · exact .respond h _ _
  · exact hok

theorem SameResult.checked {ok ok' : State} (bad : Bool) (c : Cause) (hok : SameResult ok' ok) :
    SameResult (t.checked bad c ok') (s.checked bad c ok) := by
  refine .unlessHalted h ?_
  split
  · exact .raise h c
  · exact hok

theorem SameResult.startIter : SameResult t.startIter s.startIter := by
  have box := State.box_of_snapshot h
  by_cases empty : s.box.len = 0
  · rw [State.startIter_empty empty, State.startIter_empty (box ▸ empty)]
    exact ⟨h, rfl, fun _ => rfl, nofun⟩
  · rw [State.startIter_stream empty, State.startIter_stream (box ▸ empty)]
    exact ⟨h, rfl, nofun, fun _ => rfl⟩

/-- Two states that agree on TAG, MASK, LEN, BUF, FAULT and CAUSE give a read the same result. -/
theorem IsRead.sameResult {j : Instr} {u w : State} (hj : IsRead j) (eu : exec j t = .next u)
    (ew : exec j s = .next w) : SameResult u w := by
  have box := State.box_of_snapshot h
  cases hj with
  | get k => cases eu; cases ew; rw [box]; exact .checked h _ _ (.respond h _ _)
  | iter => cases eu; cases ew; exact .unlessHalted h (.startIter h)
  | mask => cases eu; cases ew; rw [box]; exact .unlessHalted h (.respond h _ _)
  | len => cases eu; cases ew; rw [box]; exact .unlessHalted h (.respond h _ _)

end

/-- The beat on DOUT is decided by the phase, CNT and the container (R68, R121). -/
theorem SameResult.dout {u w : State} (h : SameResult u w) (hp : u.phase = .stream) :
    (u.outputs false).dout = (w.outputs false).dout := by
  simp only [State.outputs, State.beat, ← h.phase, ← h.cnt hp, State.box_of_snapshot h.snapshot]

end Sys2Proof.Machine

namespace Sys2Proof.Proofs

open Sys2Proof Sys2Proof.Machine

/-- Settles O48: a read that raises no fault keeps the snapshot, and the snapshot decides the result
of the next one. -/
theorem readsKeepTheContainer : Obligations.ReadsKeepTheContainer := by
  refine ⟨fun k i s t hi e => (isRead_of_mem hi).box_eq e, ?_⟩
  intro k l i j s t u w hi hj e hf eu ew
  have kept := (isRead_of_mem hi).snapshot_eq e hf
  have same := (isRead_of_mem hj).sameResult kept eu ew
  exact ⟨same.snapshot, same.phase, same.rsp, fun hp => ⟨same.cnt hp, same.dout hp⟩⟩

end Sys2Proof.Proofs
end

section
/-! The command word read back (R62 to R66): the opcode of a decoded word is its `op` field, the
reserved rows are the reserved opcodes, and what the work of a placed word is (log 13). -/

namespace Sys2Proof

/-- The decoder keeps the opcode: `op` alone selects the command (R65, R66). -/
theorem opcode_decode (w : CmdWord) : (decode w).opcode = opField w := by
  have bound : (opField w).toNat < 16 := (opField w).isLt
  apply BitVec.eq_of_toNat_eq
  unfold decode
  interval_cases (opField w).toNat <;> rfl

end Sys2Proof

namespace Sys2Proof.Machine

theorem mem_reservedRows_iff (i : Instr) : i ∈ reservedRows ↔ i.opcode = 0 ∨ 9 < i.opcode := by
  cases i <;> simp [reservedRows, Instr.opcode]

/-- A host that only keeps its offers keeps an offer there is. -/
theorem keepsOffer_quiet {n : Nat} (held : Option (BitVec n)) :
    keepsOffer held held.isSome (held.getD 0) = true := by
  cases held <;> simp [keepsOffer]

/-- Where the port is not ready, the offer of such a host is held on unchanged. -/
theorem stillHeld_quiet {n : Nat} (held : Option (BitVec n)) :
    stillHeld false held.isSome (held.getD 0) = held := by
  cases held <;> rfl

theorem State.hostKeepsOffers_quietInput (s : State) : s.hostKeepsOffers s.quietInput = true := by
  rw [State.hostKeepsOffers, Bool.and_eq_true]
  exact ⟨keepsOffer_quiet _, keepsOffer_quiet _⟩

/-- In EXEC no port is ready, so a quiet host's offers are noted as they were. -/
theorem State.noteOffers_quietInput {s : State} (hp : s.phase = .exec) :
    s.noteOffers s.quietInput = s := by
  have cmdBusy : (s.outputs false).cmdReady = false := by simp [State.outputs, hp]
  have dinBusy : (s.outputs false).dinReady = false := by simp [State.outputs, hp]
  have heldCmd : (s.noteOffers s.quietInput).env.heldCmd = s.env.heldCmd := by
    rw [State.heldCmd_noteOffers]
    exact (congrArg (stillHeld · _ _) cmdBusy).trans (stillHeld_quiet _)
  have heldDin : (s.noteOffers s.quietInput).env.heldDin = s.env.heldDin := by
    rw [State.heldDin_noteOffers]
    exact (congrArg (stillHeld · _ _) dinBusy).trans (stillHeld_quiet _)
  calc s.noteOffers s.quietInput
      = { s with env := { s.env with
          heldCmd := (s.noteOffers s.quietInput).env.heldCmd
          heldDin := (s.noteOffers s.quietInput).env.heldDin } } := rfl
    _ = s := by rw [heldCmd, heldDin]

end Sys2Proof.Machine

namespace Sys2Proof.Proofs

open Sys2Proof Sys2Proof.Machine

/-- Settles O4, instruction by instruction. -/
theorem decodeInvertsEncode : Obligations.DecodeInvertsEncode := by
  intro i
  cases i with
  | new n => exact (Laws.Encoding.new n).2
  | filled n v => exact (Laws.Encoding.filled n v).2
  | fromBeats n => exact (Laws.Encoding.fromBeats n).2
  | get k => exact (Laws.Encoding.get k).2
  | set k v => exact (Laws.Encoding.set k v).2
  | setr a b v => exact (Laws.Encoding.setr a b v).2
  | iter => exact Laws.Encoding.iter.2
  | mask => exact Laws.Encoding.mask.2
  | len => exact Laws.Encoding.len.2
  | reserved0 => exact Laws.Encoding.reserved0.2
  | reservedA => exact Laws.Encoding.reservedA.2
  | reservedB => exact Laws.Encoding.reservedB.2
  | reservedC => exact Laws.Encoding.reservedC.2
  | reservedD => exact Laws.Encoding.reservedD.2
  | reservedE => exact Laws.Encoding.reservedE.2
  | reservedF => exact Laws.Encoding.reservedF.2

/-- Settles O5: a word is read through its four fields, and `decode` on them is one row each. -/
theorem unusedFieldsAreIgnored : Obligations.UnusedFieldsAreIgnored := by
  refine ⟨fun a b v => ?_, assemble_fields, opcode_decode⟩
  exact ⟨decode_assemble 0x1 a b v, decode_assemble 0x2 a b v, decode_assemble 0x3 a b v,
    decode_assemble 0x4 a b v, decode_assemble 0x5 a b v, decode_assemble 0x6 a b v,
    decode_assemble 0x7 a b v, decode_assemble 0x8 a b v, decode_assemble 0x9 a b v⟩

/-- Settles O3: twelve closed words, each decoded by evaluation. -/
theorem writtenWordsDecode : Obligations.WrittenWordsDecode := by
  refine ⟨?_, ?_, ?_, ?_, ?_, ?_, ?_, ?_, ?_, ?_, ?_, ?_⟩ <;> decide

/-- Settles O38: a reserved row raises ERR_ILLEGAL, and the opcode decides which words are such rows. -/
theorem reservedOpcodesRaiseIllegal : Obligations.ReservedOpcodesRaiseIllegal := by
  refine ⟨fun i s hf reserved => ?_, fun w hop => ?_⟩
  · rw [exec_reserved reserved, State.unlessHalted_running _ hf, State.raise_running hf]
    rfl
  · rw [← opcode_decode] at hop
    exact (mem_reservedRows_iff _).mpr hop

/-- Settles O51: the placed state is due to work, and its quiet host changes nothing. -/
theorem fetchWordRunsItsInstruction : Obligations.FetchWordRunsItsInstruction := by
  intro s n w
  have work := stepRunsTheDecodedInstruction (s.withFetchWord n w) _ rfl rfl rfl rfl
    (State.hostKeepsOffers_quietInput _) rfl
  rw [work.2 rfl]
  exact congrArg (exec _) (State.noteOffers_quietInput (s := s.holding _) rfl)

end Sys2Proof.Proofs
end

section
/-! The transfers of one clock cycle (R61): a phase moves the payload of its own port and no other. -/

namespace Sys2Proof.Machine

/-- What a cycle with inputs `p` moves from `s` to `t`: on each port the payload, exactly when `valid`
and `ready` are both 1 (R61). -/
def Transfers (p : PortIn) (s t : State) : Prop :=
  Passed s t
    (if p.cmdValid = true ∧ (s.outputs p.rst).cmdReady = true then [p.cmdWord] else [])
    (if p.dinValid = true ∧ (s.outputs p.rst).dinReady = true then [p.dinData] else [])
    (if p.doutReady = true then (s.outputs p.rst).dout.toList else [])
    (if p.rspReady = true then (s.outputs p.rst).rsp.toList else [])

theorem Passed.of_env_eq {s t : State} (h : t.env = s.env) : Passed s t [] [] [] [] := by
  constructor <;> rw [h, List.append_nil]

theorem State.passed_accept (s : State) (w : CmdWord) : Passed s (s.accept w) [w] [] [] [] :=
  ⟨rfl, (List.append_nil _).symm, (List.append_nil _).symm, (List.append_nil _).symm⟩

theorem State.passed_takeBeat (s : State) (d : Word) : Passed s (s.takeBeat d) [] [d] [] [] := by
  constructor <;> simp [State.env_takeBeat]

theorem State.env_sendBeat (s : State) :
    s.sendBeat.env = { s.env with gotDout := s.env.gotDout ++ [s.beat] } := by
  unfold State.sendBeat; split <;> rfl

theorem State.passed_sendBeat (s : State) : Passed s s.sendBeat [] [] [s.beat] [] := by
  constructor <;> simp [State.env_sendBeat]

theorem State.passed_deliver (s : State) : Passed s s.deliver [] [] [] [s.rsp] :=
  ⟨(List.append_nil _).symm, (List.append_nil _).symm, (List.append_nil _).symm, rfl⟩

/-- In a reset cycle nothing is transferred (R165). -/
theorem transfers_of_reset {p : PortIn} {s t : State} (hr : p.rst = true) (h : Passed s t [] [] [] []) :
    Transfers p s t := by
  simpa [Transfers, State.outputs, hr] using h

/-- Each move of the phase machine transfers what its handshake allows (R23, R61). -/
theorem State.advance_transfers {p : PortIn} {s t : State} (hr : p.rst = false)
    (e : s.advance p = .next t) : Transfers p s t := by
  unfold Transfers
  rcases s.advance_cases p with
    ⟨hp, x⟩ | ⟨hp, x⟩ | ⟨hp, x⟩ | ⟨hp, _, x⟩ | ⟨_, _, x⟩ | ⟨hp, x⟩ <;> rw [x] at e
  · cases e
    cases valid : p.cmdValid
    · simpa [State.outputs, hp] using Passed.refl s
    · simpa [State.outputs, hp, hr] using s.passed_accept p.cmdWord
  · simpa [State.outputs, hp] using Passed.of_env_eq (State.env_execCycle e)
  · cases e
    cases valid : p.dinValid
    · simpa [State.outputs, hp] using Passed.refl s
    · simpa [State.outputs, hp, hr] using s.passed_takeBeat p.dinData
  · cases e
    cases ready : p.doutReady
    · simpa [State.outputs, hp] using Passed.refl s
    · simpa [State.outputs, hp, hr] using s.passed_sendBeat
  · cases e
  · cases e
    cases ready : p.rspReady
    · simpa [State.outputs, hp] using Passed.refl s
    · simpa [State.outputs, hp, hr] using s.passed_deliver

/-- A clock cycle that answers transfers what its handshakes allow, and nothing in a reset (R61, R165). -/
theorem step_transfers {s t : State} (e : step s = .next t) : Transfers s.thisInput s t := by
  rcases step_cases s with ⟨hr, x⟩ | ⟨_, _, x⟩ | ⟨hr, _, x⟩ <;> rw [x] at e
  · cases e
    exact transfers_of_reset hr ⟨(List.append_nil _).symm, (List.append_nil _).symm,
      (List.append_nil _).symm, (List.append_nil _).symm⟩
  · cases e
  · obtain ⟨c, d, o, r⟩ := State.advance_transfers hr e
    exact ⟨c, d, o, r⟩

end Sys2Proof.Machine

namespace Sys2Proof.Proofs

open Sys2Proof Sys2Proof.Machine

/-- Settles O53: the handshake pins are functions of PHASE, and a cycle's transfers follow them. -/
theorem handshakeFollowsPhase : Obligations.HandshakeFollowsPhase := by
  refine ⟨fun s => ⟨?_, ?_, ?_, ?_, fun hp => ?_⟩, fun s t e => ?_⟩
  · simp [State.outputs]
  · simp [State.outputs]
  · simp [State.outputs]
  · simp [State.outputs]
  · simp [State.outputs, hp]
  · obtain ⟨cmd, din, dout, rsp⟩ := step_transfers e
    exact ⟨cmd, din, dout, rsp⟩

end Sys2Proof.Proofs
end

section
/-! Whole runs against the transaction level (R70): a run from IDLE to IDLE leaves the transcript of
its commands, each command has a run, and a run without a command stays where it is (R178). -/

namespace Sys2Proof.Machine

/-! ### The transcript of a run -/

theorem State.passed_fed (s : State) (ins : List PortIn) : Passed s (s.fed ins) [] [] [] [] := by
  constructor <;> simp

/-- Driving the pins of a cycle moves nothing by itself. -/
theorem State.passed_driven (s : State) (p : PortIn) (ins : List PortIn) :
    Passed s ((s.fed ins).noteOffers p) [] [] [] [] := by
  constructor <;> simp

/-- The beats a command takes when it is applied in `k`: its own, if it is answered OK (R70). -/
def Command.takenFrom (c : Command) (k : Snapshot) : List Word :=
  if (transact Config.lmax c k).2.1.status = .ok then c.beats else []

theorem taken_cons (c : Command) (cs : List Command) (k : Snapshot) :
    (transcript Config.lmax k (c :: cs)).taken =
      c.takenFrom k ++ (transcript Config.lmax (transact Config.lmax c k).1 cs).taken := rfl

theorem taken_single (c : Command) (k : Snapshot) :
    (transcript Config.lmax k [c]).taken = c.takenFrom k := List.append_nil _

/-- The first command of a run to IDLE, whose beats come first on DIN: its transaction happens, and
the run goes on from IDLE with the beats that are left (R70). -/
theorem Runs.first_command {s t : State} {p : PortIn} {ins : List PortIn} {c : Command}
    (h : Runs (((s.fed ins).noteOffers p).accept p.cmdWord) ins t) (ht : t.phase = .idle)
    (hw : c.wellFormed = true) (hword : decode p.cmdWord = decode c.word) {later : List Word}
    (hd : t.env.gaveDin = s.env.gaveDin ++ (c.takenFrom s.snapshot ++ later)) :
    ∃ ins2 u, ins2.length < ins.length ∧ Runs u ins2 t ∧ u.phase = .idle ∧
      u.snapshot = (transact Config.lmax c s.snapshot).1 ∧
      Passed s u [p.cmdWord] (c.takenFrom s.snapshot)
        (markLast (transact Config.lmax c s.snapshot).2.2)
        [(transact Config.lmax c s.snapshot).2.1.word] ∧
      t.env.gaveDin = u.env.gaveDin ++ later := by
  let s1 := ((s.fed ins).noteOffers p).accept p.cmdWord
  have taken : Passed s s1 [p.cmdWord] [] [] [] :=
    (s.passed_driven p ins).trans (State.passed_accept _ p.cmdWord)
  obtain ⟨ins2, u, bs, shorter, hu, hup, hlen, done, _, hud⟩ :=
    command_runs (s := s1) hw rfl rfl hword h ht
  obtain ⟨_, ys, _, hys⟩ := runs_grow hu
  have parts : bs ++ ys = c.takenFrom s.snapshot ++ later := by
    rw [hys, hud, taken.d, List.append_nil, List.append_assoc] at hd
    exact List.append_cancel_left hd
  obtain ⟨own, rest⟩ := List.append_inj parts hlen
  subst own rest
  obtain ⟨snap, passed⟩ := done rfl
  exact ⟨ins2, u, shorter, hu, hup, snap, taken.trans passed, hys⟩

/-- A run from IDLE to IDLE whose words are those of `cs` and whose beats are theirs leaves what `cs`
leave, and passes what they pass (R70). -/
theorem Runs.transcript {s t : State} {ins : List PortIn} {ws : List CmdWord} {cs : List Command}
    (h : Runs s ins t) (hp : s.phase = .idle) (ht : t.phase = .idle)
    (hcs : ∀ c ∈ cs, c.wellFormed = true) (hws : ws.map decode = cs.map fun c => decode c.word)
    (hc : t.env.gaveCmd = s.env.gaveCmd ++ ws)
    (hd : t.env.gaveDin = s.env.gaveDin ++ (transcript Config.lmax s.snapshot cs).taken) :
    t.snapshot = (transcript Config.lmax s.snapshot cs).final ∧
    Passed s t ws (transcript Config.lmax s.snapshot cs).taken
      (transcript Config.lmax s.snapshot cs).sent (transcript Config.lmax s.snapshot cs).answers := by
  induction hn : ins.length using Nat.strongRecOn generalizing s ins ws cs with
  | ind n ih =>
    cases ins with
    | nil =>
      rw [h.nil] at hc ⊢
      have noWords : ws = [] := List.self_eq_append_right.mp hc
      subst noWords
      have noCommands : cs = [] := List.map_eq_nil_iff.mp hws.symm
      subst noCommands
      exact ⟨rfl, s.passed_fed []⟩
    | cons p ins =>
      rw [List.length_cons] at hn
      rcases idle_runs hp h with ⟨_, h'⟩ | ⟨_, h'⟩
      · obtain ⟨final, passed⟩ := ih ins.length (by omega) h' hp hcs hws hc hd rfl
        exact ⟨final, (s.passed_driven p ins).trans passed⟩
      · obtain ⟨xs, _, hxs, _⟩ := runs_grow h'
        have words : ws = p.cmdWord :: xs :=
          List.append_cancel_left (hc.symm.trans (hxs.trans (List.append_cons _ _ _).symm))
        subst words
        cases cs with
        | nil => cases hws
        | cons c cs =>
          obtain ⟨hword, hwords⟩ := List.cons.inj hws
          obtain ⟨ins2, u, shorter, hu, hup, snap, passed, hlater⟩ :=
            h'.first_command ht (hcs c List.mem_cons_self) hword (hd.trans (by rw [taken_cons]))
          have hlaterWords : t.env.gaveCmd = u.env.gaveCmd ++ xs := by
            rw [passed.c, hc, List.append_cons]
          rw [← snap] at hlater
          obtain ⟨final, passed'⟩ := ih ins2.length (by omega) hu hup
            (fun c m => hcs c (List.mem_cons_of_mem _ m)) hwords hlaterWords hlater rfl
          rw [snap] at final passed'
          exact ⟨final, passed.trans passed'⟩

/-! ### A run for every command -/

/-- After the work of a command a host that takes the response, and gives or takes its beats, brings
the block back to IDLE with nothing on offer (R70, R180). -/
theorem WorkLeaves.served {s t : State} {c : Command} (h : WorkLeaves s c t) (hf : HostFree t) :
    ∃ u, Reach t u [] (c.takenFrom s.snapshot) ∧ u.phase = .idle ∧ HostFree u ∧
      u.env.gaveCmd = t.env.gaveCmd ∧ u.env.gaveDin = t.env.gaveDin ++ c.takenFrom s.snapshot := by
  cases h with
  | resp phase snapshot rsp output beats =>
    have noBeats : c.takenFrom s.snapshot = [] := by
      unfold Command.takenFrom
      split
      · next ok => exact beats ok
      · rfl
    rw [noBeats]
    exact ⟨_, reach_resp hf phase, rfl, hf, rfl, (List.append_nil _).symm⟩
  | load vs cmd nonempty running check phase acc cnt nreq snapshot =>
    have own : c.takenFrom s.snapshot = vs := by
      rw [Command.takenFrom, transact_ok running check, cmd]; rfl
    rw [own]
    obtain ⟨u, through, up, _, _, _, _, free, passed⟩ :=
      reach_load hf phase nonempty (by rw [cnt, nreq]; exact Nat.zero_add _)
    exact ⟨_, through.trans (reach_resp free up), rfl, free, by simpa using passed.c, passed.d⟩
  | stream cmd running phase cnt len snapshot =>
    have noBeats : c.takenFrom s.snapshot = [] := by
      rw [Command.takenFrom, cmd]; exact ite_self _
    rw [noBeats]
    have box : t.box = s.box := congrArg Snapshot.box snapshot
    obtain ⟨u, through, up, _, _, _, _, free, sameCmd, sameDin⟩ :=
      reach_stream s.box.len.toNat hf phase (fun x => len (BitVec.eq_of_toNat_eq x))
        (by rw [cnt, box]; exact Nat.zero_add _)
    exact ⟨_, through.trans (reach_resp free up), rfl, free, sameCmd, by simpa using sameDin⟩

/-- The host offers the word of a command, and the block goes through EXEC and its beats back to IDLE. -/
theorem command_served {s : State} {c : Command} (hp : s.phase = .idle) (hf : HostFree s)
    (hw : c.wellFormed = true) :
    ∃ u, Reach s u [c.word] (c.takenFrom s.snapshot) ∧ u.phase = .idle ∧ HostFree u ∧
      u.env.gaveCmd = s.env.gaveCmd ++ [c.word] ∧
      u.env.gaveDin = s.env.gaveDin ++ c.takenFrom s.snapshot := by
  have taken : Reach s (s.accept c.word) [c.word] [] := by
    refine Reach.move hf { quietPins with cmdValid := true, cmdWord := c.word } rfl ?_ rfl fun ins => ?_
    · simp [stillHeld, State.outputs, hp]
    · exact State.advance_idle (s := s.fed ins) hp _
  obtain ⟨t, work, same, through⟩ := reach_exec (s := s.accept c.word) hf rfl rfl
  have left : WorkLeaves s c { t with rest := 0 } :=
    (exec_leaves hw work).congr rfl rfl rfl rfl rfl rfl rfl
  have env : t.env = { s.env with gaveCmd := s.env.gaveCmd ++ [c.word] } := same.env
  have free : HostFree t := by unfold HostFree; rw [env]; exact hf
  obtain ⟨u, served, hu, freeU, sameCmd, passed⟩ := left.served free
  refine ⟨u, (taken.trans through).trans served, hu, freeU, sameCmd.trans ?_, passed.trans ?_⟩
  · exact congrArg Env.gaveCmd env
  · show t.env.gaveDin ++ _ = _
    rw [env]

/-! ### A run that takes no command -/

/-- Without a command the block stays in IDLE, with every register unchanged (R178). -/
theorem Runs.stays_idle {s t : State} {ins : List PortIn} (h : Runs s ins t) (hp : s.phase = .idle)
    (quiet : ∀ p ∈ ins, p.cmdValid = false) :
    t = { s with env := t.env } ∧ t.env.gaveCmd = s.env.gaveCmd := by
  induction ins generalizing s with
  | nil => rw [h.nil]; exact ⟨rfl, rfl⟩
  | cons p ins ih =>
    rcases idle_runs hp h with ⟨_, h'⟩ | ⟨offered, _⟩
    · exact ih (s := (s.fed ins).noteOffers p) h' hp fun q m => quiet q (List.mem_cons_of_mem _ m)
    · rw [quiet p List.mem_cons_self] at offered; cases offered

/-- A block in IDLE takes the first command it is offered (R23, R61). -/
theorem Runs.takes_command {s t : State} {ins : List PortIn} (h : Runs s ins t) (hp : s.phase = .idle)
    (offer : ∃ p ∈ ins, p.cmdValid = true) : ∃ w ws, t.env.gaveCmd = s.env.gaveCmd ++ w :: ws := by
  induction ins generalizing s with
  | nil => obtain ⟨_, m, _⟩ := offer; cases m
  | cons p ins ih =>
    rcases idle_runs hp h with ⟨quiet, h'⟩ | ⟨_, h'⟩
    · have later : ∃ q ∈ ins, q.cmdValid = true := by
        obtain ⟨q, m, valid⟩ := offer
        rcases List.mem_cons.mp m with rfl | m
        · rw [quiet] at valid; cases valid
        · exact ⟨q, m, valid⟩
      exact ih (s := (s.fed ins).noteOffers p) h' hp later
    · obtain ⟨ws, _, grown, _⟩ := runs_grow h'
      exact ⟨p.cmdWord, ws, grown.trans (List.append_cons _ _ _).symm⟩

/-- At IDLE with nothing held, a run is over when no later cycle offers a command (R178). -/
theorem State.runOver_fed_iff {s : State} (hp : s.phase = .idle) (hh : s.env.heldCmd = none)
    (ins : List PortIn) : (s.fed ins).runOver ↔ ∀ p ∈ ins, p.cmdValid = false := by
  simp [State.runOver, State.commandsLeft, hp, hh]

/-- A run is over, at IDLE with nothing held, exactly when no later cycle takes a command (R178). -/
theorem Runs.runOver_iff {s t : State} {ins : List PortIn} (h : Runs s ins t) (hp : s.phase = .idle)
    (hh : s.env.heldCmd = none) : (s.fed ins).runOver ↔ t.env.gaveCmd = s.env.gaveCmd := by
  rw [State.runOver_fed_iff hp hh]
  constructor
  · exact fun quiet => (h.stays_idle hp quiet).2
  · intro same p m
    by_contra valid
    obtain ⟨w, ws, grown⟩ := h.takes_command hp ⟨p, m, Bool.eq_true_of_not_eq_false valid⟩
    rw [same] at grown
    exact List.cons_ne_nil _ _ (List.self_eq_append_right.mp grown)

end Sys2Proof.Machine

namespace Sys2Proof.Proofs

open Sys2Proof Sys2Proof.Machine

/-- Settles O60: command by command from EXEC to IDLE, a host that serves one command, and IDLE, which
the first command offered ends. -/
theorem clockCyclesRefineTransactions : Obligations.ClockCyclesRefineTransactions := by
  refine ⟨?_, ?_, ?_⟩
  · intro s t ins ws cs hp hr h ht hcs hws r hc hd
    obtain ⟨final, passed⟩ := Runs.transcript ⟨hr, h⟩ hp ht hcs hws hc hd
    exact ⟨final, passed.r, passed.o⟩
  · intro s c hp hhc hhd hw r
    obtain ⟨u, ⟨ins, hr, words, beats, run⟩, hu, free, hc, hd⟩ := command_served hp ⟨hhc, hhd⟩ hw
    rw [← taken_single] at beats hd
    have ends : s.runOn ins = .next (u.fed []) := by rw [← List.append_nil ins]; exact run []
    obtain ⟨final, _⟩ := Runs.transcript (cs := [c]) ⟨hr, ends⟩ hp hu (by simpa using hw) rfl hc hd
    have finished : (u.fed []).runOver := (State.runOver_fed_iff hu free.1 []).mpr nofun
    refine ⟨ins, u.fed [], hr, words, beats, ends, hu, hc, hd, finished, ?_⟩
    rw [State.goneWrong, and_iff_right finished, ← congrArg Snapshot.fault final]
    rfl
  · intro s t ins hp hh hr h
    have ended := Runs.runOver_iff ⟨hr, h⟩ hp hh
    refine ⟨ended, fun finished => ?_⟩
    obtain ⟨kept, _⟩ := Runs.stays_idle ⟨hr, h⟩ hp ((State.runOver_fed_iff hp hh ins).mp finished)
    rw [kept]
    exact ⟨hp, rfl, and_iff_right finished⟩

end Sys2Proof.Proofs
end

section
/-! Lines of assembler text (R72, R73, log 15): what a line assembles to, its numbers as printed, and
the line a text stands for. -/

namespace Sys2Proof

@[simp] theorem fitsWord_iff (n : Nat) : fitsWord n = true ↔ n < 2 ^ 32 := decide_eq_true_iff

@[simp] theorem fitsWord_eq_false (n : Nat) : fitsWord n = false ↔ 2 ^ 32 ≤ n := by
  simp [fitsWord]

end Sys2Proof

namespace Sys2Proof.Machine

/-! ### A line and its operands -/

theorem assemble_fitting {l : AsmLine} (h : l.wellFormed = true) : assemble l = some (itemsOf l) := if_pos h

theorem assemble_refused {l : AsmLine} (h : l.wellFormed = false) : assemble l = none :=
  if_neg (by rw [h]; exact Bool.false_ne_true)

/-- A list line fits when its count and each of its values fit (R63, R73). -/
theorem wellFormed_fromList_iff (vs : List Nat) :
    (AsmLine.fromList vs).wellFormed = true ↔ vs.length < 2 ^ 32 ∧ ∀ v ∈ vs, v < 2 ^ 32 := by
  simp only [AsmLine.wellFormed, Bool.and_eq_true, List.all_eq_true, fitsWord_iff]

/-- One operand that does not fit spoils its line (log 15). -/
theorem illFormed_of_big_operand {big b v : Nat} (h : 2 ^ 32 ≤ big) :
    ∀ l ∈ [AsmLine.new big, .filled big v, .filled b big, .fromCount big, .din big, .get big, .set big v,
      .set b big, .setr big b v, .setr b big v, .setr b v big], l.wellFormed = false := by
  have spoils : fitsWord big = false := (fitsWord_eq_false big).mpr h
  simp [AsmLine.wellFormed, spoils]

/-! ### Numbers -/

/-- Decimal digits alone are a number: `x` is no digit, so they cannot start with `0x` (R72). -/
theorem number_of_digits {cs : List Char} {n : Nat} (hne : cs ≠ []) (h : digits 10 0 cs = some n) :
    number cs = some n := by
  match cs, hne with
  | [c], _ => exact h
  | c :: x :: ds, _ =>
    have decimal : ¬ (c = '0' ∧ x = 'x') := by
      rintro ⟨rfl, rfl⟩
      cases h
    rw [number, if_neg decimal, h]

theorem number_of_hex_digits {ds : List Char} (hne : ds ≠ []) :
    number ('0' :: 'x' :: ds) = digits 16 0 ds := by
  rw [number, if_pos ⟨rfl, rfl⟩, if_neg hne]

/-! ### The tokens of the operands -/

theorem tokens_two {as vs : List Char} {a v : Nat} (ha : number as = some a) (hv : number vs = some v) :
    tokens [] (as ++ (", ".toList ++ vs)) = some [.num a, .comma, .num v] := by
  rw [show as ++ (", ".toList ++ vs) = as ++ ',' :: ' ' :: vs from rfl, tokens_num_comma ha,
    tokens_num_end hv]
  rfl

theorem tokens_three {as bs vs : List Char} {a b v : Nat} (ha : number as = some a)
    (hb : number bs = some b) (hv : number vs = some v) :
    tokens [] (as ++ (", ".toList ++ (bs ++ (", ".toList ++ vs)))) =
      some [.num a, .comma, .num b, .comma, .num v] := by
  rw [show as ++ (", ".toList ++ (bs ++ (", ".toList ++ vs))) =
    as ++ ',' :: ' ' :: (bs ++ (", ".toList ++ vs)) from rfl, tokens_num_comma ha, tokens_two hb hv]
  rfl

/-- The line of a bracketed list (R73). -/
theorem lineOf_from_list (vs : List Nat) :
    lineOf "FROM".toList (.openList :: (interleave vs ++ [.closeList])) = some (.fromList vs) := by
  have inner : listOperands (.openList :: (interleave vs ++ [.closeList])) = some vs := by
    rw [listOperands, if_pos List.getLast?_concat, List.dropLast_concat, operands_interleave]
  rw [lineOf, if_pos ⟨rfl, rfl⟩, inner]
  rfl

/-! ### The line of a text -/

/-- The mnemonics that operands follow (R72). -/
def mnemonics : List String := ["NEW", "FILLED", "FROM", "DIN", "GET", "SET", "SETR"]

/-- Each mnemonic is one word, and is read as a name. -/
theorem mnemonics_are_names : ∀ nm ∈ mnemonics,
    nm.toList.all (fun c => c ≠ ';' && c ≠ ' ' && c ≠ '\t' && c ≠ ',' && c ≠ '[' && c ≠ ']') = true ∧
    wordToken nm.toList = some (.name nm.toList) ∧ nm.toList ≠ [] := by
  decide

/-- A mnemonic, a blank, and operands whose tokens make the line `l` assemble as `l`. -/
theorem text_assembles {nm : String} (hm : nm ∈ mnemonics) {ts : List Token} {rest : List Char}
    {l : AsmLine} (hr : tokens [] rest = some ts) (hl : lineOf nm.toList ts = some l) :
    assembleText (nm.toList ++ ' ' :: rest) = assemble l := by
  obtain ⟨word, name, nonempty⟩ := mnemonics_are_names nm hm
  rw [text_name nm ts rest (wordChars_of_all _ word) name nonempty hr, hl]
  rfl

/-- The text of a `FROM [..]` gives the list of its numbers (R73). -/
theorem text_from_list {ts : List (List Char)} {vs : List Nat} (h : ts.map number = vs.map some) :
    assembleText ("FROM [".toList ++ (ts.intersperse ", ".toList).flatten ++ "]".toList) =
      assemble (.fromList vs) := by
  let list := (ts.intersperse ", ".toList).flatten ++ "]".toList
  have bracket : tokens [] ('[' :: list) = (tokens [] list).map (.openList :: ·) := by
    simp [tokens, closeWord]
  rw [tokens_list ts vs h] at bracket
  rw [List.append_assoc]
  exact text_assembles (nm := "FROM") (by decide) bracket (lineOf_from_list vs)

end Sys2Proof.Machine

namespace Sys2Proof.Proofs

open Sys2Proof Sys2Proof.Machine

/-- Settles O6: what fits is `itemsOf` the line, and a text is read token by token. -/
theorem assemblerGivesWordsAndBeats : Obligations.AssemblerGivesWordsAndBeats := by
  refine ⟨fun a b v ha hb hv => ?_, fun vs hlen hvs => ?_, fun big b v h l m => ?_,
    fun vs big => ?_, fun n => ⟨?_, ?_⟩, fun as bs vs a b v ha hb hv => ?_, fun ts vs => text_from_list,
    fun line rest h => ?_, fun line rest => ?_⟩
  · have fits : fitsWord a = true ∧ fitsWord b = true ∧ fitsWord v = true := by
      simp only [fitsWord_iff]
      exact ⟨ha, hb, hv⟩
    refine ⟨?_, ?_, ?_, ?_, ?_, ?_, ?_, ?_, ?_, ?_⟩ <;>
      exact assemble_fitting (by simp only [AsmLine.wellFormed, fits, Bool.and_self])
  · exact assemble_fitting ((wellFormed_fromList_iff vs).mpr ⟨hlen, hvs⟩)
  · exact assemble_refused (illFormed_of_big_operand h l m)
  · refine assemble_refused (Bool.eq_false_of_not_eq_true fun fits => ?_)
    obtain ⟨hlen, hvs⟩ := (wellFormed_fromList_iff vs).mp fits
    rcases big with long | ⟨v, m, wide⟩
    · exact absurd hlen (Nat.not_lt.mpr long)
    · exact absurd (hvs v m) (Nat.not_lt.mpr wide)
  · exact number_of_digits Nat.toDigits_ne_nil (digits_toDigits (.inl rfl) n)
  · rw [number_of_hex_digits Nat.toDigits_ne_nil, digits_toDigits (.inr rfl) n]
  · simp only [List.append_assoc]
    exact ⟨text_assembles (nm := "NEW") (by decide) (tokens_num_end ha) rfl,
      text_assembles (nm := "FILLED") (by decide) (tokens_two ha hv) rfl,
      text_assembles (nm := "FROM") (by decide) (tokens_num_end ha) rfl,
      text_assembles (nm := "DIN") (by decide) (tokens_num_end hv) rfl,
      text_assembles (nm := "GET") (by decide) (tokens_num_end ha) rfl,
      text_assembles (nm := "SET") (by decide) (tokens_two ha hv) rfl,
      text_assembles (nm := "SETR") (by decide) (tokens_three ha hb hv) rfl,
      by decide, by decide, by decide⟩
  · simp only [assembleText, tokens_comment line rest h]
  · simp only [assembleText, tokens_blank line rest]

end Sys2Proof.Proofs
end

section
/-! The primitives against their meanings (R85 to R95): a decoded element as a number, the loop that
REP_FILL and `pack` equal as whole buffers, and the bytes that SET and SETR leave alone. -/

namespace Sys2Proof.Machine

/-! ### A value cut to a width (R92, R95) -/

theorem toNat_cut (t : Width) (v : Word) : (cut t v).toNat = v.toNat % 2 ^ t.bits := by
  rw [cut, BitVec.toNat_ofNat, Nat.mod_eq_of_lt (lt_of_le_of_lt (Nat.mod_le _ _) v.isLt)]

theorem cut_eq_self_iff (t : Width) (v : Word) : cut t v = v ↔ v ≤ t.maskOf :=
  ⟨fun h => h ▸ cut_le t v, cut_of_le⟩

/-- A mask is all ones below the width, so AND with it cuts to the width (R80, R92). -/
theorem and_maskOf (t : Width) (v : Word) : v &&& t.maskOf = cut t v := by
  apply BitVec.eq_of_toNat_eq
  rw [BitVec.toNat_and, Width.toNat_maskOf, Nat.and_two_pow_sub_one_eq_mod, toNat_cut]

theorem getD_le_maskOf {t : Width} {vs : List Word} (h : ∀ v ∈ vs, v ≤ t.maskOf) (k : Nat) :
    vs.getD k 0 ≤ t.maskOf := by
  by_cases hk : k < vs.length
  · rw [List.getD_eq_getElem _ _ hk]
    exact h _ (List.getElem_mem hk)
  · rw [List.getD_eq_default _ _ (Nat.le_of_not_lt hk)]
    exact Nat.zero_le _

/-! ### Whole buffers (R88, R90) -/

/-- REP_FILL and the loop write the same indices of a canonical buffer, so they leave the same one. -/
theorem repFill_eq_repFillLoop {m : Mem} (h : Mem.wf m = true) (t : Width) {start stop : Nat}
    (hs : start ≤ stop) (v : Word) :
    repFill t m start stop v = repFillLoop t m start v (stop - start) := by
  refine repGet_ext (t := t) (wf_repFill h t start stop v) (wf_repFillLoop h t start v _) fun j => ?_
  rw [repGet_repFill h t hs, repGet_repFillLoop h, Nat.add_sub_cancel' hs]

/-- pack decodes at every index to what the elements encoded one by one decode to. -/
theorem pack_eq_setAll (t : Width) (vs : List Word) : pack t vs = setAll t [] 0 vs := by
  refine repGet_ext (t := t) (wf_pack t vs) (wf_setAll Mem.wf_nil t 0 vs) fun j => ?_
  rw [repGet_pack, repGet_setAll Mem.wf_nil, Nat.zero_add, Nat.sub_zero]
  by_cases hj : j < vs.length
  · rw [if_pos ⟨Nat.zero_le j, hj⟩]
  · rw [if_neg (fun hr => hj hr.2), repGet_nil, List.getD_eq_default _ _ (Nat.le_of_not_lt hj), cut_zero]

/-! ### The bytes a write leaves alone (R84, R86, R87) -/

theorem repFill_empty {m : Mem} (h : Mem.wf m = true) (t : Width) (a : Nat) (v : Word) :
    repFill t m a a v = m := by
  rw [repFill_eq_repFillLoop h t (Nat.le_refl a), Nat.sub_self, repFillLoop]

/-- The bytes a fill leaves alone: all but the units of its first and last index and those between. -/
theorem read_repFill_outside {m : Mem} (h : Mem.wf m = true) (t : Width) {start stop : Nat}
    (hs : start < stop) (v : Word) {x : Nat}
    (hx : x < byteOff t start ∨ byteOff t (stop - 1) + t.unitBytes ≤ x) :
    Mem.read (repFill t m start stop v) x = Mem.read m x := by
  rw [repFill_eq_repFillLoop h t hs.le]
  refine read_repFillLoop_outside h t start v (stop - start) ?_
  rwa [Nat.add_sub_cancel' hs.le]

/-! ### SET and SETR in place (R111, R112) -/

theorem Container.set_of_le {c : Container} {v : Word} (h : v ≤ c.mask) (i : Word) :
    c.set i v = { c with buf := repSet c.tag c.buf i.toNat v } := by
  rw [Container.set, Container.fit_of_le h]

theorem Container.setr_of_le {c : Container} {v : Word} (h : v ≤ c.mask) (a b : Word) :
    c.setr a b v = { c with buf := repFill c.tag c.buf a.toNat b.toNat v } := by
  rw [Container.setr, Container.fit_of_le h]

/-- A commit with its OK response is answered with the new container and nothing else changed (R29). -/
theorem State.answers_commit_ok (s : State) (c : Container) :
    ((s.commit c).respond .ok 0).answers { s.snapshot with box := c } 0 := ⟨rfl, rfl, rfl⟩

end Sys2Proof.Machine

namespace Sys2Proof.Proofs

open Sys2Proof Sys2Proof.Machine

/-- Settles O11: every encoder stores the value cut to the width, and the cut of one that fits is it. -/
theorem encodeThenDecode : Obligations.EncodeThenDecode := by
  refine ⟨repGet_le, fun t m i j v hm => ?_, fun t m a b k v hm hab => ?_, fun t vs k => ?_,
    fun t m i v hm hv => ?_⟩
  · rw [repGet_repSet hm, apply_ite BitVec.toNat, toNat_cut]
  · rw [repGet_repFill hm t hab, apply_ite BitVec.toNat, toNat_cut]
  · rw [repGet_pack, toNat_cut]
  · rw [repGet_repSet hm, if_pos rfl, cut_of_le hv]

/-- Settles O12: the two fills decode alike at every index, and a canonical buffer is what it decodes
to. -/
theorem unitFillEqualsLoop : Obligations.UnitFillEqualsLoop :=
  fun t _ _ _ v hm hs _ => repFill_eq_repFillLoop hm t hs v

/-- Settles O13: a packed buffer decodes to its sequence, cut to the width, and each unit is read off
its elements. -/
theorem packThenIterate : Obligations.PackThenIterate := by
  refine ⟨fun vs u hvs => ?_, fun t vs u ht => ?_,
    fun t vs hvs => ⟨repIter_pack hvs, pack_eq_setAll t vs, within_pack t vs⟩⟩
  · obtain ⟨twoNibbles, -, -⟩ := nibbleLayout (pack .w4 vs) u
    rw [twoNibbles, repGet_pack, repGet_pack, cut_of_le (getD_le_maskOf hvs _),
      cut_of_le (getD_le_maskOf hvs _)]
  · rw [unitRead_eq_toNat_repGet ht, repGet_pack, toNat_cut, Width.unitBits_eq_bits ht]

/-- Settles O14: AND with the mask is the cut to the width, which keeps exactly the values up to the
mask. -/
theorem maskTestsAgree : Obligations.MaskTestsAgree := by
  intro t v
  rw [needsUpscale, needsUpscaleByAnd, and_maskOf, decide_eq_decide, Ne, cut_eq_self_iff,
    BitVec.not_le]

/-- Settles O30: without an upscale the new buffer is one REP_SET of the old one. -/
theorem setStoresOneUnit : Obligations.SetStoresOneUnit := by
  intro i v s hf hm hi hv
  refine ⟨_, exec_set_ok hf hi, ?_⟩
  rw [Container.set_of_le hv]
  exact ⟨State.answers_commit_ok s _, fun a ha => read_repSet_outside hm _ _ v ha⟩

/-- Settles O32: without an upscale the new buffer is one REP_FILL of the old one. -/
theorem setrStoresItsUnits : Obligations.SetrStoresItsUnits := by
  intro a b v s hf hm hab hb hv
  refine ⟨_, exec_setr_ok hf hab hb, ?_⟩
  rw [Container.setr_of_le hv]
  refine ⟨State.answers_commit_ok s _, fun e => ?_, fun hlt x hx => read_repFill_outside hm _ hlt v hx⟩
  subst e
  exact repFill_empty hm _ _ v

end Sys2Proof.Proofs
end

section
/-! The constructors NEW, FILLED and FROM (R101 to R105): the one check they share, what each commits,
and the units FILLED leaves. -/

namespace Sys2Proof.Machine

/-! ### The capacity check (R149, R155) -/

/-- A length that fits the storage lets a constructor do its work. -/
theorem State.checked_fitting {s : State} (hf : s.fault = false) {lmax n : Word} (h : n ≤ lmax) (ok : State) :
    s.checked (overCapacity lmax n) .capacity ok = ok :=
  State.checked_good _ _ hf (overCapacity_eq_false.mpr h)

/-- A length above LMAX raises ERR_CAPACITY, whatever the work would have been (R149, R153). -/
theorem State.checked_overCapacity {s : State} (hf : s.fault = false) {lmax n : Word} (h : lmax < n)
    (ok : State) : s.checked (overCapacity lmax n) .capacity ok =
      { s with fault := true, cause := 0x4, rsp := 0x400000000, phase := .resp } := by
  rw [State.checked_bad _ _ hf (overCapacity_eq_true.mpr h), State.raise_running hf]
  rfl

theorem newAt_answers {s : State} (hf : s.fault = false) {lmax n : Word} (h : n ≤ lmax) :
    (newAt lmax n s).answers { s.snapshot with box := Container.zeros n } 0 := by
  rw [newAt, State.checked_fitting hf h]
  exact s.answers_commit_ok _

theorem filledAt_answers {s : State} (hf : s.fault = false) {lmax n : Word} (h : n ≤ lmax) (v : Word) :
    (filledAt lmax n v s).answers { s.snapshot with box := Container.filled n v } 0 := by
  rw [filledAt, State.checked_fitting hf h]
  exact s.answers_commit_ok _

/-- FROM of no beats commits the empty container at once (R104). -/
theorem fromAt_zero {s : State} (hf : s.fault = false) (lmax : Word) :
    fromAt lmax 0 s = ((s.startFrom 0).commit (Container.ofSeq [])).respond .ok 0 :=
  State.checked_fitting hf (Nat.zero_le _) _

/-- FROM of some beats goes to LOAD for them (R104). -/
theorem fromAt_load {s : State} (hf : s.fault = false) {lmax n : Word} (h0 : n ≠ 0) (h : n ≤ lmax) :
    fromAt lmax n s = { s.startFrom n with phase := .load } := by
  rw [fromAt, State.checked_fitting hf h, if_neg h0]

/-! ### FROM as a transaction (R103) -/

theorem transact_accepted {lmax : Word} {c : Command} {k : Snapshot} (hf : k.fault = false)
    (h : c.check lmax k.box = none) :
    transact lmax c k = ({ k with box := c.container k.box }, ⟨.ok, c.data k.box⟩, c.output k.box) := by
  rw [transact, if_neg (Bool.eq_false_iff.mp hf), h]

theorem transact_raises {lmax : Word} {c : Command} {k : Snapshot} {e : Cause} (hf : k.fault = false)
    (h : c.check lmax k.box = some e) :
    transact lmax c k = ({ k with fault := true, cause := e.code }, ⟨.err e, 0⟩, []) := by
  rw [transact, if_neg (Bool.eq_false_iff.mp hf), h]

/-- A bound on every element bounds the maximum; the empty sequence has the maximum 0. -/
theorem maxWord_le {vs : List Word} {b : Word} (h : ∀ v ∈ vs, v ≤ b) : maxWord vs ≤ b := by
  by_cases empty : vs = []
  · subst empty
    exact Nat.zero_le _
  · exact h _ (maxWord_mem empty)

/-- No width that covers the whole sequence is narrower than the one FROM chooses (R103). -/
theorem bits_seqWidth_le {vs : List Word} {t : Width} (h : ∀ v ∈ vs, v ≤ t.maskOf) :
    (seqWidth vs).bits ≤ t.bits := by
  rw [seqWidth_eq]
  exact Width.bits_le_of_maskOf_le (maskOf_minWidth_le (maxWord_le h))

/-! ### The units of FILLED (R102) -/

theorem minWidth_ne_w4 {v : Word} (h : 15 < v) : minWidth v ≠ .w4 :=
  upWidth_eq_minWidth h ▸ upWidth_ne_w4 v

/-- The element of a FILLED container at an index: the value, and 0 beyond the length. -/
theorem Container.repGet_filled (n v : Word) (i : Nat) :
    repGet (minWidth v) (Container.filled n v).buf i = if i < n.toNat then v else 0 := by
  show repGet (minWidth v) (pack (minWidth v) (List.replicate n.toNat v)) i = _
  rw [repGet_pack, List.getD_eq_getElem?_getD, List.getElem?_replicate]
  split
  · exact cut_of_le (le_maskOf_minWidth v)
  · exact cut_zero _

/-- A W4 unit of a FILLED container: its low nibble, and 16 times its high one (R41, R102). -/
theorem Container.unitRead_filled_w4 (n : Word) {v : Word} (hv : v ≤ 15) (u : Nat) :
    unitRead .w4 (Container.filled n v).buf u =
      (if 2 * u < n.toNat then v else 0).toNat + 16 * (if 2 * u + 1 < n.toNat then v else 0).toNat := by
  rw [← Container.repGet_filled, ← Container.repGet_filled, minWidth_of_le_fifteen hv, toNat_repGet4_low,
    toNat_repGet4_high]
  exact (Nat.mod_add_div _ 16).symm

end Sys2Proof.Machine

namespace Sys2Proof.Proofs

open Sys2Proof Sys2Proof.Machine

/-- Settles O23: the check compares the length with LMAX, and the maximum of the sequence decides the
width. -/
theorem fromBuildsTheSequence : Obligations.FromBuildsTheSequence := by
  refine ⟨fun lmax vs k hf fits => ?_, fun lmax vs k hf long => ?_, fun vs hlen => ?_,
    decode_assemble 0x3⟩
  · exact transact_accepted hf (if_neg (Nat.not_lt.mpr fits))
  · exact transact_raises (c := .fromSeq vs) hf (if_pos long)
  · refine ⟨Container.logical_ofSeq hlen, toNat_ofNat_length hlen, rfl, rfl, ?_, fun _ => seqWidth_eq vs,
      fun t covers => bits_seqWidth_le covers⟩
    rintro rfl
    rfl

/-- Settles O24: the empty W4 shadow is FROM of no beats, and each beat pushed is one more of them. -/
theorem incrementalFromIsFrom : Obligations.IncrementalFromIsFrom := by
  intro vs hlen
  exact Container.pushAll_ofSeq (us := []) (by simpa using hlen)

/-- Settles O26: every element is the value, and a unit is read off its elements. -/
theorem filledBuildsCopies : Obligations.FilledBuildsCopies := by
  refine ⟨fun lmax n v s hf h => filledAt_answers hf h v,
    fun lmax n v s hf h => State.checked_overCapacity hf h _, fun n v s => rfl,
    fun n v s hf h => ⟨_, rfl, filledAt_answers hf h v⟩,
    fun n v => ⟨Container.logical_filled n v, rfl, rfl, rfl⟩,
    fun n v hv => ⟨fun u hu => ?_, fun odd => ?_⟩, fun n v hv u hu => ?_, decode_assemble 0x2⟩
  · rw [Container.unitRead_filled_w4 n hv, if_pos (by omega), if_pos (by omega)]
  · rw [Container.unitRead_filled_w4 n hv, if_pos (by omega), if_neg (by omega)]
    rfl
  · rw [unitRead_eq_toNat_repGet (minWidth_ne_w4 hv), Container.repGet_filled, if_pos hu]

/-- Settles O25: the buffer of NEW lists no byte, and zeros pack to just that. -/
theorem newBuildsZeros : Obligations.NewBuildsZeros := by
  refine ⟨fun lmax n s hf h => newAt_answers hf h,
    fun lmax n s hf h => State.checked_overCapacity hf h _, fun n s => rfl,
    fun n s hf h => ⟨_, rfl, newAt_answers hf h⟩,
    fun n => ⟨rfl, unitRead_w4 [], rfl, Container.logical_zeros n, ?_⟩, decode_assemble 0x1⟩
  exact (Container.zeros_eq_packed n).symm

/-- Settles O27: the work of FROM by its check and by whether there is a beat to take, and a cycle of
LOAD by whether a beat is offered and is the last one. -/
theorem fromTakesItsBeats : Obligations.FromTakesItsBeats := by
  refine ⟨fun n s => rfl, fun lmax n s hf h0 h => ?_, fun n s hf h => ⟨_, rfl, fun h0 => ?_, fun h0 => ?_⟩,
    fun lmax n s hf h => State.checked_overCapacity hf h _, fun s p hp quiet => ?_,
    fun s p hp valid more => ?_, fun s p hp valid last => ?_⟩
  · rw [fromAt_load hf h0 h]
    exact ⟨rfl, rfl, rfl, rfl, rfl⟩
  · rw [h0, fromAt_zero hf]
    exact ⟨rfl, rfl, rfl⟩
  · rw [fromAt_load hf h0 h]
    exact ⟨rfl, rfl, rfl, rfl, rfl⟩
  · rw [State.advance_load hp, quiet]
    rfl
  · rw [State.advance_load hp, valid, if_pos rfl, State.takeBeat_more more]
    exact ⟨_, rfl, rfl, hp, rfl, rfl, rfl⟩
  · rw [State.advance_load hp, valid, if_pos rfl, State.takeBeat_last last]
    exact ⟨_, rfl, (s.addBeat p.dinData).answers_commit_ok _⟩

end Sys2Proof.Proofs
end

section
/-! The access commands GET, SET and SETR (R110 to R114): the width and the mask the upscale-first step
leaves, the elements each write leaves, and what a GET answers after it. -/

namespace Sys2Proof.Machine

/-! ### Equality of good containers -/

/-- A good container is its width, its length and its elements (R31, R35). -/
theorem Container.Good.ext {c c' : Container} (h : c.Good) (h' : c'.Good) (tag : c.tag = c'.tag)
    (len : c.len = c'.len) (elements : ∀ j, repGet c.tag c.buf j = repGet c'.tag c'.buf j) : c = c' := by
  have mask : c.mask = c'.mask := by rw [h.masked, h'.masked, tag]
  have buf : c.buf = c'.buf :=
    repGet_ext (t := c.tag) h.canonical h'.canonical fun j => by rw [elements, tag]
  cases c
  cases c'
  congr

/-! ### The upscale-first step (R113, R131) -/

theorem lt_of_lt_of_le_word {a b c : Word} (h : a < b) (h' : b ≤ c) : a < c :=
  Nat.lt_of_lt_of_le (show a.toNat < b.toNat from h) (show b.toNat ≤ c.toNat from h')

theorem Container.fit_eq_ite (c : Container) (v : Word) :
    c.fit v = if c.mask < v then c.upscale (upWidth v) else c := by
  split
  · next hgt => exact Container.fit_of_gt hgt
  · next hle => exact Container.fit_of_le (le_of_not_lt_word hle)

theorem Container.tag_fit_of_le {c : Container} {v : Word} (h : v ≤ c.mask) : (c.fit v).tag = c.tag := by
  rw [Container.fit_of_le h]

theorem Container.tag_fit_of_gt {c : Container} {v : Word} (h : c.mask < v) :
    (c.fit v).tag = upWidth v := by
  rw [Container.fit_of_gt h, Container.upscale]

/-- The mask is then the larger of the old one and the one the value needs (R114): an upscale happens
only above 15, where its target is the narrowest width. -/
theorem Container.Good.mask_fit {c : Container} (h : c.Good) (v : Word) :
    (c.fit v).mask = if c.mask < (minWidth v).maskOf then (minWidth v).maskOf else c.mask := by
  by_cases hgt : c.mask < v
  · have above : 15 < v := lt_of_le_of_lt_word (h.masked ▸ Width.fifteen_le_maskOf c.tag) hgt
    rw [if_pos (lt_of_lt_of_le_word hgt (le_maskOf_minWidth v)), Container.fit_of_gt hgt, Container.upscale,
      upWidth_eq_minWidth above]
  · have hle : v ≤ c.mask := le_of_not_lt_word hgt
    have narrow : (minWidth v).maskOf ≤ c.mask := h.masked ▸ maskOf_minWidth_le (h.masked ▸ hle)
    rw [if_neg (BitVec.not_lt.mpr narrow), Container.fit_of_le hle]

/-! ### The elements SET leaves (R111) -/

theorem Container.Good.get_set_same {c : Container} (h : c.Good) (i v : Word) : (c.set i v).get i = v := by
  rw [Container.get, h.repGet_set, if_pos rfl]

theorem Container.Good.get_set_other {c : Container} (h : c.Good) {i j : Word} (hj : j ≠ i) (v : Word) :
    (c.set i v).get j = c.get j := by
  rw [Container.get, h.repGet_set, if_neg fun e => hj (BitVec.eq_of_toNat_eq e.symm), Container.get]

theorem Container.Good.logical_set {c : Container} (h : c.Good) (i v : Word) :
    (c.set i v).logical = c.logical.set i.toNat v := by
  refine List.ext_getElem (by simp [Container.length_logical]) fun j _ _ => ?_
  simp only [Container.logical, repIter, List.getElem_set, List.getElem_map, List.getElem_range,
    h.repGet_set]

/-- Writing the value an index already holds changes nothing: that value needs no upscale (R33). -/
theorem Container.Good.set_get {c : Container} (h : c.Good) {i : Word} (hi : i < c.len) :
    c.set i (c.get i) = c := by
  have fits : c.get i ≤ c.mask := h.masked ▸ repGet_le _ _ _
  refine (Container.good_set h hi _).ext h (Container.tag_fit_of_le fits) (Container.len_set _ _ _)
    fun j => ?_
  rw [h.repGet_set]
  split
  · next e => rw [← e, Container.get]
  · rfl

/-! ### The elements SETR leaves (R112) -/

theorem Container.Good.get_setr_inside {c : Container} (h : c.Good) {a b k : Word} (hab : a ≤ b)
    (hk : a ≤ k) (hkb : k < b) (v : Word) : (c.setr a b v).get k = v := by
  rw [Container.get, h.repGet_setr hab, if_pos ⟨hk, hkb⟩]

theorem Container.Good.get_setr_outside {c : Container} (h : c.Good) {a b k : Word} (hab : a ≤ b)
    (hk : k < a ∨ b ≤ k) (v : Word) : (c.setr a b v).get k = c.get k := by
  have out : ¬ (a.toNat ≤ k.toNat ∧ k.toNat < b.toNat) := fun ⟨ha, hb⟩ =>
    hk.elim (not_lt_of_ge ha) (not_le_of_gt hb)
  rw [Container.get, h.repGet_setr hab, if_neg out, Container.get]

/-- Over one element SETR is SET (R112). -/
theorem Container.Good.setr_one {c : Container} (h : c.Good) {a b : Word} (hb : b ≤ c.len) (hab : a < b)
    (one : b = a + 1) (v : Word) : c.setr a b v = c.set a v := by
  have stop : b.toNat = a.toNat + 1 := by bv_omega
  have hle : a ≤ b := le_of_lt_word hab
  refine (Container.good_setr h hle hb v).ext (Container.good_set h (lt_of_lt_of_le_word hab hb) v) rfl ?_
    fun j => ?_
  · rw [Container.len_setr, Container.len_set]
  · have single : a.toNat ≤ j ∧ j < b.toNat ↔ a.toNat = j := by omega
    rw [h.repGet_setr hle, h.repGet_set, if_congr single rfl rfl]

/-! ### The bounds checks (R147, R148, R155) -/

/-- An index from LEN up raises ERR_INDEX, whatever the work would have been (R147, R153). -/
theorem State.checked_badIndex {s : State} (hf : s.fault = false) {i : Word} (h : s.box.len ≤ i)
    (ok : State) : s.checked (badIndex s.box.len i) .index ok =
      { s with fault := true, cause := 0x2, rsp := 0x200000000, phase := .resp } := by
  rw [State.checked_bad _ _ hf (badIndex_eq_true.mpr h), State.raise_running hf]
  rfl

/-- A range that is reversed or ends beyond LEN raises ERR_RANGE (R148, R153). -/
theorem State.checked_badRange {s : State} (hf : s.fault = false) {a b : Word}
    (h : b < a ∨ s.box.len < b) (ok : State) : s.checked (badRange s.box.len a b) .range ok =
      { s with fault := true, cause := 0x3, rsp := 0x300000000, phase := .resp } := by
  rw [State.checked_bad _ _ hf (badRange_eq_true.mpr h), State.raise_running hf]
  rfl

theorem exec_get_ok {i : Word} {s : State} (hf : s.fault = false) (h : i < s.box.len) :
    exec (.get i) s = .next (s.respond .ok (s.box.get i)) :=
  congrArg Host.Outcome.next (State.checked_good _ _ hf (badIndex_eq_false.mpr h))

/-! ### GET after a commit (R114) -/

section
variable {s : State} {c : Container} {k : Word} (hf : s.fault = false) (hk : k < s.box.len)
  (hl : c.len = s.box.len)
include hf hk hl

/-- After a commit that keeps LEN, GET answers the element of the container committed. -/
theorem exec_get_commit_ok : ∃ u, exec (.get k) ((s.commit c).respond .ok 0) = .next u ∧
    u.rsp = 0#4 ++ c.get k :=
  ⟨_, exec_get_ok (s := (s.commit c).respond .ok 0) hf (hl ▸ hk), rfl⟩

/-- After a commit that keeps LEN, GET of an element the commit keeps answers what it did before. -/
theorem exec_get_commit_same (same : c.get k = s.box.get k) :
    ∃ u w, exec (.get k) ((s.commit c).respond .ok 0) = .next u ∧ exec (.get k) s = .next w ∧
      u.rsp = w.rsp := by
  obtain ⟨u, hu, rsp⟩ := exec_get_commit_ok hf hk hl
  refine ⟨u, _, hu, exec_get_ok hf hk, ?_⟩
  rw [rsp, same]
  rfl

end

end Sys2Proof.Machine

namespace Sys2Proof.Proofs

open Sys2Proof Sys2Proof.Machine

/-- Settles O29: the container committed is `Container.set`, the REP_SET of the fitted one. -/
theorem setWritesOneElement : Obligations.SetWritesOneElement := by
  refine ⟨fun i v s hf hi => ⟨_, exec_set_ok hf hi, ?_⟩, fun i v s hf good hi => ?_,
    fun i v s hf h => congrArg Host.Outcome.next (State.checked_badIndex hf h _), decode_assemble 0x5⟩
  · rw [← Container.fit_eq_ite]
    exact State.answers_commit_ok s _
  · refine ⟨_, exec_set_ok hf hi, State.answers_commit_ok s _, Container.len_set i v s.box,
      good.get_set_same i v, fun j hj => good.get_set_other hj v, good.logical_set i v,
      Container.tag_fit_of_le, Container.tag_fit_of_gt, (Container.good_set good hi v).masked, ?_⟩
    rintro rfl
    exact good.set_get hi

/-- Settles O31: the container committed is `Container.setr`, the REP_FILL of the fitted one. -/
theorem setrWritesItsRange : Obligations.SetrWritesItsRange := by
  refine ⟨fun a b v s hf hab hb => ⟨_, exec_setr_ok hf hab hb, ?_⟩, fun a b v s hf good hab hb => ?_,
    fun a b v s hf h => congrArg Host.Outcome.next (State.checked_badRange hf h _), decode_assemble 0x6⟩
  · rw [← Container.fit_eq_ite]
    exact State.answers_commit_ok s _
  · have kept := Container.good_setr good hab hb v
    exact ⟨_, exec_setr_ok hf hab hb, State.answers_commit_ok s _, Container.len_setr a b v s.box,
      fun k hk hkb => good.get_setr_inside hab hk hkb v, fun k hk => good.get_setr_outside hab hk v,
      Container.tag_fit_of_le, Container.tag_fit_of_gt, kept.masked, kept.padded,
      fun hlt one => good.setr_one hb hlt one v⟩

/-- Settles O33: a write commits its container and keeps LEN, so a later GET reads that container. -/
theorem writesAreReadBack : Obligations.WritesAreReadBack := by
  refine ⟨fun i v s hf good hi => ?_, fun a b v s hf good hab hb => ?_⟩
  · have len : (s.box.set i v).len = s.box.len := Container.len_set i v s.box
    refine ⟨_, exec_set_ok hf hi, ?_, fun j hj hlt => ?_, s.box.le_mask_fit v, len, good.mask_fit v⟩
    · simpa only [good.get_set_same] using exec_get_commit_ok hf hi len
    · exact exec_get_commit_same hf hlt len (good.get_set_other hj v)
  · have len : (s.box.setr a b v).len = s.box.len := Container.len_setr a b v s.box
    refine ⟨_, exec_setr_ok hf hab hb, fun k hk hkb => ?_, fun k hk hlt => ?_, s.box.le_mask_fit v, len,
      good.mask_fit v⟩
    · simpa only [good.get_setr_inside hab hk hkb] using
        exec_get_commit_ok hf (lt_of_lt_of_le_word hkb hb) len
    · exact exec_get_commit_same hf hlt len (good.get_setr_outside hab hk v)

/-- Settles O28: GET is one REP_GET when its index passes the check. -/
theorem getReturnsTheElement : Obligations.GetReturnsTheElement := by
  refine ⟨fun i s hf hi => ⟨_, exec_get_ok hf hi, rfl, rfl, rfl⟩,
    fun i s hf h => congrArg Host.Outcome.next (State.checked_badIndex hf h _), fun i s masked => ?_,
    decode_assemble 0x4⟩
  rw [masked]
  exact repGet_le _ _ _

end Sys2Proof.Proofs
end

section
/-! The traversal ITER and the introspection commands MASK and LEN (R120 to R124): the beats of STREAM
at any pace of the host, and what MASK and LEN tell of the container. -/

namespace Sys2Proof.Machine

/-! ### The start of ITER and the beat on DOUT (R121) -/

theorem exec_iter_ok {s : State} (hf : s.fault = false) : exec .iter s = .next s.startIter :=
  congrArg Host.Outcome.next (State.unlessHalted_running _ hf)

theorem State.dout_of_stream {s : State} (hp : s.phase = .stream) :
    (s.outputs false).dout = some s.beat := if_pos ⟨rfl, hp⟩

theorem State.advance_stream {s : State} (hp : s.phase = .stream) (hlt : s.cnt < s.box.len) (p : PortIn) :
    s.advance p = .next (if p.doutReady then s.sendBeat else s) := by
  simp only [State.advance, hp, if_pos hlt]

theorem State.sendBeat_last {s : State} (h : s.cnt = s.box.len - 1) : s.sendBeat =
    State.respond .ok 0 { s with env := { s.env with gotDout := s.env.gotDout ++ [s.beat] } } := if_pos h

theorem State.sendBeat_more {s : State} (h : s.cnt ≠ s.box.len - 1) : s.sendBeat =
    { s with cnt := s.cnt + 1, env := { s.env with gotDout := s.env.gotDout ++ [s.beat] } } := if_neg h

theorem State.phase_sendBeat_more {s : State} (hp : s.phase = .stream) (more : s.cnt ≠ s.box.len - 1) :
    s.sendBeat.phase = .stream := by
  rw [State.sendBeat_more more]
  exact hp

/-- The one transfer of a beat on DOUT, in terms of the pins. -/
theorem State.gotDout_sendBeat {s : State} (hp : s.phase = .stream) :
    some s.sendBeat.env.gotDout = (s.outputs false).dout.map fun d => s.env.gotDout ++ [d] := by
  rw [State.env_sendBeat, State.dout_of_stream hp, Option.map_some]

/-! ### The beats still to send (R120, R121) -/

/-- The beats STREAM has not sent yet. -/
def State.beatsLeft (s : State) : List DoutBeat := (markLast s.box.logical).drop s.cnt.toNat

theorem State.length_beatsLeft (s : State) : s.beatsLeft.length = s.box.len.toNat - s.cnt.toNat := by
  rw [State.beatsLeft, List.length_drop, length_markLast, Container.length_logical]

theorem State.beatsLeft_of_cnt_zero {s : State} (h : s.cnt = 0) :
    s.beatsLeft = markLast s.box.logical := by
  rw [State.beatsLeft, h]
  rfl

theorem State.beatsLeft_last {s : State} (hlt : s.cnt < s.box.len) (last : s.cnt = s.box.len - 1) :
    s.beatsLeft = [s.beat] := by
  obtain ⟨first, isLast⟩ := drop_beat hlt
  have full : (markLast s.box.logical).length = s.cnt.toNat + 1 := by
    rw [length_markLast, Container.length_logical, isLast.mp last]
  rw [State.beatsLeft, first, List.drop_eq_nil_of_le full.le]

theorem State.beatsLeft_more {s : State} (hlt : s.cnt < s.box.len) (more : s.cnt ≠ s.box.len - 1) :
    s.beatsLeft = s.beat :: s.sendBeat.beatsLeft := by
  rw [State.sendBeat_more more, State.beatsLeft, State.beatsLeft, (drop_beat hlt).1,
    toNat_succ_of_lt hlt]

/-- Before the last beat CNT moves on and stays below LEN (R24). -/
theorem State.cnt_sendBeat_lt {s : State} (hlt : s.cnt < s.box.len) (more : s.cnt ≠ s.box.len - 1) :
    s.sendBeat.cnt < s.sendBeat.box.len := by
  have next : s.cnt + 1 < s.box.len := by bv_omega
  rw [State.sendBeat_more more]
  exact next

/-! ### The beats of STREAM at any pace -/

/-- In how many of a list of input cycles the host takes a beat. -/
def takenBeats (ins : List PortIn) : Nat := (ins.filter (·.doutReady)).length

theorem takenBeats_nil : takenBeats [] = 0 := rfl

theorem takenBeats_cons_ready {p : PortIn} (h : p.doutReady = true) (ins : List PortIn) :
    takenBeats (p :: ins) = takenBeats ins + 1 := by
  simp [takenBeats, h]

theorem takenBeats_cons_busy {p : PortIn} (h : p.doutReady = false) (ins : List PortIn) :
    takenBeats (p :: ins) = takenBeats ins := by
  simp [takenBeats, h]

/-- `t` is where STREAM stands when the host, which already had `sent`, was ready for `k` of the beats
`left`: waiting for it to take more of them, or answering OK once it has them all; the container is
`old` throughout (R121, R124). -/
structure StreamReaches (old : Container) (sent left : List DoutBeat) (k : Nat) (t : State) : Prop where
  box : t.box = old
  waiting : k < left.length → t.phase = .stream ∧ t.env.gotDout = sent ++ left.take k
  answered : left.length ≤ k → t.phase = .resp ∧ t.rsp = 0 ∧ t.env.gotDout = sent ++ left

/-- A beat the host has taken is the first of those that were left. -/
theorem StreamReaches.cons {old : Container} {sent left : List DoutBeat} {b : DoutBeat} {k : Nat}
    {t : State} (h : StreamReaches old (sent ++ [b]) left k t) :
    StreamReaches old sent (b :: left) (k + 1) t := by
  obtain ⟨box, waiting, answered⟩ := h
  refine ⟨box, fun few => ?_, fun all => ?_⟩
  · rw [List.take_succ_cons, List.append_cons]
    exact waiting (Nat.lt_of_succ_lt_succ few)
  · rw [List.append_cons]
    exact answered (Nat.le_of_succ_le_succ all)

/-- A block whose response is not taken sends no beat (R173). -/
theorem Runs.resp_gotDout {s t : State} {ins : List PortIn} (hp : s.phase = .resp) (h : Runs s ins t)
    (hready : ∀ p ∈ ins, p.rspReady = false) : t.env.gotDout = s.env.gotDout := by
  induction ins generalizing s with
  | nil => rw [h.nil]; rfl
  | cons p ins ih =>
    obtain ⟨u, e, h'⟩ := h.cons
    rw [State.advance_resp (s := (s.fed ins).noteOffers p) hp, if_neg (by simp [hready p])] at e
    cases e
    exact ih (s := (s.fed ins).noteOffers p) hp h' fun q hq => hready q (List.mem_cons_of_mem _ hq)

/-- Before the last beat: what the run reaches after taking this one, it reaches from here. -/
theorem StreamReaches.of_sendBeat {s t : State} {k : Nat} (hlt : s.cnt < s.box.len)
    (more : s.cnt ≠ s.box.len - 1)
    (h : StreamReaches s.sendBeat.box s.sendBeat.env.gotDout s.sendBeat.beatsLeft k t) :
    StreamReaches s.box s.env.gotDout s.beatsLeft (k + 1) t := by
  rw [State.box_sendBeat, State.env_sendBeat] at h
  rw [State.beatsLeft_more hlt more]
  exact h.cons

/-- Once the last beat is taken, the cycles in which the host is ready for another change nothing. -/
theorem Runs.stream_reaches_last {s t : State} {ins : List PortIn} (hlt : s.cnt < s.box.len)
    (last : s.cnt = s.box.len - 1) (h : Runs s.sendBeat ins t)
    (hready : ∀ p ∈ ins, p.rspReady = false) (k : Nat) :
    StreamReaches s.box s.env.gotDout s.beatsLeft (k + 1) t := by
  rw [State.sendBeat_last last] at h
  have waits := h.resp_waits rfl hready
  rw [State.beatsLeft_last hlt last]
  refine ⟨by rw [waits]; rfl, fun few => ?_, fun _ => ⟨by rw [waits]; rfl, by rw [waits]; rfl, ?_⟩⟩
  · exact absurd (Nat.lt_of_succ_lt_succ few) (Nat.not_lt_zero k)
  · exact h.resp_gotDout rfl hready

/-- STREAM sends the beats it has left, one whenever the host is ready, whatever the host's pace (R121). -/
theorem Runs.stream_reaches {s t : State} {ins : List PortIn} (hp : s.phase = .stream)
    (hlt : s.cnt < s.box.len) (h : Runs s ins t) (hready : ∀ p ∈ ins, p.rspReady = false) :
    StreamReaches s.box s.env.gotDout s.beatsLeft (takenBeats ins) t := by
  induction ins generalizing s with
  | nil =>
    rw [h.nil]
    have unsent : 0 < s.beatsLeft.length := s.length_beatsLeft ▸ Nat.sub_pos_of_lt hlt
    exact ⟨rfl, fun _ => ⟨hp, (List.append_nil _).symm⟩, fun all => absurd unsent (Nat.not_lt.mpr all)⟩
  | cons p ins ih =>
    obtain ⟨u, e, h'⟩ := h.cons
    have hready' : ∀ q ∈ ins, q.rspReady = false := fun q hq => hready q (List.mem_cons_of_mem _ hq)
    rw [State.advance_stream (s := (s.fed ins).noteOffers p) hp hlt] at e
    cases ready : p.doutReady with
    | false =>
      rw [ready] at e; cases e
      rw [takenBeats_cons_busy ready]
      exact ih (s := (s.fed ins).noteOffers p) hp hlt h' hready'
    | true =>
      rw [ready] at e; cases e
      rw [takenBeats_cons_ready ready]
      by_cases last : s.cnt = s.box.len - 1
      · exact Runs.stream_reaches_last (s := (s.fed ins).noteOffers p) hlt last h' hready' _
      · exact .of_sendBeat (s := (s.fed ins).noteOffers p) hlt last
          (ih (State.phase_sendBeat_more hp last) (State.cnt_sendBeat_lt hlt last) h' hready')

/-! ### What MASK tells (R122) -/

theorem Container.tag_eq_iff_mask_eq {c : Container} (hm : c.mask = c.tag.maskOf) (t : Width) :
    c.tag = t ↔ c.mask = t.maskOf :=
  ⟨fun tag => tag ▸ hm, fun mask => Width.maskOf_inj (hm.symm.trans mask)⟩

/-- The upscale-first step keeps the width exactly when the value is at most MASK: the target of an
upscale covers a value the live width does not (R113, R131). -/
theorem Container.tag_fit_eq_iff {c : Container} (hm : c.mask = c.tag.maskOf) (v : Word) :
    (c.fit v).tag = c.tag ↔ v ≤ c.mask := by
  refine ⟨fun same => le_of_not_lt_word fun hgt => ?_, Container.tag_fit_of_le⟩
  have covers : v ≤ c.mask := by
    rw [hm, ← same, Container.tag_fit_of_gt hgt]
    exact le_maskOf_upWidth v
  exact BitVec.not_lt.mpr covers hgt

/-! ### What keeps LEN (R123) -/

theorem len_of_exec_set {i v : Word} {s t : State} (e : exec (.set i v) s = .next t) :
    t.box.len = s.box.len := by
  cases e
  exact State.checked_keeps (·.box.len) _ _ (fun _ _ => rfl) rfl (Container.len_set i v s.box)

theorem len_of_exec_setr {a b v : Word} {s t : State} (e : exec (.setr a b v) s = .next t) :
    t.box.len = s.box.len := by
  cases e
  exact State.checked_keeps (·.box.len) _ _ (fun _ _ => rfl) rfl (Container.len_setr a b v s.box)

end Sys2Proof.Machine

namespace Sys2Proof.Proofs

open Sys2Proof Sys2Proof.Machine

/-- Settles O59: at the start of STREAM all LEN beats are left. -/
theorem streamEmitsTheContentsAtAnyPace : Obligations.StreamEmitsTheContentsAtAnyPace := by
  intro s t ins hp hcnt hlen hins h
  have start : s.cnt < s.box.len := by
    rw [hcnt]
    exact Nat.pos_of_ne_zero fun x => hlen (BitVec.eq_of_toNat_eq x)
  have all : s.box.len.toNat = (markLast s.box.logical).length := by
    rw [length_markLast, Container.length_logical]
  obtain ⟨box, waiting, answered⟩ := Runs.stream_reaches hp start
    ⟨fun p hm => (hins p hm).1, h⟩ fun p hm => (hins p hm).2
  rw [State.beatsLeft_of_cnt_zero hcnt] at waiting answered
  rw [all]
  exact ⟨box, waiting, answered⟩

/-- Settles O35: the start is `startIter`, and a beat taken is `sendBeat`, whose last one answers. -/
theorem iterSendsBeatByBeat : Obligations.IterSendsBeatByBeat := by
  refine ⟨fun s hf empty => ?_, fun s hf more => ?_, fun s hp => ⟨?_, State.dout_of_stream hp⟩,
    fun s p hp hlt busy => ?_, fun s p hp hlt ready more => ?_, fun s p hp hlt ready last => ?_,
    decode_assemble 0x7⟩
  · refine ⟨_, exec_iter_ok hf, ?_⟩
    rw [State.startIter_empty empty]
    exact ⟨⟨rfl, rfl, rfl⟩, rfl⟩
  · refine ⟨_, exec_iter_ok hf, ?_⟩
    rw [State.startIter_stream more]
    exact ⟨rfl, rfl, rfl⟩
  · simp [State.outputs, hp]
  · rw [State.advance_stream hp hlt, busy]
    rfl
  · rw [State.advance_stream hp hlt, if_pos ready]
    refine ⟨_, rfl, ?_, State.phase_sendBeat_more hp more, ?_, State.gotDout_sendBeat hp⟩
    · rw [State.sendBeat_more more]
      rfl
    · rw [State.sendBeat_more more]
  · rw [State.advance_stream hp hlt, if_pos ready]
    refine ⟨_, rfl, ?_, State.gotDout_sendBeat hp⟩
    rw [State.sendBeat_last last]
    exact ⟨rfl, rfl, rfl⟩

/-- Settles O36: the four masks differ, and a SET leaves the width of the upscale-first step. -/
theorem maskAnswersTheMask : Obligations.MaskAnswersTheMask := by
  refine ⟨fun s hf => ⟨_, exec_mask_ok hf, rfl, rfl, rfl⟩, fun s hm => ?_, fun i v s t hf hm hi e => ?_,
    decode_assemble 0x8⟩
  · have tells := Container.tag_eq_iff_mask_eq hm
    exact ⟨tells .w4, tells .w8, tells .w16, tells .w32⟩
  · rw [exec_set_ok hf hi] at e
    cases e
    exact Container.tag_fit_eq_iff hm v

/-- Settles O37: neither write touches LEN, whether it passes its check or not. -/
theorem lenAnswersTheLength : Obligations.LenAnswersTheLength :=
  ⟨fun _ hf => ⟨_, exec_len_ok hf, rfl, rfl, rfl⟩,
    fun _ _ _ _ _ _ e => e.elim len_of_exec_set len_of_exec_setr, fun _ _ => rfl, decode_assemble 0x9⟩

end Sys2Proof.Proofs
end

section
/-! The upscale (R130 to R142): the target is strictly wider than the live width, the units and bytes of
the new buffer, and what a command that is no constructor can do to TAG. -/

namespace Sys2Proof.Machine

/-! ### The widths in order (R13, R19) -/

theorem Width.maskOf_le_iff {t t' : Width} : t.maskOf ≤ t'.maskOf ↔ t.bits ≤ t'.bits := by
  refine ⟨Width.bits_le_of_maskOf_le, fun h => ?_⟩
  rw [BitVec.le_def, Width.toNat_maskOf, Width.toNat_maskOf]
  exact Nat.sub_le_sub_right (Nat.pow_le_pow_right Nat.two_pos h) 1

theorem Width.maskOf_lt_iff {t t' : Width} : t.maskOf < t'.maskOf ↔ t.bits < t'.bits := by
  rw [← BitVec.not_le, ← Nat.not_le, Width.maskOf_le_iff]

theorem Width.bits_lt_iff_code_lt {t t' : Width} : t.bits < t'.bits ↔ t.code.toNat < t'.code.toNat := by
  rw [t.bits_eq_pow_code, t'.bits_eq_pow_code, Nat.pow_lt_pow_iff_right Nat.one_lt_two]
  omega

/-- Nothing is narrower than W4. -/
theorem Width.ne_w4_of_bits_lt {t t' : Width} (h : t.bits < t'.bits) : t' ≠ .w4 := by
  rintro rfl
  cases t <;> exact absurd h (by decide)

theorem Width.eq_w4_of_bits_lt_w8 {t : Width} (h : t.bits < Width.w8.bits) : t = .w4 := by
  cases t with
  | w4 => rfl
  | w8 | w16 | w32 => exact absurd h (by decide)

theorem Width.eq_w4_or_w8_of_bits_lt_w16 {t : Width} (h : t.bits < Width.w16.bits) :
    t = .w4 ∨ t = .w8 := by
  cases t with
  | w4 => exact .inl rfl
  | w8 => exact .inr rfl
  | w16 | w32 => exact absurd h (by decide)

theorem upWidth_of_le_65535 {v : Word} (h : 255 < v) (h' : v ≤ 65535) : upWidth v = .w16 := by
  rw [upWidth, if_neg (BitVec.not_le.mpr h), if_pos h']

theorem upWidth_of_gt_65535 {v : Word} (h : 65535 < v) : upWidth v = .w32 := by
  have above : 255 < v := lt_of_le_of_lt_word (b := 65535) (by decide) h
  rw [upWidth, if_neg (BitVec.not_le.mpr above), if_neg (BitVec.not_le.mpr h)]

/-! ### The trigger (R131, R132) -/

section
variable {c : Container} {v : Word} (hm : c.mask = c.tag.maskOf) (hgt : c.mask < v)
include hm hgt

/-- The target covers a value that the live width does not, so its mask is the larger. -/
theorem Container.bits_lt_upWidth : c.tag.bits < (upWidth v).bits :=
  Width.maskOf_lt_iff.mp (hm ▸ lt_of_lt_of_le_word hgt (le_maskOf_upWidth v))

theorem Container.code_lt_upWidth : c.tag.code.toNat < (upWidth v).code.toNat :=
  Width.bits_lt_iff_code_lt.mp (Container.bits_lt_upWidth hm hgt)

end

/-! ### The new buffer (R133) -/

section
variable {c : Container} {t : Width} (wider : c.tag.bits < t.bits)
include wider

/-- UPSCALE to a wider width loses no element, and decodes to 0 beyond them (R139). -/
theorem Container.repGet_upscale (k : Nat) : repGet t (c.upscale t).buf k = c.logical.getD k 0 := by
  have covered : ∀ w ∈ c.logical, w ≤ t.maskOf := fun w hw =>
    le_trans_word (c.mem_logical_le w hw) (Width.maskOf_le_iff.mpr wider.le)
  show repGet t (pack t c.logical) k = _
  rw [repGet_pack, cut_of_le (getD_le_maskOf covered k)]

theorem Container.repGet_upscale_of_lt {k : Nat} (hk : k < c.len.toNat) :
    repGet t (c.upscale t).buf k = repGet c.tag c.buf k := by
  rw [Container.repGet_upscale wider, Container.getD_logical, if_pos hk]

/-- A unit of the new buffer holds one element of the old one (R133). -/
theorem Container.unitRead_upscale {k : Nat} (hk : k < c.len.toNat) :
    unitRead t (c.upscale t).buf k = (repGet c.tag c.buf k).toNat := by
  rw [unitRead_eq_toNat_repGet (Width.ne_w4_of_bits_lt wider), Container.repGet_upscale_of_lt wider hk]

end

/-! ### The bytes of the new buffer (R136) -/

/-- The byte view of a packed buffer at a width with one element per unit (R46, R90). -/
theorem read_pack_wide {t : Width} (ht : t ≠ .w4) (vs : List Word) (j : Nat) :
    Mem.read (pack t vs) j =
      BitVec.ofNat 8 ((vs.getD (j / t.unitBytes) 0).toNat / 256 ^ (j % t.unitBytes)) := by
  rw [← getD_packUnits t vs _ _ (Nat.mod_lt j t.unitBytes_pos), Nat.div_add_mod', pack_wide ht,
    ← Mem.read_ofBytes 0, Nat.zero_add]

theorem Width.toNat_maskOf_lt_pow_unitBytes (t : Width) : t.maskOf.toNat < 256 ^ t.unitBytes := by
  cases t <;> decide

/-- An element of the old width fills the low bytes of its new unit, as many as an old unit has, and
the bytes above them are 0. -/
theorem Container.read_upscale (c : Container) {t : Width} (ht : t ≠ .w4) (j : Nat) :
    Mem.read (c.upscale t).buf j =
      if j % t.unitBytes < c.tag.unitBytes then
        BitVec.ofNat 8 ((c.logical.getD (j / t.unitBytes) 0).toNat / 256 ^ (j % t.unitBytes))
      else 0 := by
  have element : (c.logical.getD (j / t.unitBytes) 0).toNat < 256 ^ c.tag.unitBytes :=
    lt_of_le_of_lt (getD_le_maskOf c.mem_logical_le _) c.tag.toNat_maskOf_lt_pow_unitBytes
  show Mem.read (pack t c.logical) j = _
  rw [read_pack_wide ht]
  split
  · rfl
  · next above =>
    rw [Nat.div_eq_of_lt (element.trans_le (Nat.pow_le_pow_right (by decide) (Nat.le_of_not_lt above)))]
    rfl

/-- From W4 or W8 an element is the first byte of its new unit. -/
theorem Container.read_upscale_of_byte {c : Container} (hc : c.tag.unitBytes = 1) {t : Width}
    (ht : t ≠ .w4) (j : Nat) :
    Mem.read (c.upscale t).buf j =
      if j % t.unitBytes = 0 then BitVec.ofNat 8 (c.logical.getD (j / t.unitBytes) 0).toNat else 0 := by
  rw [c.read_upscale ht, hc, if_congr Nat.lt_one_iff rfl rfl]
  split
  · next first => rw [first, Nat.pow_zero, Nat.div_one]
  · rfl

theorem Width.nBytes_wide {t : Width} (ht : t ≠ .w4) (n : Nat) : t.nBytes n = n * t.unitBytes := by
  rw [Width.nBytes, Width.nUnits_wide ht]

/-! ### What a command that is no constructor leaves (R137) -/

/-- What such a command can do to a container: keep it, or write it after the upscale-first step. -/
inductive Rewrites (b b' : Container) : Prop where
  | keep (same : b' = b)
  | write (v : Word) (tag : b'.tag = (b.fit v).tag) (good : b'.Good)

theorem Rewrites.good {b b' : Container} (h : Rewrites b b') (hb : b.Good) : b'.Good := by
  cases h with
  | keep same => exact same ▸ hb
  | write _ _ good => exact good

/-- A change of TAG is an upscale, which raises its code (R132). -/
theorem Container.code_add_change_le_fit {c : Container} (hm : c.mask = c.tag.maskOf) (v : Word) :
    c.tag.code.toNat + (if (c.fit v).tag = c.tag then 0 else 1) ≤ (c.fit v).tag.code.toNat := by
  split
  · next same => rw [same, Nat.add_zero]
  · next change =>
    have hgt : c.mask < v := BitVec.not_le.mp fun hle => change (Container.tag_fit_of_le hle)
    rw [Container.tag_fit_of_gt hgt]
    exact Container.code_lt_upWidth hm hgt

theorem Rewrites.code_add_change_le {b b' : Container} (h : Rewrites b b') (hm : b.mask = b.tag.maskOf) :
    b.tag.code.toNat + (if b'.tag = b.tag then 0 else 1) ≤ b'.tag.code.toNat := by
  cases h with
  | keep same => rw [same, if_pos rfl, Nat.add_zero]
  | write v tag _ => rw [tag]; exact Container.code_add_change_le_fit hm v

theorem Command.rewrites_container {lmax : Word} {c : Command} {b : Container} (hb : b.Good)
    (hc : c.isConstructor = false) (passed : c.check lmax b = none) : Rewrites b (c.container b) := by
  cases c with
  | new | filled | fromSeq => cases hc
  | set i v =>
    have hi : ¬ b.len ≤ i := fun h => by rw [Command.check, if_pos h] at passed; cases passed
    exact .write v rfl (Container.good_set hb (BitVec.not_le.mp hi) v)
  | setr s e v =>
    have hr : ¬ (e < s ∨ b.len < e) := fun h => by rw [Command.check, if_pos h] at passed; cases passed
    rw [not_or, BitVec.not_lt, BitVec.not_lt] at hr
    obtain ⟨hse, he⟩ := hr
    exact .write v rfl (Container.good_setr hb hse he v)
  | get | iter | mask | len | illegal => exact .keep rfl

theorem transact_halted {lmax : Word} {c : Command} {k : Snapshot} (hf : k.fault = true) :
    transact lmax c k = (k, ⟨.halted, 0⟩, []) := if_pos hf

theorem transact_rewrites {lmax : Word} {c : Command} {k : Snapshot} (hb : k.box.Good)
    (hc : c.isConstructor = false) : Rewrites k.box (transact lmax c k).1.box := by
  cases hf : k.fault with
  | true => exact .keep (by rw [transact_halted hf])
  | false =>
    cases hcheck : c.check lmax k.box with
    | some e => exact .keep (by rw [transact_raises hf hcheck])
    | none =>
      rw [transact_accepted hf hcheck]
      exact Command.rewrites_container hb hc hcheck

/-- Every change of TAG along a list of commands without a constructor raises its code. -/
theorem code_add_widthChanges_le (lmax : Word) {k : Snapshot} {cs : List Command} (hb : k.box.Good)
    (hcs : ∀ c ∈ cs, c.isConstructor = false) :
    k.box.tag.code.toNat + widthChanges lmax k cs ≤ (transactAll lmax k cs).box.tag.code.toNat := by
  induction cs generalizing k with
  | nil => exact le_refl _
  | cons c cs ih =>
    obtain ⟨hc, hcs⟩ := List.forall_mem_cons.mp hcs
    have first : Rewrites k.box (transact lmax c k).1.box := transact_rewrites hb hc
    calc k.box.tag.code.toNat + widthChanges lmax k (c :: cs)
        = k.box.tag.code.toNat + (if (transact lmax c k).1.box.tag = k.box.tag then 0 else 1)
          + widthChanges lmax (transact lmax c k).1 cs := by rw [widthChanges, Nat.add_assoc]
      _ ≤ (transact lmax c k).1.box.tag.code.toNat + widthChanges lmax (transact lmax c k).1 cs :=
          Nat.add_le_add_right (first.code_add_change_le hb.masked) _
      _ ≤ (transactAll lmax k (c :: cs)).box.tag.code.toNat := ih (first.good hb) hcs

end Sys2Proof.Machine

namespace Sys2Proof.Proofs

open Sys2Proof Sys2Proof.Machine

/-- Settles O18: the target covers a value the live width does not, so it is strictly wider, and in each
range of the value only the widths narrower than the target are left. -/
theorem upscaleTargets : Obligations.UpscaleTargets := by
  intro c v hm hgt
  have wider := Container.bits_lt_upWidth hm hgt
  have raised := Container.code_lt_upWidth hm hgt
  have notWidest : c.tag ≠ .w32 := fun tag => by
    rw [tag] at raised
    exact absurd (upWidth v).code.isLt (Nat.not_lt.mpr raised)
  refine ⟨wider, raised, le_maskOf_upWidth v, notWidest, fun h => ?_,
    fun h h' => ?_, upWidth_of_gt_65535⟩
  · have target := upWidth_of_le_255 h
    exact ⟨Width.eq_w4_of_bits_lt_w8 (target ▸ wider), target⟩
  · have target := upWidth_of_le_65535 h h'
    exact ⟨Width.eq_w4_or_w8_of_bits_lt_w16 (target ▸ wider), target⟩

/-- Settles O19: every stored value is at most MASK, and MASK is below the new value. -/
theorem newValueDecidesTheWidth : Obligations.NewValueDecidesTheWidth := by
  intro c v hm hgt
  have stored (w : Word) (hw : w ∈ c.logical) : w ≤ c.mask := hm ▸ c.mem_logical_le w hw
  have below (w : Word) (hw : w ∈ c.logical) : w < v := lt_of_le_of_lt_word (stored w hw) hgt
  refine ⟨fun w hw => ⟨stored w hw, below w hw,
    le_trans_word (le_of_lt_word (below w hw)) (le_maskOf_upWidth v)⟩, ?_⟩
  have bounded : ∀ w ∈ v :: c.logical, w ≤ v :=
    List.forall_mem_cons.mpr ⟨BitVec.le_refl v, fun w hw => le_of_lt_word (below w hw)⟩
  exact BitVec.le_antisymm (maxWord_le bounded) (le_maxWord List.mem_cons_self)

/-- Settles O20: a new unit is an old element, which is a nibble of a W4 unit or a whole wider one. -/
theorem upscaleRebuildsTheUnits : Obligations.UpscaleRebuildsTheUnits := by
  intro c t wider
  have wide := Width.ne_w4_of_bits_lt wider
  have unit {k : Nat} (hk : k < c.len.toNat) := Container.unitRead_upscale wider hk
  refine ⟨rfl, rfl, rfl, rfl, Width.nUnits_wide wide _, ?_, fun k hk => unit hk,
    fun tag u => ⟨fun hk => ?_, fun hk => ?_⟩, fun tag k hk => ?_⟩
  · rw [← Width.nBytes_wide wide]
    exact (c.good_upscale t).sized
  · rw [unit hk, tag]
    exact toNat_repGet4_low _ _
  · rw [unit hk, tag]
    exact toNat_repGet4_high _ _
  · rw [unit hk, unitRead_eq_toNat_repGet tag]

/-- Settles O21: at a wider width pack cuts no element. -/
theorem upscaleKeepsContents : Obligations.UpscaleKeepsContents := by
  intro c t wider
  have contents : (c.upscale t).logical = c.logical :=
    Container.logical_upscale (Width.maskOf_le_iff.mpr wider.le)
  exact ⟨contents, contents, fun _ hk => Container.repGet_upscale_of_lt wider hk⟩

/-- Settles O22: from W4 and W8 an element is one byte of its new unit, from W16 it is two. -/
theorem upscaleBytePicture : Obligations.UpscaleBytePicture := by
  intro c j
  dsimp only
  have fromByte {old : Width} (tag : c.tag = old) (one : old.unitBytes = 1) {t : Width} (ht : t ≠ .w4) :=
    Container.read_upscale_of_byte (tag ▸ one) ht j
  refine ⟨fun tag => ?_, fun tag => ?_, fun tag => ?_, Nat.mul_one _, Nat.mul_comm _ _, Nat.mul_comm _ _,
    fun tag => ?_, fun tag => fromByte tag rfl (by decide), fun tag => fromByte tag rfl (by decide),
    fun tag => fromByte tag rfl (by decide), fun tag => fromByte tag rfl (by decide), fun tag => ?_⟩
  · rw [tag]; exact Nat.mul_one _
  · rw [tag]; exact Nat.mul_one _
  · rw [tag]; exact Nat.mul_comm _ _
  · rw [fromByte tag rfl (by decide), Width.unitBytes, if_pos (Nat.mod_one j), Nat.div_one]
  · rw [c.read_upscale (by decide), tag]
    exact if_congr Nat.lt_succ_iff rfl rfl

/-- Settles O34: the mask of the live width is at most MASK, so both writes stay in place. -/
theorem writingTheMaskNeverUpscales : Obligations.WritingTheMaskNeverUpscales := by
  intro s v hf hm hv
  have isMask : v = s.box.mask := by
    rw [hm]
    rcases hv with ⟨tag, rfl⟩ | ⟨tag, rfl⟩ | ⟨tag, rfl⟩ | ⟨tag, rfl⟩ <;> rw [tag] <;> rfl
  have fits : v ≤ s.box.mask := BitVec.le_of_eq isMask
  refine ⟨fun i hi => ⟨_, exec_set_ok hf hi, ?_⟩, fun a b hab hb => ⟨_, exec_setr_ok hf hab hb, ?_⟩⟩
  · rw [Container.set_of_le fits]
    exact ⟨rfl, rfl, rfl⟩
  · rw [Container.setr_of_le fits]
    exact ⟨rfl, rfl, rfl⟩

/-- Settles O47: each change raises the code of TAG, and a 2-bit code is at most 3. -/
theorem atMostThreeUpscales : Obligations.AtMostThreeUpscales := by
  intro lmax k cs hb hcs
  have raised := code_add_widthChanges_le lmax hb hcs
  have last := (transactAll lmax k cs).box.tag.code.isLt
  exact ⟨by omega, raised⟩

end Sys2Proof.Proofs
end

section
/-! Faults (R153 to R157, R161): the three ways the work of a command can end, what a halted block keeps
in every clock cycle, and what raises no fault. -/

namespace Sys2Proof.Machine

/-! ### How the work of a command ends (R155) -/

/-- The ends of a command's work on `s`, by the step of R155 that matches. -/
inductive WorkEnds (s : State) : State → Prop where
  | halted (halted : s.fault = true) : WorkEnds s (s.respond .halted 0)
  | raised (running : s.fault = false) (c : Cause) : WorkEnds s (s.raise c)
  | done {t : State} (running : s.fault = false) (fault : t.fault = false) (cause : t.cause = s.cause) :
      WorkEnds s t

theorem WorkEnds.unlessHalted {s ok : State} (h : s.fault = false → WorkEnds s ok) :
    WorkEnds s (s.unlessHalted ok) := by
  rcases s.unlessHalted_cases ok with ⟨hf, x⟩ | ⟨hf, x⟩ <;> rw [x]
  · exact .halted hf
  · exact h hf

theorem WorkEnds.checked {s ok : State} (bad : Bool) (c : Cause) (hfault : ok.fault = s.fault)
    (hcause : ok.cause = s.cause) : WorkEnds s (s.checked bad c ok) := by
  rcases s.checked_cases bad c ok with ⟨hf, x⟩ | ⟨hf, _, x⟩ | ⟨hf, _, x⟩ <;> rw [x]
  · exact .halted hf
  · exact .raised hf c
  · exact .done hf (hfault.trans hf) hcause

theorem WorkEnds.reservedOp (s : State) : WorkEnds s s.reservedOp :=
  .unlessHalted fun hf => .raised hf .illegal

/-- Past its check FROM writes neither FAULT nor CAUSE (R104). -/
theorem WorkEnds.fromAt (lmax n : Word) (s : State) : WorkEnds s (fromAt lmax n s) := by
  apply WorkEnds.checked
  · split <;> rfl
  · split <;> rfl

theorem State.startIter_no_fault {s : State} (hf : s.fault = false) :
    s.startIter.fault = false ∧ s.startIter.cause = s.cause :=
  have kept := s.snapshot_startIter
  ⟨(State.fault_of_snapshot kept).trans hf, State.cause_of_snapshot kept⟩

theorem exec_ends {i : Instr} {s t : State} (e : exec i s = .next t) : WorkEnds s t := by
  cases i with
  | new n => cases e; exact .checked _ _ rfl rfl
  | filled n v => cases e; exact .checked _ _ rfl rfl
  | fromBeats n => cases e; exact .fromAt _ _ _
  | get k => cases e; exact .checked _ _ rfl rfl
  | set k v => cases e; exact .checked _ _ rfl rfl
  | setr a b v => cases e; exact .checked _ _ rfl rfl
  | iter =>
    cases e
    refine .unlessHalted fun hf => ?_
    obtain ⟨fault, cause⟩ := State.startIter_no_fault hf
    exact .done hf fault cause
  | mask => cases e; exact .unlessHalted fun hf => .done hf hf rfl
  | len => cases e; exact .unlessHalted fun hf => .done hf hf rfl
  | _ => cases e; exact .reservedOp s

/-- A halted block answers ERR_HALTED to every command (R154). -/
theorem exec_halted (i : Instr) {s : State} (hf : s.fault = true) :
    exec i s = .next (s.respond .halted 0) := by
  obtain ⟨t, e, _⟩ := exec_next i s
  rw [e]
  cases exec_ends e with
  | halted _ => rfl
  | raised running _ => rw [hf] at running; cases running
  | done running _ _ => rw [hf] at running; cases running

/-- A command that leaves a running block halted has entered its fault (R153). -/
theorem exec_raised {i : Instr} {s t : State} (hf : s.fault = false) (e : exec i s = .next t)
    (ht : t.fault = true) : ∃ c, t = s.raise c := by
  cases exec_ends e with
  | halted halted => rw [hf] at halted; cases halted
  | raised _ c => exact ⟨c, rfl⟩
  | done _ clear _ => rw [clear] at ht; cases ht

theorem Cause.code_cases (c : Cause) : c.code = 1 ∨ c.code = 2 ∨ c.code = 3 ∨ c.code = 4 := by
  cases c <;> decide

/-! ### The clock cycles of a halted block (R154) -/

/-- What a halted block leaves alone: what a transaction reads and writes, the output beats sent, and the
input beats taken. -/
def State.frozen (s : State) : Snapshot × List DoutBeat × List Word :=
  (s.snapshot, s.env.gotDout, s.acc)

theorem State.frozen_eq {s t : State} (h : t.frozen = s.frozen) :
    t.snapshot = s.snapshot ∧ t.env.gotDout = s.env.gotDout ∧ t.acc = s.acc := by
  obtain ⟨snapshot, h⟩ := Prod.mk.inj h
  exact ⟨snapshot, Prod.mk.inj h⟩

theorem State.frozen_settle (s : State) : s.settle.frozen = s.frozen := by
  unfold State.settle; split <;> rfl

theorem State.frozen_execCycle {s t : State} (hf : s.fault = true) (e : s.execCycle = .next t) :
    t.frozen = s.frozen := by
  rcases s.execCycle_cases with ⟨_, _, _, x⟩ | ⟨_, _, _, x⟩ | ⟨_, _, u, hu, _, x⟩ | ⟨_, _, x⟩ <;>
    rw [x] at e <;> cases e
  · rfl
  · rfl
  · cases (exec_halted _ hf).symm.trans hu
    exact State.frozen_settle _
  · rfl

/-- A good block that is halted is in none of the two phases that move beats (R24). -/
theorem State.Good.no_beats_of_halted {s : State} (h : s.Good) (hf : s.fault = true) :
    s.phase ≠ .load ∧ s.phase ≠ .stream := by
  have next (q : Phase) (hp : s.phase = q) (hq : q ≠ .exec) : s.nextPhase = q := by
    rw [State.nextPhase_of_done_none (h.done_none (hp ▸ hq)), hp]
  refine ⟨fun hp => ?_, fun hp => ?_⟩
  · have running := (h.loading (next _ hp (by decide))).1
    rw [hf] at running; cases running
  · have running := (h.streaming (next _ hp (by decide))).1
    rw [hf] at running; cases running

theorem State.Good.frozen_advance {s t : State} {p : PortIn} (h : s.Good) (hf : s.fault = true)
    (e : s.advance p = .next t) : t.frozen = s.frozen := by
  obtain ⟨notLoad, notStream⟩ := h.no_beats_of_halted hf
  rcases s.advance_cases p with
    ⟨_, x⟩ | ⟨_, x⟩ | ⟨hp, _⟩ | ⟨hp, _⟩ | ⟨hp, _⟩ | ⟨_, x⟩
  · rw [x] at e; cases e; split <;> rfl
  · exact State.frozen_execCycle hf (x ▸ e)
  · exact absurd hp notLoad
  · exact absurd hp notStream
  · exact absurd hp notStream
  · rw [x] at e; cases e; split <;> rfl

/-- Without reset a clock cycle of a halted block changes nothing of what R154 names. -/
theorem State.Good.frozen_step {s t : State} (h : s.Good) (hf : s.fault = true)
    (hr : s.thisInput.rst = false) (e : step s = .next t) : t.frozen = s.frozen := by
  rcases step_cases s with ⟨reset, _⟩ | ⟨_, _, x⟩ | ⟨_, _, x⟩
  · rw [hr] at reset; cases reset
  · rw [x] at e; cases e
  · exact (h.dropInput.noteOffers s.thisInput).frozen_advance hf (x ▸ e)

/-! ### What is no fault (R161) -/

section
variable {s : State} (hf : s.fault = false) {lmax n : Word} (h : n ≤ lmax)
include hf h

theorem newAt_no_fault : (newAt lmax n s).fault = false ∧ (newAt lmax n s).cause = s.cause := by
  rw [newAt, State.checked_fitting hf h]
  exact ⟨hf, rfl⟩

theorem filledAt_no_fault (v : Word) :
    (filledAt lmax n v s).fault = false ∧ (filledAt lmax n v s).cause = s.cause := by
  rw [filledAt, State.checked_fitting hf h]
  exact ⟨hf, rfl⟩

theorem fromAt_no_fault : (fromAt lmax n s).fault = false ∧ (fromAt lmax n s).cause = s.cause := by
  by_cases empty : n = 0
  · rw [empty, fromAt_zero hf]
    exact ⟨hf, rfl⟩
  · rw [fromAt_load hf empty h]
    exact ⟨hf, rfl⟩

end

/-- Outside LOAD the phase machine does not look at DIN (R23, R61). -/
theorem State.advance_din_outside_load {s : State} (hp : s.phase ≠ .load) (p : PortIn) (valid : Bool)
    (d : Word) : s.advance { p with dinValid := valid, dinData := d } = s.advance p := by
  cases phase : s.phase with
  | load => exact absurd phase hp
  | idle => rw [State.advance_idle phase, State.advance_idle phase]
  | exec => rw [State.advance_exec phase, State.advance_exec phase]
  | stream => simp only [State.advance, phase]
  | resp => rw [State.advance_resp phase, State.advance_resp phase]

/-- Outside LOAD a beat offered on DIN meets no ready, and the host holds it (R61). -/
theorem State.heldDin_outside_load {s : State} (hp : s.phase ≠ .load) {p : PortIn}
    (valid : p.dinValid = true) : (s.noteOffers p).env.heldDin = some p.dinData := by
  have busy : (s.outputs p.rst).dinReady = false := by simp [State.outputs, hp]
  rw [State.heldDin_noteOffers, busy, valid]
  rfl

end Sys2Proof.Machine

namespace Sys2Proof.Proofs

open Sys2Proof Sys2Proof.Machine

/-- Settles O40: the work of a command ends at step 1 of R155, and a good halted block is in no phase that
moves beats. -/
theorem haltedBlockStaysHalted : Obligations.HaltedBlockStaysHalted := by
  refine ⟨fun i s hf => exec_halted i hf,
    fun s t hf good hr e => State.frozen_eq (good.frozen_step hf hr e), fun s t _ hr e => ?_⟩
  rcases step_cases s with ⟨_, x⟩ | ⟨running, _⟩ | ⟨running, _⟩
  · rw [x] at e; cases e; rfl
  · rw [hr] at running; cases running
  · rw [hr] at running; cases running

/-- Settles O41: such a command ends in the fault entry, which writes four registers. -/
theorem faultsLeaveTheContainer : Obligations.FaultsLeaveTheContainer := by
  intro i s t hf e ht
  obtain ⟨c, rfl⟩ := exec_raised hf e ht
  rw [State.raise_running hf]
  exact ⟨rfl, c.code_cases, rfl⟩

/-- Settles O42: each command listed passes its check, the opcode alone selects a command, and only LOAD
looks at DIN. -/
theorem whatIsNotAFault : Obligations.WhatIsNotAFault := by
  refine ⟨fun i v s t hf hi e => ?_, fun a b v s t hf hab hb e => ?_, fun v i s t hf hi e => ?_,
    fun lmax n v s hf h => ?_, fun op a b v => ?_, fun s d p hp => ⟨?_, State.heldDin_outside_load hp rfl⟩⟩
  · cases (exec_set_ok hf hi).symm.trans e
    exact ⟨hf, rfl⟩
  · cases (exec_setr_ok hf hab hb).symm.trans e
    exact ⟨hf, rfl⟩
  · simp only [List.mem_cons, List.not_mem_nil, or_false] at hi
    rcases hi with rfl | rfl | rfl | rfl
    · cases e; exact newAt_no_fault hf (Nat.zero_le _)
    · cases e; exact filledAt_no_fault hf (Nat.zero_le _) v
    · cases e; exact fromAt_no_fault hf (Nat.zero_le _)
    · cases (exec_iter_ok hf).symm.trans e
      exact State.startIter_no_fault hf
  · obtain ⟨newFault, newCause⟩ := newAt_no_fault hf h
    obtain ⟨filledFault, filledCause⟩ := filledAt_no_fault hf h v
    exact ⟨newFault, newCause, filledFault, filledCause, fromAt_no_fault hf h⟩
  · rw [opcode_decode, opField_assemble]
  · exact State.advance_din_outside_load hp { p with dinValid := false } true d

/-- Settles O39: `raise` writes four registers, and delivering its response writes only PHASE. -/
theorem faultEntry : Obligations.FaultEntry := by
  refine ⟨fun c s => rfl, fun c s p taken => ⟨(s.raise c).deliver, ?_, rfl, rfl, rfl, rfl⟩⟩
  rw [State.advance_resp (s.phase_raise c), if_pos taken]

end Sys2Proof.Proofs
end

section
/-! Reset, a broken handshake, and a host that does not serve the block (R165, R171 to R174). -/

namespace Sys2Proof.Machine

/-! ### A block its host does not serve (R172, R173) -/

/-- In a cycle with inputs `p` the host withholds what the block waits for: the beat of LOAD, the taking
of the beat of STREAM, or the taking of the response. -/
inductive State.Unserved (s : State) (p : PortIn) : Prop where
  | load (phase : s.phase = .load) (quiet : p.dinValid = false)
  | stream (phase : s.phase = .stream) (inside : s.cnt < s.box.len) (busy : p.doutReady = false)
  | resp (phase : s.phase = .resp) (busy : p.rspReady = false)

theorem State.Unserved.advance {s : State} {p : PortIn} (h : s.Unserved p) : s.advance p = .next s := by
  cases h with
  | load phase quiet => rw [State.advance_load phase, quiet]; rfl
  | stream phase inside busy => rw [State.advance_stream phase inside, busy]; rfl
  | resp phase busy => rw [State.advance_resp phase, busy]; rfl

/-- Whether a block is served depends on its registers alone, so it still waits after the host's side of
the ports has changed. -/
theorem State.Unserved.with_env {s : State} {p : PortIn} (h : s.Unserved p) (e : Env) :
    State.Unserved { s with env := e } p := by
  cases h with
  | load phase quiet => exact .load phase quiet
  | stream phase inside busy => exact .stream phase inside busy
  | resp phase busy => exact .resp phase busy

/-- A run in which no cycle serves the block keeps every register and transfers nothing (R174). -/
theorem Runs.unserved_waits {s t : State} {ins : List PortIn} (h : Runs s ins t)
    (unserved : ∀ p ∈ ins, s.Unserved p) : t = { s with env := t.env } ∧ Passed s t [] [] [] [] := by
  induction ins generalizing s with
  | nil =>
    rw [h.nil]
    obtain ⟨cmd, din, dout, rsp⟩ := Passed.refl s
    exact ⟨rfl, cmd, din, dout, rsp⟩
  | cons p ins ih =>
    obtain ⟨u, e, h'⟩ := h.cons
    have waits (q : PortIn) (hq : q ∈ p :: ins) : ((s.fed ins).noteOffers p).Unserved q :=
      (unserved q hq).with_env _
    rw [(waits p List.mem_cons_self).advance] at e
    cases e
    obtain ⟨kept, cmd, din, dout, rsp⟩ := ih h' fun q hq => waits q (List.mem_cons_of_mem p hq)
    exact ⟨kept, cmd, din, dout, rsp⟩

/-! ### Reset and the broken handshake (R165, R171) -/

theorem step_eq_hardReset {s : State} (hr : s.thisInput.rst = true) :
    step s = .next (s.dropInput.hardReset.noteOffers s.thisInput) := if_pos hr

/-- An offer is not kept exactly when there is one and the port does not show it (R61, R171). -/
theorem keepsOffer_eq_false_iff {n : Nat} (held : Option (BitVec n)) (valid : Bool) (payload : BitVec n) :
    keepsOffer held valid payload = false ↔
      ∃ w, held = some w ∧ ¬ (valid = true ∧ payload = w) := by
  cases held <;> simp [keepsOffer]

theorem State.hostKeepsOffers_eq_false_iff (s : State) (p : PortIn) : s.hostKeepsOffers p = false ↔
    (∃ w, s.env.heldCmd = some w ∧ ¬ (p.cmdValid = true ∧ p.cmdWord = w)) ∨
    (∃ d, s.env.heldDin = some d ∧ ¬ (p.dinValid = true ∧ p.dinData = d)) := by
  rw [State.hostKeepsOffers, Bool.and_eq_false_iff, keepsOffer_eq_false_iff, keepsOffer_eq_false_iff]

theorem step_eq_refused {s : State} (hr : s.thisInput.rst = false)
    (broken : s.hostKeepsOffers s.thisInput = false) : step s = .refused .hostBrokeHandshake := by
  rcases step_cases s with ⟨reset, _⟩ | ⟨_, _, refused⟩ | ⟨_, kept, _⟩
  · rw [hr] at reset; cases reset
  · exact refused
  · rw [broken] at kept; cases kept

end Sys2Proof.Machine

namespace Sys2Proof.Proofs

open Sys2Proof Sys2Proof.Machine

/-- Settles O57: in each of the three phases every cycle of the run leaves the block unserved. -/
theorem unservedBlockWaits : Obligations.UnservedBlockWaits := by
  intro s t ins run waits
  have unserved : (∀ p ∈ ins, p.rst = false) ∧ ∀ p ∈ ins, s.Unserved p := by
    rcases waits with ⟨hp, h⟩ | ⟨hp, inside, h⟩ | ⟨hp, h⟩
    · exact ⟨fun p hm => (h p hm).1, fun p hm => .load hp (h p hm).2⟩
    · exact ⟨fun p hm => (h p hm).1, fun p hm => .stream hp inside (h p hm).2⟩
    · exact ⟨fun p hm => (h p hm).1, fun p hm => .resp hp (h p hm).2⟩
  obtain ⟨noReset, unserved⟩ := unserved
  obtain ⟨kept, _, _, dout, rsp⟩ := Runs.unserved_waits ⟨noReset, run⟩ unserved
  exact ⟨kept, rsp.trans (List.append_nil _), dout.trans (List.append_nil _)⟩

/-- Settles O55: a reset cycle is `hardReset`, whose registers are literals, and `rst` gates the pins. -/
theorem resetWinsOverEverything : Obligations.ResetWinsOverEverything := by
  refine ⟨fun s hr => ⟨_, step_eq_hardReset hr, ?_⟩, fun s => ?_⟩
  · exact ⟨rfl, rfl, rfl, rfl, rfl, rfl, rfl, rfl, rfl, rfl, rfl⟩
  · exact ⟨rfl, rfl, rfl, rfl⟩

/-- Settles O56: what the statement describes is exactly an offer the host does not keep. -/
theorem brokenHandshakeIsRefused : Obligations.BrokenHandshakeIsRefused :=
  fun s hr broken => step_eq_refused hr ((s.hostKeepsOffers_eq_false_iff s.thisInput).mpr broken)

end Sys2Proof.Proofs
end
